-- ==== Sys2Proof/Word.lean ====
section
/-! DEFINITION. The words of TXCORE: bytes of the two streams, 32-bit header and CSR words, and bit strings (R8, R9). -/

namespace Sys2Proof

/-- A byte of the command stream, the response stream, a block or a codeword (R60, R63). -/
abbrev Byte := BitVec 8

/-- A 32-bit word: a header `H`, a response word `Rw` or a CSR value (R30, R82, R84). -/
abbrev Word := BitVec 32

/-- A bit string of R9: the first element is the first bit, the most significant one. -/
abbrev Bits := List Bool

end Sys2Proof
end

