-- ==== Sys2Proof/Config.lean ====
section
/-! DEFINITION. The configuration of R7: the parameters a model of TXCORE takes as arguments, and the free value of
the waveform (R300). -/

namespace Sys2Proof

/-- How a dah delta picks its width (R134). -/
inductive DahWidthPolicy where
  /-- The sign of the delta picks the width. This spec's value. -/
  | signSelected
  /-- Always the larger width. -/
  | max
deriving DecidableEq, Repr

/-- The parameters of R7 that have no fixed value in the spec, or that R260 and R134 ask a model to keep as
parameters. They are configuration: no command changes them (R21). -/
structure Params where
  /-- `BLOCK_BITS`, OPEN. -/
  blockBits : Nat
  /-- `LDPC_N`, OPEN. -/
  ldpcN : Nat
  /-- `LDPC_P`, OPEN: row `i` belongs to message bit `i`, its element `j` to parity bit `j` (R242). -/
  ldpcP : List Bits
  /-- `LDPC_H`, OPEN: the parity-check matrix, row by row, which constrains `LDPC_P` (R243). No output depends on it. -/
  ldpcH : List Bits
  /-- `GRAY_TABLE`: entry `n` is the Gray code of `n` (R260). -/
  grayTable : List (BitVec 4)
  /-- `DAH_WIDTH_POLICY` (R134). -/
  dahPolicy : DahWidthPolicy
  /-- `GFSK_TOL`, OPEN, in units of `2^-512`. DESIGN CHOICE (log 14): the spec gives the tolerance no granularity; the
  model takes it as a whole number of these units, and any other tolerance stands for the next one above it. -/
  gfskTol : Nat
deriving DecidableEq, Repr

/-- `BLOCK_BYTES = BLOCK_BITS / 8` (R7). -/
def Params.blockBytes (p : Params) : Nat := p.blockBits / 8

/-- `LDPC_K = BLOCK_BITS + 16` (R7). -/
def Params.ldpcK (p : Params) : Nat := p.blockBits + 16

/-- `LDPC_K / 8`, the payload of `LDPC_ENCODE` (R83). -/
def Params.messageBytes (p : Params) : Nat := p.ldpcK / 8

/-- The number of parity bits, `LDPC_N - LDPC_K` (R107). -/
def Params.parityBits (p : Params) : Nat := p.ldpcN - p.ldpcK

/-- `HMOD` of R7: the tone spacing in units of one over the symbol period. -/
def hmod : Nat := 1

/-- `ID_VALUE` of R7 and R3. -/
def idValue : Word := 0x444D5437#32

/-- Toy code 2 of 95_test_vectors.md V8: `LDPC_P[i][j] = 1` iff `j = i` or `j = (i+1) mod 48`. -/
def Params.toyP : List Bits :=
  (List.range 48).map fun i => (List.range 48).map fun j => j == i || j == (i + 1) % 48

/-- The parity-check matrix `[ P^T | I ]` of a systematic code, which every `P` of the given number of columns admits
(R243). -/
def Params.systematicH (rows : List Bits) (columns : Nat) : List Bits :=
  (List.range columns).map fun r =>
    (rows.map fun row => row.getD r false) ++ (List.range columns).map fun j => j == r

/-- The binary-reflected Gray code, `n XOR (n >> 1)` (R260). -/
def Params.reflectedGray : List (BitVec 4) :=
  (List.range 16).map fun n => BitVec.ofNat 4 n ^^^ (BitVec.ofNat 4 n >>> 1)

/-- The parameters that `State.reset` carries: the one complete legal set that the spec writes out (toy code 2 of
95_test_vectors.md V8) and a bit-exact modulator (R300). DESIGN CHOICE, unsafe (log 1): the spec leaves
`BLOCK_BITS`, `LDPC_N`, `LDPC_P`, `LDPC_H` and `GFSK_TOL` OPEN; statements are for every parameter set. -/
def Params.default : Params where
  blockBits := 32
  ldpcN := 96
  ldpcP := Params.toyP
  ldpcH := Params.systematicH Params.toyP 48
  grayTable := Params.reflectedGray
  dahPolicy := .signSelected
  gfskTol := 0

/-- The inputs of one modulation (R290): the three CSRs, the tones and the two ramp flags. -/
structure GfskRequest where
  sampleRate  : Word
  audioOffset : Word
  outCapacity : Word
  tones       : List Byte
  rampDown    : Bool
  rampUp      : Bool
deriving DecidableEq, Repr

/-- FREE VALUE (log 2): the binary32 pattern an implementation would send for sample `k` of a modulation. It is
used only where R300 leaves the sample open: within `GFSK_TOL` of the reference, and for the sign of a zero. It is a
function of the inputs alone, because a core must be reproducible (R301). -/
opaque Config.gfskChoice : GfskRequest → Nat → Word

end Sys2Proof
end

