-- ==== Sys2Proof/Machine/Operands.lean ====
section
/-! DEFINITION. Operand forms: bit strings and the numbers they spell (R9), extension and clamping (R10), and the
big-endian byte order of the ports (R63). -/

namespace Sys2Proof.Machine

/-- `bitsN(v)` of R9: the `n`-bit string of `v mod 2^n`, most significant bit first. -/
def bitsN : Nat → Nat → Bits
  | 0, _ => []
  | n + 1, v => v.testBit n :: bitsN n v

/-- `num(s)` of R9: the unsigned number a bit string spells. -/
def num : Bits → Nat
  | [] => 0
  | b :: s => b.toNat * 2 ^ s.length + num s

/-- The eight bits of one byte, bit 7 first (R61). -/
def byteBits (b : Byte) : Bits := bitsN 8 b.toNat

/-- `bitsOf(B)` of R9: the bit string of a byte sequence, byte 0 first. -/
def bitsOf (bytes : List Byte) : Bits := bytes.flatMap byteBits

/-- `bytes(s)` of R9, defined there for lengths that are multiples of 8: byte `j` is `num(s[8j .. 8j+7])`. -/
def bytesOf : Bits → List Byte
  | b0 :: b1 :: b2 :: b3 :: b4 :: b5 :: b6 :: b7 :: s =>
    BitVec.ofNat 8 (num [b0, b1, b2, b3, b4, b5, b6, b7]) :: bytesOf s
  | _ => []

/-- `zeros(n)`: the padding of R103 and R152. -/
def zeros (n : Nat) : Bits := List.replicate n false

/-- GF(2) addition of bit strings of one length, bit by bit (R240). -/
def xorBits (a b : Bits) : Bits := List.zipWith xor a b

/-- `twos_N(v)` of R10, for `0 <= v < 2^N`. -/
def twos (n v : Nat) : Int :=
  if v.testBit (n - 1) then (v : Int) - (2 : Int) ^ n else v

/-- `clamp(lo, hi, x)` of R10. -/
def clamp (lo hi x : Int) : Int := min hi (max lo x)

/-- `bits16(d) as u16`: a signed number in a 16-bit field, two's complement (R35, R137). -/
def field16 (d : Int) : BitVec 16 := BitVec.ofInt 16 d

/-- A 32-bit word as four bytes, most significant first (R63). -/
def be32 (w : Word) : List Byte :=
  [w.extractLsb' 24 8, w.extractLsb' 16 8, w.extractLsb' 8 8, w.extractLsb' 0 8]

/-- The 32-bit word that four bytes spell, most significant first (R63). -/
def ofBe32 (b3 b2 b1 b0 : Byte) : Word := b3 ++ b2 ++ b1 ++ b0

/-- The 32-bit word at the head of a byte sequence, a missing byte read as 0 (R63, `num(bitsOf(Payload(4)))` of R322). -/
def wordOf : List Byte → Word
  | b3 :: b2 :: b1 :: b0 :: _ => ofBe32 b3 b2 b1 b0
  | b3 :: b2 :: b1 :: [] => ofBe32 b3 b2 b1 0
  | b3 :: b2 :: [] => ofBe32 b3 b2 0 0
  | b3 :: [] => ofBe32 b3 0 0 0
  | [] => 0

end Sys2Proof.Machine
end

