-- ==== Sys2Proof/Machine/Flags.lean ====
section
/-! DEFINITION. Status codes (R330) and the result bits that take the place of flags (R43). TXCORE has no condition
codes: a host tests the status, `FIT`, `CORRECT` and the block count. -/

namespace Sys2Proof.Machine

/-- The four errors that end a command (R12, R330). -/
inductive ErrorKind where
  /-- A setting, or a parameter of the request, is bad or missing. -/
  | configurationError
  /-- A container or buffer is too small for the request. -/
  | capacityExceeded
  /-- A value is outside the range its encoding can represent. -/
  | encodingRangeError
  /-- The header is not a legal command (R87, R88), or names a CSR it may not (R41). -/
  | illegalCommand
deriving DecidableEq, Repr

/-- The status of a completed command (R330). The codes 5 to 15 are never sent and have no constructor. -/
inductive Status where
  | ok
  | error (e : ErrorKind)
deriving DecidableEq, Repr

/-- The 4-bit code of a status (R330). -/
def statusCode : Status → BitVec 4
  | .ok => 0
  | .error .configurationError => 1
  | .error .capacityExceeded => 2
  | .error .encodingRangeError => 3
  | .error .illegalCommand => 4

/-- The place of an error in the order of R336: the smaller number is reported. -/
def errorPrecedence : ErrorKind → Nat
  | .illegalCommand => 1
  | .configurationError => 2
  | .encodingRangeError => 3
  | .capacityExceeded => 4

/-- `FIT` in `RESULT[0]` (R175): 1 iff the frame fitted. -/
def fitResult (fits : Bool) : Nat := fits.toNat

/-- `CORRECT` in `RESULT[0]` (R224): 1 iff the CRC of the data is 0. -/
def correctResult (crc : BitVec 14) : Nat := (crc == 0).toNat

/-- `S.error_seen` after a command that completes with a status (R40, R333). -/
def errorSeenAfter (before : Bool) : Status → Bool
  | .ok => before
  | .error _ => true

end Sys2Proof.Machine
end

