-- ==== Sys2Proof/Machine/Timing.lean ====
section
/-! DEFINITION. The keying timing model and the delta arithmetic of 40_timing_model.md (R131 to R138). -/

namespace Sys2Proof.Machine

/-- The perfect dit in ms, floored (R131). -/
def dit (w : Nat) : Nat := 1200 / w

/-- The perfect dah in ms (R131). -/
def dah (w : Nat) : Nat := 3 * dit w

/-- The perfect wordgap in ms (R131). -/
def wordgap (w : Nat) : Nat := 7 * dit w

/-- `neg_dit` of R132. -/
def negDit (w : Nat) : Int := -(dit w : Int)

/-- `pos_dit` of R132. -/
def posDit (w : Nat) : Int := ((dah w : Int) - dit w) / 2

/-- `neg_dah` of R132. -/
def negDah (w : Nat) : Int := -(((dah w : Int) - dit w) / 2 - 1)

/-- `pos_dah` of R132. -/
def posDah (w : Nat) : Int := ((wordgap w : Int) - dah w) / 2 - 1

/-- `neg_wordgap` of R132. -/
def negWordgap (w : Nat) : Int := -(((wordgap w : Int) - dah w) / 2)

/-- `pos_wordgap` of R132, capped at 367. -/
def posWordgap (w : Nat) : Int := min 367 (-negWordgap w)

/-- The WPM band of R133. -/
def band (w : Nat) : Nat := if w ≤ 9 then 0 else if w ≤ 18 then 1 else if w ≤ 37 then 2 else 3

/-- The dit width of R133, not counting the sign bit. -/
def ditWidth (w : Nat) : Nat := 8 - band w

/-- The dah width for negative deltas (R133). -/
def dahNegWidth (w : Nat) : Nat := 8 - band w

/-- The dah width for positive deltas (R133). -/
def dahPosWidth (w : Nat) : Nat := 9 - band w

/-- The wordgap width (R133). -/
def wordgapWidth (w : Nat) : Nat := 9 - band w

/-- The width a dah delta uses (R134). -/
def dahWidth (policy : DahWidthPolicy) (w : Nat) (delta : Int) : Nat :=
  match policy with
  | .signSelected => if delta < 0 then dahNegWidth w else dahPosWidth w
  | .max => max (dahNegWidth w) (dahPosWidth w)

/-- `LEGAL(b)` of R138: the largest magnitude of a `b`-bit delta, for the legal widths 5 to 9. -/
def legalDelta : Nat → Option Nat
  | 5 => some 31
  | 6 => some 63
  | 7 => some 127
  | 8 => some 240
  | 9 => some 480
  | _ => none

/-- `DeltaCode(d, b)` of R136. -/
def deltaCode (d : Int) (b : Nat) : Except ErrorKind Nat :=
  match legalDelta b with
  | none => .error .configurationError
  | some m =>
    if d < -(m : Int) ∨ (m : Int) < d then .error .encodingRangeError
    else if 0 ≤ d then .ok d.toNat
    else .ok (d + (2 : Int) ^ (b + 1)).toNat

/-- `DeltaDecode(c, b)` of R137. -/
def deltaDecode (c b : Nat) : Except ErrorKind Int :=
  match legalDelta b with
  | none => .error .configurationError
  | some _ =>
    if 2 ^ (b + 1) ≤ c then .error .encodingRangeError
    else .ok (clamp (-480) 480 (twos (b + 1) c))

end Sys2Proof.Machine
end

