-- ==== Sys2Proof/Machine/Frames.lean ====
section
/-! DEFINITION. Frame layouts (R100, R101) and the keying classifier (R171). -/

namespace Sys2Proof.Machine

/-- A frame: its 4-bit tag, most significant bit first, and its payload (R100, R101). -/
def frame (tag : Nat) (payload : Bits) : Bits := bitsN 4 tag ++ payload

/-- The `WPMPolarity` frame, 11 bits (R101, R190). -/
def wpmPolarityFrame (wpm : Nat) (polarity : Bool) : Bits := frame 1 (bitsN 6 wpm ++ [polarity])

/-- The `KeyingNaive` frame, 15 bits (R101). -/
def naiveFrame (duration : Nat) : Bits := frame 13 (bitsN 11 duration)

/-- A delta frame: the tag and `bits(w+1)(DeltaCode(delta, w))` (R101). -/
def deltaFrame (tag : Nat) (delta : Int) (w : Nat) : Except ErrorKind Bits :=
  match deltaCode delta w with
  | .error e => .error e
  | .ok c => .ok (frame tag (bitsN (w + 1) c))

/-- The `KeyingDeltaDit` frame at a WPM (R101). -/
def deltaDitFrame (wpm : Nat) (delta : Int) : Except ErrorKind Bits := deltaFrame 10 delta (ditWidth wpm)

/-- The `KeyingDeltaDah` frame at a WPM (R101, R134). -/
def deltaDahFrame (policy : DahWidthPolicy) (wpm : Nat) (delta : Int) : Except ErrorKind Bits :=
  deltaFrame 11 delta (dahWidth policy wpm delta)

/-- The `KeyingDeltaWordgap` frame at a WPM (R101). -/
def deltaWordgapFrame (wpm : Nat) (delta : Int) : Except ErrorKind Bits :=
  deltaFrame 12 delta (wordgapWidth wpm)

/-- `Classify(d)` of R171: perfect first, then delta, then naive. -/
def classify (policy : DahWidthPolicy) (wpm d : Nat) : Except ErrorKind Bits :=
  if d = dit wpm then .ok (frame 6 [])
  else if d = dah wpm then .ok (frame 7 [])
  else if d = wordgap wpm then .ok (frame 8 [])
  else if negDit wpm ≤ (d : Int) - dit wpm ∧ (d : Int) - dit wpm ≤ posDit wpm then
    deltaDitFrame wpm ((d : Int) - dit wpm)
  else if negDah wpm ≤ (d : Int) - dah wpm ∧ (d : Int) - dah wpm ≤ posDah wpm then
    deltaDahFrame policy wpm ((d : Int) - dah wpm)
  else if negWordgap wpm ≤ (d : Int) - wordgap wpm ∧ (d : Int) - wordgap wpm ≤ posWordgap wpm then
    deltaWordgapFrame wpm ((d : Int) - wordgap wpm)
  else if d ≤ 2047 then .ok (naiveFrame d)
  else .error .encodingRangeError

end Sys2Proof.Machine
end

