-- ==== Sys2Proof/Machine/Symbols.lean ====
section
/-! DEFINITION. Channel symbols and their byte codes (R104). -/

namespace Sys2Proof.Machine

/-- A ChannelSymbol (R15, R104). -/
inductive Symbol where
  | tone (t : BitVec 4)
  | rampUp
  | rampDown
deriving DecidableEq, Repr

/-- The byte a symbol is sent as (R104). -/
def symbolByte : Symbol → Byte
  | .tone t => t.setWidth 8
  | .rampUp => 0x10
  | .rampDown => 0x11

/-- The symbol a byte stands for; the codes 0x12 to 0xFF are reserved (R104). -/
def symbolOfByte (b : Byte) : Option Symbol :=
  if b.toNat < 16 then some (.tone (b.setWidth 4))
  else if b = 0x10 then some .rampUp
  else if b = 0x11 then some .rampDown
  else none

end Sys2Proof.Machine
end

