-- ==== Sys2Proof/Syntax.lean ====
section
/-! DEFINITION. The instructions: one constructor per row of spec/opcode_table.json. The 21 commands (R86) come first,
then the 16 frame tags (R100, R101), then the 18 channel symbols (R104). -/

namespace Sys2Proof

/-- One row of the opcode table with its operands. The payload of a command is an operand; its length is what the
header's `LEN` or `NSYM` says, or what the parameters fix (R89). -/
inductive Instr where
  -- commands, R86
  | seStart
  | seTimed (up : Bool) (dur : BitVec 16)
  | seEnd
  | seSetSpeed (wpm : BitVec 6)
  | seEmit
  | keEncode (up : Bool) (dur : BitVec 16)
  | deltaEnc (bits : BitVec 4) (val : BitVec 16)
  | deltaDec (bits : BitVec 4) (val : BitVec 16)
  | bbAdd (count : BitVec 5) (value : BitVec 16)
  | exLoad (payload : List Byte)
  | exTake (count : BitVec 5)
  | crc14 (payload : List Byte)
  | crc14Check (payload : List Byte)
  | ldpcPack (spare : BitVec 2) (crc : BitVec 14) (block : List Byte)
  | ldpcEncode (message : List Byte)
  | grayTo (nib : BitVec 8)
  | grayFrom (nib : BitVec 8)
  | chanEncode (isEnd : Bool) (block : List Byte)
  | gfskMod (rampDown : Bool) (rampUp : Bool) (tones : List Byte)
  | csrRead (csr : BitVec 8)
  | csrWrite (csr : BitVec 8) (value : Word)
  -- frames of a source block, R100 and R101
  | padding
  | wpmPolarity (wpm : BitVec 6) (polarity : Bool)
  | callsignMetadata
  | callsignHashMetadata
  | locatorMetadata
  | powerMetadata
  | keyingPerfectDit
  | keyingPerfectDah
  | keyingPerfectWordgap
  | keyingEnd
  | keyingDeltaDit (delta : Int)
  | keyingDeltaDah (delta : Int)
  | keyingDeltaWordgap (delta : Int)
  | keyingNaive (duration : BitVec 11)
  | unused
  | extension
  -- channel symbols, R104
  | tone0
  | tone1
  | tone2
  | tone3
  | tone4
  | tone5
  | tone6
  | tone7
  | tone8
  | tone9
  | tone10
  | tone11
  | tone12
  | tone13
  | tone14
  | tone15
  | rampUp
  | rampDown
deriving DecidableEq, Repr

end Sys2Proof
end

