-- ==== Sys2Proof/Decode.lean ====
section
/-! DEFINITION. The decoder of the command stream (R82 to R89), of frames (R100, R101) and of channel symbols (R104),
and the encoder of all three. The decoder is total on any bytes and rejects by name. -/

namespace Sys2Proof

/-! ## Formats and lengths -/

/-- The formats of R83. -/
inductive Format where
  | N | W | T | A | X | D | G | L | P | K | B | M | R
deriving DecidableEq, Repr

/-- The opcode map of R86: the format of an assigned opcode, none for an unassigned one (R88). -/
def formatOf (opc : Nat) : Option Format :=
  match opc with
  | 0x10 => some .N
  | 0x11 => some .T
  | 0x12 => some .N
  | 0x13 => some .W
  | 0x14 => some .N
  | 0x18 => some .T
  | 0x20 => some .D
  | 0x21 => some .D
  | 0x28 => some .A
  | 0x29 => some .L
  | 0x2A => some .X
  | 0x30 => some .L
  | 0x31 => some .L
  | 0x38 => some .P
  | 0x39 => some .K
  | 0x40 => some .G
  | 0x41 => some .G
  | 0x48 => some .B
  | 0x50 => some .M
  | 0x70 => some .R
  | 0x71 => some .R
  | _ => none

/-- The reserved bits of a format, the bits marked 0 in R83, as a mask of the header. -/
def reservedMask : Format → Word
  | .N => 0x00FFFFFF
  | .W => 0x00FFFFC0
  | .T => 0x00FE0000
  | .A => 0x00E00000
  | .X => 0x00FFFFE0
  | .D => 0x00F00000
  | .G => 0x00FFFF00
  | .L => 0x00FF0000
  | .P => 0x00FF0000
  | .K => 0x00FFFFFF
  | .B => 0x00FFFFFE
  | .M => 0x000000FC
  | .R => 0x00FFFF00

/-- `OPC`, bits 31:24 of the header (R82). -/
def headerOpcode (h : Word) : Byte := h.extractLsb' 24 8

/-- The payload length that a header fixes (R83, R89); an unassigned opcode has none (R88). -/
def payloadLength (p : Params) (h : Word) : Nat :=
  match formatOf (headerOpcode h).toNat with
  | some .L => (h.extractLsb' 0 16).toNat
  | some .P => p.blockBytes
  | some .K => p.messageBytes
  | some .B => p.blockBytes
  | some .M => (h.extractLsb' 8 16).toNat
  | some .R => if headerOpcode h = 0x71 then 4 else 0
  | _ => 0

/-! ## The command decoder -/

/-- Operand assembly (R85): the command of an assigned opcode, its fields and its payload. None for an unassigned
opcode. -/
def assemble (h : Word) (payload : List Byte) : Option Instr :=
  match (headerOpcode h).toNat with
  | 0x10 => some .seStart
  | 0x11 => some (.seTimed h[16] (h.extractLsb' 0 16))
  | 0x12 => some .seEnd
  | 0x13 => some (.seSetSpeed (h.extractLsb' 0 6))
  | 0x14 => some .seEmit
  | 0x18 => some (.keEncode h[16] (h.extractLsb' 0 16))
  | 0x20 => some (.deltaEnc (h.extractLsb' 16 4) (h.extractLsb' 0 16))
  | 0x21 => some (.deltaDec (h.extractLsb' 16 4) (h.extractLsb' 0 16))
  | 0x28 => some (.bbAdd (h.extractLsb' 16 5) (h.extractLsb' 0 16))
  | 0x29 => some (.exLoad payload)
  | 0x2A => some (.exTake (h.extractLsb' 0 5))
  | 0x30 => some (.crc14 payload)
  | 0x31 => some (.crc14Check payload)
  | 0x38 => some (.ldpcPack (h.extractLsb' 14 2) (h.extractLsb' 0 14) payload)
  | 0x39 => some (.ldpcEncode payload)
  | 0x40 => some (.grayTo (h.extractLsb' 0 8))
  | 0x41 => some (.grayFrom (h.extractLsb' 0 8))
  | 0x48 => some (.chanEncode h[0] payload)
  | 0x50 => some (.gfskMod h[1] h[0] payload)
  | 0x70 => some (.csrRead (h.extractLsb' 0 8))
  | 0x71 => some (.csrWrite (h.extractLsb' 0 8) (Machine.wordOf payload))
  | _ => none

/-- Why a header is not a legal command (R87, R88). -/
inductive IllegalReason where
  /-- The opcode is not in the map of R86 (R88). -/
  | unassignedOpcode
  /-- A reserved bit of the format is 1 (R87). -/
  | reservedBits
deriving DecidableEq, Repr

/-- What stands at the front of the command stream. -/
inductive Fetched where
  /-- Part of a command: the core waits (R65, R342). -/
  | incomplete
  /-- A whole illegal command, and the stream after it (R87, R88). -/
  | illegal (why : IllegalReason) (rest : List Byte)
  /-- A whole legal command, and the stream after it. -/
  | command (i : Instr) (rest : List Byte)
deriving DecidableEq, Repr

/-- A header with its whole payload: reserved bits must be 0 (R87), the opcode assigned (R88). -/
def decodeWhole (h : Word) (payload rest : List Byte) : Fetched :=
  match formatOf (headerOpcode h).toNat with
  | none => .illegal .unassignedOpcode rest
  | some f =>
    if h &&& reservedMask f ≠ 0 then .illegal .reservedBits rest
    else match assemble h payload with
      | none => .illegal .unassignedOpcode rest
      | some i => .command i rest

/-- The decoder of the command stream (R82, R89): four header bytes, then the payload the header fixes. -/
def decodeCommand (p : Params) : List Byte → Fetched
  | b3 :: b2 :: b1 :: b0 :: body =>
    let h := Machine.ofBe32 b3 b2 b1 b0
    let n := payloadLength p h
    if body.length < n then .incomplete else decodeWhole h (body.take n) (body.drop n)
  | _ => .incomplete

/-! ## The frame and symbol decoders -/

/-- A delta field of `w + 1` bits at the front of a bit string; a code outside `LEGAL(w)` is no delta of a frame
(R136, R138). -/
def takeDelta (w : Nat) (s : Bits) : Option (Int × Bits) :=
  if s.length < w + 1 then none
  else
    let d := Machine.twos (w + 1) (Machine.num (s.take (w + 1)))
    match Machine.legalDelta w with
    | none => none
    | some m => if -(m : Int) ≤ d ∧ d ≤ m then some (d, s.drop (w + 1)) else none

/-- The width of the dah delta field that begins with the given bits: the first bit is the sign (R134). -/
def dahFieldWidth (policy : DahWidthPolicy) (wpm : Nat) (s : Bits) : Nat :=
  Machine.dahWidth policy wpm (if s.headD false then -1 else 0)

/-- The frame whose tag and payload stand at the front of a bit string, and the bits after it (R100, R101). -/
def decodeFrame (policy : DahWidthPolicy) (wpm : Nat) (s : Bits) : Option (Instr × Bits) :=
  if s.length < 4 then none
  else
    let body := s.drop 4
    match Machine.num (s.take 4) with
    | 0 => some (.padding, body)
    | 1 =>
      if body.length < 7 then none
      else some (.wpmPolarity (BitVec.ofNat 6 (Machine.num (body.take 6))) (body.getD 6 false), body.drop 7)
    | 2 => some (.callsignMetadata, body)
    | 3 => some (.callsignHashMetadata, body)
    | 4 => some (.locatorMetadata, body)
    | 5 => some (.powerMetadata, body)
    | 6 => some (.keyingPerfectDit, body)
    | 7 => some (.keyingPerfectDah, body)
    | 8 => some (.keyingPerfectWordgap, body)
    | 9 => some (.keyingEnd, body)
    | 10 => (takeDelta (Machine.ditWidth wpm) body).map fun x => (.keyingDeltaDit x.1, x.2)
    | 11 => (takeDelta (dahFieldWidth policy wpm body) body).map fun x => (.keyingDeltaDah x.1, x.2)
    | 12 => (takeDelta (Machine.wordgapWidth wpm) body).map fun x => (.keyingDeltaWordgap x.1, x.2)
    | 13 =>
      if body.length < 11 then none
      else some (.keyingNaive (BitVec.ofNat 11 (Machine.num (body.take 11))), body.drop 11)
    | 14 => some (.unused, body)
    | 15 => some (.extension, body)
    | _ => none

/-- The row of the opcode table that stands for `Tone(t)` (R104). -/
def toneInstr (t : BitVec 4) : Instr :=
  match t.toNat with
  | 0 => .tone0
  | 1 => .tone1
  | 2 => .tone2
  | 3 => .tone3
  | 4 => .tone4
  | 5 => .tone5
  | 6 => .tone6
  | 7 => .tone7
  | 8 => .tone8
  | 9 => .tone9
  | 10 => .tone10
  | 11 => .tone11
  | 12 => .tone12
  | 13 => .tone13
  | 14 => .tone14
  | _ => .tone15

/-- The row that a symbol byte stands for (R104). -/
def decodeSymbol (b : Byte) : Option Instr :=
  match Machine.symbolOfByte b with
  | some (.tone t) => some (toneInstr t)
  | some .rampUp => some .rampUp
  | some .rampDown => some .rampDown
  | none => none

/-! ## The encoder -/

/-- The three encodings of file 30: bytes of the command stream, bits of a source block, one symbol byte. -/
inductive Code where
  | command (bytes : List Byte)
  | frame (bits : Bits)
  | symbol (byte : Byte)
deriving DecidableEq, Repr

/-- A 16-bit length field (`LEN`, `NSYM`). -/
def lengthField (payload : List Byte) : BitVec 16 := BitVec.ofNat 16 payload.length

/-- The header word of a command (R83, R86); none for a frame or a symbol. -/
def headerOf : Instr → Option Word
  | .seStart => some 0x10000000#32
  | .seTimed up dur => some (0x11#8 ++ 0#7 ++ BitVec.ofBool up ++ dur)
  | .seEnd => some 0x12000000#32
  | .seSetSpeed wpm => some (0x13#8 ++ 0#18 ++ wpm)
  | .seEmit => some 0x14000000#32
  | .keEncode up dur => some (0x18#8 ++ 0#7 ++ BitVec.ofBool up ++ dur)
  | .deltaEnc bits val => some (0x20#8 ++ 0#4 ++ bits ++ val)
  | .deltaDec bits val => some (0x21#8 ++ 0#4 ++ bits ++ val)
  | .bbAdd count value => some (0x28#8 ++ 0#3 ++ count ++ value)
  | .exLoad payload => some (0x29#8 ++ 0#8 ++ lengthField payload)
  | .exTake count => some (0x2A#8 ++ 0#19 ++ count)
  | .crc14 payload => some (0x30#8 ++ 0#8 ++ lengthField payload)
  | .crc14Check payload => some (0x31#8 ++ 0#8 ++ lengthField payload)
  | .ldpcPack spare crc _ => some (0x38#8 ++ 0#8 ++ spare ++ crc)
  | .ldpcEncode _ => some 0x39000000#32
  | .grayTo nib => some (0x40#8 ++ 0#16 ++ nib)
  | .grayFrom nib => some (0x41#8 ++ 0#16 ++ nib)
  | .chanEncode isEnd _ => some (0x48#8 ++ 0#23 ++ BitVec.ofBool isEnd)
  | .gfskMod rd ru tones => some (0x50#8 ++ lengthField tones ++ 0#6 ++ BitVec.ofBool rd ++ BitVec.ofBool ru)
  | .csrRead csr => some (0x70#8 ++ 0#16 ++ csr)
  | .csrWrite csr _ => some (0x71#8 ++ 0#16 ++ csr)
  | .padding | .wpmPolarity _ _ | .callsignMetadata | .callsignHashMetadata | .locatorMetadata | .powerMetadata
  | .keyingPerfectDit | .keyingPerfectDah | .keyingPerfectWordgap | .keyingEnd | .keyingDeltaDit _ | .keyingDeltaDah _
  | .keyingDeltaWordgap _ | .keyingNaive _ | .unused | .extension
  | .tone0 | .tone1 | .tone2 | .tone3 | .tone4 | .tone5 | .tone6 | .tone7 | .tone8 | .tone9 | .tone10 | .tone11
  | .tone12 | .tone13 | .tone14 | .tone15 | .rampUp | .rampDown => none

/-- The payload bytes of a command (R83). -/
def payloadOf : Instr → List Byte
  | .exLoad payload => payload
  | .crc14 payload => payload
  | .crc14Check payload => payload
  | .ldpcPack _ _ block => block
  | .ldpcEncode message => message
  | .chanEncode _ block => block
  | .gfskMod _ _ tones => tones
  | .csrWrite _ value => Machine.be32 value
  | .seStart | .seTimed _ _ | .seEnd | .seSetSpeed _ | .seEmit | .keEncode _ _ | .deltaEnc _ _ | .deltaDec _ _
  | .bbAdd _ _ | .exTake _ | .grayTo _ | .grayFrom _ | .csrRead _
  | .padding | .wpmPolarity _ _ | .callsignMetadata | .callsignHashMetadata | .locatorMetadata | .powerMetadata
  | .keyingPerfectDit | .keyingPerfectDah | .keyingPerfectWordgap | .keyingEnd | .keyingDeltaDit _ | .keyingDeltaDah _
  | .keyingDeltaWordgap _ | .keyingNaive _ | .unused | .extension
  | .tone0 | .tone1 | .tone2 | .tone3 | .tone4 | .tone5 | .tone6 | .tone7 | .tone8 | .tone9 | .tone10 | .tone11
  | .tone12 | .tone13 | .tone14 | .tone15 | .rampUp | .rampDown => []

/-- The bytes of a command on the command stream (R80, R63). -/
def encodeCommand (i : Instr) : Option (List Byte) :=
  (headerOf i).map fun h => Machine.be32 h ++ payloadOf i

/-- The bits of a frame at a WPM (R101): an error where its delta has no code at the width it uses, none for a row
that is no frame. The rows whose payload the spec does not define are the tag alone (log 5). -/
def frameBits (policy : DahWidthPolicy) (wpm : Nat) : Instr → Option (Except Machine.ErrorKind Bits)
  | .padding => some (.ok (Machine.frame 0 []))
  | .wpmPolarity w polarity => some (.ok (Machine.wpmPolarityFrame w.toNat polarity))
  | .callsignMetadata => some (.ok (Machine.frame 2 []))
  | .callsignHashMetadata => some (.ok (Machine.frame 3 []))
  | .locatorMetadata => some (.ok (Machine.frame 4 []))
  | .powerMetadata => some (.ok (Machine.frame 5 []))
  | .keyingPerfectDit => some (.ok (Machine.frame 6 []))
  | .keyingPerfectDah => some (.ok (Machine.frame 7 []))
  | .keyingPerfectWordgap => some (.ok (Machine.frame 8 []))
  | .keyingEnd => some (.ok (Machine.frame 9 []))
  | .keyingDeltaDit delta => some (Machine.deltaDitFrame wpm delta)
  | .keyingDeltaDah delta => some (Machine.deltaDahFrame policy wpm delta)
  | .keyingDeltaWordgap delta => some (Machine.deltaWordgapFrame wpm delta)
  | .keyingNaive duration => some (.ok (Machine.naiveFrame duration.toNat))
  | .unused => some (.ok (Machine.frame 14 []))
  | .extension => some (.ok (Machine.frame 15 []))
  | .seStart | .seTimed _ _ | .seEnd | .seSetSpeed _ | .seEmit | .keEncode _ _ | .deltaEnc _ _ | .deltaDec _ _
  | .bbAdd _ _ | .exLoad _ | .exTake _ | .crc14 _ | .crc14Check _ | .ldpcPack _ _ _ | .ldpcEncode _ | .grayTo _
  | .grayFrom _ | .chanEncode _ _ | .gfskMod _ _ _ | .csrRead _ | .csrWrite _ _
  | .tone0 | .tone1 | .tone2 | .tone3 | .tone4 | .tone5 | .tone6 | .tone7 | .tone8 | .tone9 | .tone10 | .tone11
  | .tone12 | .tone13 | .tone14 | .tone15 | .rampUp | .rampDown => none

/-- The channel symbol a row stands for (R104); none for a row that is no symbol. -/
def symbolOf : Instr → Option Machine.Symbol
  | .tone0 => some (.tone 0)
  | .tone1 => some (.tone 1)
  | .tone2 => some (.tone 2)
  | .tone3 => some (.tone 3)
  | .tone4 => some (.tone 4)
  | .tone5 => some (.tone 5)
  | .tone6 => some (.tone 6)
  | .tone7 => some (.tone 7)
  | .tone8 => some (.tone 8)
  | .tone9 => some (.tone 9)
  | .tone10 => some (.tone 10)
  | .tone11 => some (.tone 11)
  | .tone12 => some (.tone 12)
  | .tone13 => some (.tone 13)
  | .tone14 => some (.tone 14)
  | .tone15 => some (.tone 15)
  | .rampUp => some .rampUp
  | .rampDown => some .rampDown
  | .seStart | .seTimed _ _ | .seEnd | .seSetSpeed _ | .seEmit | .keEncode _ _ | .deltaEnc _ _ | .deltaDec _ _
  | .bbAdd _ _ | .exLoad _ | .exTake _ | .crc14 _ | .crc14Check _ | .ldpcPack _ _ _ | .ldpcEncode _ | .grayTo _
  | .grayFrom _ | .chanEncode _ _ | .gfskMod _ _ _ | .csrRead _ | .csrWrite _ _
  | .padding | .wpmPolarity _ _ | .callsignMetadata | .callsignHashMetadata | .locatorMetadata | .powerMetadata
  | .keyingPerfectDit | .keyingPerfectDah | .keyingPerfectWordgap | .keyingEnd | .keyingDeltaDit _ | .keyingDeltaDah _
  | .keyingDeltaWordgap _ | .keyingNaive _ | .unused | .extension => none

/-- The encoding of a row: a command's bytes, a frame's bits at a WPM, or a symbol's byte. None where a delta has no
code. -/
def encode (p : Params) (wpm : Nat) (i : Instr) : Option Code :=
  match encodeCommand i with
  | some bytes => some (.command bytes)
  | none =>
    match frameBits p.dahPolicy wpm i with
    | some (.ok bits) => some (.frame bits)
    | some (.error _) => none
    | none => (symbolOf i).map fun s => .symbol (Machine.symbolByte s)

/-- The row that an encoding stands for, if it is exactly one row (R86, R101, R104). -/
def decode (p : Params) (wpm : Nat) : Code → Option Instr
  | .command bytes =>
    match decodeCommand p bytes with
    | .command i [] => some i
    | _ => none
  | .frame bits =>
    match decodeFrame p.dahPolicy wpm bits with
    | some (i, []) => some i
    | _ => none
  | .symbol b => decodeSymbol b

/-! ## Words as the opcode table numbers them -/

/-- The bytes of a command whose header is `w` and whose payload is all zeros, as the stream holds them (R63). -/
def commandBytesOf (p : Params) (w : Nat) : List Byte :=
  let h := BitVec.ofNat 32 w
  Machine.be32 h ++ List.replicate (payloadLength p h) 0

/-- The WPM at which `decodeTableWord` reads the widths of delta frames. -/
def tableWpm : Nat := 20

/-- The bits of a frame whose tag is bits 3:0 of `w`, then bits 7:4 of `w`, then zeros (R100). -/
def frameWordBits (w : Nat) : Bits := Machine.bitsN 4 w ++ Machine.bitsN 4 (w / 16) ++ Machine.zeros 24

/-- The frame whose tag is bits 3:0 of a table word. -/
def decodeFrameWord (w : Nat) : Option Instr :=
  (decodeFrame Params.default.dahPolicy tableWpm (frameWordBits w)).map Prod.fst

/-- The row that a word of the opcode table stands for. A FRAME row has 4 bits, a SYMBOL row 8 and a command row 32.
In 8 bits the codes 0x00 to 0x11 are read as symbols (the SYMBOL rows fix all eight bits) and any other as a frame
whose tag is bits 3:0: the rows `Padding` and `Tone0` have the same word there (log 9). -/
def decodeTableWord (nbits w : Nat) : Option Instr :=
  if nbits < 8 then decodeFrameWord w
  else if nbits = 8 then
    match decodeSymbol (BitVec.ofNat 8 w) with
    | some i => some i
    | none => decodeFrameWord w
  else
    match decodeCommand Params.default (commandBytesOf Params.default w) with
    | .command i [] => some i
    | _ => none

end Sys2Proof
end

