-- ==== Sys2Proof/Machine/State.lean ====
section
/-! DEFINITION. The architectural state (R22 to R29, R40), the two streams (R60), the reasons a step can stop, and the
state after reset (R44, R360). -/

namespace Sys2Proof.Machine

/-- Why the machine stops with a fault. TXCORE's own errors are no faults: they end one command with a status. -/
inductive Fault where
  /-- The assertion of `Append` (R153) does not hold: raised by `appendThen`. R153 says that it never fails, and no
  state that satisfies the invariants reaches it. Safe: the model stops where the spec says nothing can be (log 11). -/
  | appendAssertion
deriving DecidableEq, Repr

/-- Why the model refuses. -/
inductive Refusal where
  /-- An instruction that has no meaning yet: raised by `exec`'s arms only. No arm does. Safe. -/
  | notModelled (mnemonic : String)
  /-- A parameter set that R7 forbids "does not describe a TXCORE, and a model must refuse it" (R150): raised by
  `construct`. Safe. -/
  | illegalParameters
deriving DecidableEq, Repr

/-- The state `S` of R22, the configuration it runs under (R7) and the bytes on its two ports (R60). -/
structure State where
  /-- The configuration of R7: the model's own field, never written by a command (R21). -/
  params : Params
  /-- `S.wpm`: `NONE` or 5..60 (R23). -/
  wpm : Option Nat
  /-- `S.polarity`: true is 1, mark (R24). -/
  polarity : Bool
  /-- `S.header_sent` (R25). -/
  headerSent : Bool
  /-- `S.end_pending` (R26). -/
  endPending : Bool
  /-- `S.bb`, the bit block builder (R27). -/
  bb : Bits
  /-- `S.ex`, the bit extractor (R28). -/
  ex : Bits
  /-- `S.sample_rate` in Hz (R29). -/
  sampleRate : Word
  /-- `S.audio_offset`, a binary32 pattern (R29). -/
  audioOffset : Word
  /-- `S.out_capacity` in samples (R29). -/
  outCapacity : Word
  /-- `S.last_status` (R40). -/
  lastStatus : Status
  /-- `S.error_seen` (R40). -/
  errorSeen : Bool
  /-- The command stream: bytes written by the host and not yet consumed by the core (R60). -/
  input : List Byte
  /-- The response stream: bytes written by the core and not yet consumed by the host (R60, R376). -/
  output : List Byte
deriving DecidableEq, Repr

/-- The outcome of a step or of a command. -/
abbrev Result := Host.Outcome State Fault Refusal

/-- Reset under given parameters: every field at the value of R44, both streams empty (R360). -/
def State.resetWith (p : Params) : State where
  params := p
  wpm := none
  polarity := true
  headerSent := false
  endPending := false
  bb := []
  ex := []
  sampleRate := 0
  audioOffset := 0
  outCapacity := 0
  lastStatus := .ok
  errorSeen := false
  input := []
  output := []

/-- The machine right after reset (R44, R360), under `Params.default` (log 1). -/
def State.reset : State := State.resetWith Params.default

end Sys2Proof.Machine
end

