-- ==== Sys2Proof/Machine/Ops.lean ====
section
/-! DEFINITION. The shared operations: completing a command and raising an error (R12, R84, R333, R334), the builder
(R152, R153), block emission (R191, R193), the header (R190) and fetching a command (R82, R342). -/

namespace Sys2Proof.Machine

/-! ## Responses -/

/-- The response word `Rw = status << 28 | RESULT` (R84). -/
def responseWord (status : Status) (result : Nat) : Word := statusCode status ++ BitVec.ofNat 28 result

/-- `Respond(status, result, payload)`: the word, most significant byte first, then the payload (R84). -/
def respond (status : Status) (result : Nat) (payload : List Byte) (s : State) : State :=
  { s with output := s.output ++ (be32 (responseWord status result) ++ payload) }

/-- Status recording (R333). -/
def recordStatus (status : Status) (s : State) : State :=
  { s with lastStatus := status, errorSeen := errorSeenAfter s.errorSeen status }

/-- A command completes: its status is recorded (R333) and its response sent (R84). -/
def finish (status : Status) (result : Nat) (payload : List Byte) (s : State) : State :=
  respond status result payload (recordStatus status s)

/-- A command completes with status `OK`. -/
def done (result : Nat) (payload : List Byte) (s : State) : Result := .next (finish .ok result payload s)

/-- TAKING AN EXCEPTION, the one operation: `raise E` (R12). The command ends with status `E`, `RESULT = 0` and no
payload (R84); only `last_status` and `error_seen` change (R333, R334), so it is applied to the state the command
began in. No control is transferred, and there is no return from an error: the core goes on to the next command in the
stream exactly as after a success (R335), so no operation stands beside this one. -/
def raiseError (e : ErrorKind) (s : State) : Result := .next (finish (.error e) 0 [] s)

/-! ## The builder -/

/-- `BB_REMAINING = BLOCK_BITS - len(S.bb)` (R27). -/
def State.remaining (s : State) : Nat := s.params.blockBits - s.bb.length

/-- `Append(s)` of R153, and what follows it. Its assertion is the machine's only fault. -/
def appendThen (bits : Bits) (s : State) (next : State → Result) : Result :=
  if s.bb.length + bits.length ≤ s.params.blockBits then next { s with bb := s.bb ++ bits }
  else .fault .appendAssertion

/-- The block that `Build()` returns: the builder's bits, padded with zeros to `BLOCK_BITS` (R103, R152). -/
def builtBlock (s : State) : List Byte := bytesOf (s.bb ++ zeros s.remaining)

/-- One emitted SourceEncoding (R103). -/
structure BlockRecord where
  block : List Byte
  isEnd : Bool
deriving DecidableEq, Repr

/-- `Emit()` of R191: the emitted blocks and the state after it. -/
def emit (s : State) : List BlockRecord × State :=
  if s.bb.isEmpty then ([], s)
  else ([⟨builtBlock s, s.endPending⟩], { s with bb := [], headerSent := false, endPending := false })

/-- The flags byte of a block record: bit 0 is `is_end` (R86, R193). -/
def flagsByte (isEnd : Bool) : Byte := if isEnd then 1 else 0

/-- `Records(L)` of R193. -/
def records (out : List BlockRecord) : List Byte := out.flatMap fun r => r.block ++ [flagsByte r.isEnd]

/-- `Header()` of R190 at a WPM: it carries the polarity held at that moment. -/
def headerBits (wpm : Nat) (s : State) : Bits := wpmPolarityFrame wpm s.polarity

/-- `Append(Header())` and `S.header_sent <- 1` (R194). -/
def appendHeaderThen (wpm : Nat) (s : State) (next : State → Result) : Result :=
  appendThen (headerBits wpm s) s fun t => next { t with headerSent := true }

/-- The raw append of R151: DM's `add_N_bits`, which fails with `CAPACITY_EXCEEDED` where the bits do not fit
(R331) and otherwise answers `BB_REMAINING`. -/
def rawAppend (bits : Bits) (s : State) : Result :=
  if s.params.blockBits < s.bb.length + bits.length then raiseError .capacityExceeded s
  else appendThen bits s fun t => done t.remaining [] t

/-! ## The command stream -/

/-- What stands at the front of the command stream (R65, R82). -/
def fetch (s : State) : Fetched := decodeCommand s.params s.input

/-- The command stream after a whole command was consumed (R60, R87). -/
def consume (rest : List Byte) (s : State) : State := { s with input := rest }

end Sys2Proof.Machine
end

