-- ==== Sys2Proof/Machine/BitBlock.lean ====
section
/-! DEFINITION. The builder's and the extractor's commands (41_bit_block.md): BB_ADD, EX_LOAD and EX_TAKE. -/

namespace Sys2Proof.Machine

/-- `BB_ADD` (R151): the `COUNT` least significant bits of `VALUE`, most significant first. -/
def execBbAdd (count : BitVec 5) (value : BitVec 16) (s : State) : Result :=
  if 16 < count.toNat then raiseError .configurationError s
  else rawAppend (bitsN count.toNat value.toNat) s

/-- `EX_LOAD` (R154): `LEN` is the length of the payload. -/
def execExLoad (payload : List Byte) (s : State) : Result :=
  if s.params.blockBytes < payload.length then raiseError .capacityExceeded s
  else done (8 * payload.length) [] { s with ex := bitsOf payload }

/-- `EX_TAKE` (R155): the first bit drained is the most significant bit of the result. -/
def execExTake (count : BitVec 5) (s : State) : Result :=
  if 16 < count.toNat then raiseError .configurationError s
  else if s.ex.length < count.toNat then raiseError .capacityExceeded s
  else done (num (s.ex.take count.toNat)) [] { s with ex := s.ex.drop count.toNat }

end Sys2Proof.Machine
end

