-- ==== Sys2Proof/Machine/Crc.lean ====
section
/-! DEFINITION. CRC-14 (44_crc14.md): the table, the fold, CRC14 and CRC14_CHECK. -/

namespace Sys2Proof.Machine

/-- `POLY`, with `x^14` implied (R220). -/
def crcPoly : BitVec 14 := 0x2757#14

/-- One step of polynomial division (R221). -/
def crcStep (r : BitVec 14) : BitVec 14 := if r[13] then (r <<< 1) ^^^ crcPoly else r <<< 1

/-- A number of steps of polynomial division (R221). -/
def crcSteps : Nat → BitVec 14 → BitVec 14
  | 0, r => r
  | n + 1, r => crcSteps n (crcStep r)

/-- `CRC_TABLE[d]`: eight steps from `d` in bits 13:6 (R221). Whether the table is stored or computed cannot be
observed (R42). -/
def crcTable (d : Byte) : BitVec 14 := crcSteps 8 (d.setWidth 14 <<< 6)

/-- One byte of the fold (R222). -/
def crcFold (r : BitVec 14) (d : Byte) : BitVec 14 := crcTable (d ^^^ (r >>> 6).setWidth 8) ^^^ (r <<< 8)

/-- `crc14(data)` (R222), from remainder 0 (R220). -/
def crc14 (data : List Byte) : BitVec 14 := data.foldl crcFold 0

/-- `F(c)` of R225: the 2-byte field that holds a CRC in its high 14 bits. -/
def crcField (c : BitVec 14) : List Byte := bytesOf (bitsN 14 c.toNat ++ zeros 2)

/-- `CRC14` (R223). -/
def execCrc14 (payload : List Byte) (s : State) : Result := done (crc14 payload).toNat [] s

/-- `CRC14_CHECK` (R224). -/
def execCrc14Check (payload : List Byte) (s : State) : Result := done (correctResult (crc14 payload)) [] s

end Sys2Proof.Machine
end

