-- ==== Sys2Proof/Machine/Gray.lean ====
section
/-! DEFINITION. The Gray mapper (46_gray.md): GRAY_TO and GRAY_FROM. -/

namespace Sys2Proof.Machine

/-- `GRAY_FWD[n] = GRAY_TABLE[n]` (R260). -/
def grayForward (p : Params) (n : BitVec 4) : BitVec 4 := p.grayTable.getD n.toNat 0

/-- `GRAY_INV`, the inverse of the table (R260): the place where the table holds `g`. -/
def grayInverse (p : Params) (g : BitVec 4) : BitVec 4 := BitVec.ofNat 4 (p.grayTable.findIdx fun x => x == g)

/-- `GRAY_TO` (R261). -/
def execGrayTo (nib : BitVec 8) (s : State) : Result :=
  if 15 < nib.toNat then raiseError .encodingRangeError s
  else done (grayForward s.params (nib.setWidth 4)).toNat [] s

/-- `GRAY_FROM` (R262). -/
def execGrayFrom (nib : BitVec 8) (s : State) : Result :=
  if 15 < nib.toNat then raiseError .encodingRangeError s
  else done (grayInverse s.params (nib.setWidth 4)).toNat [] s

end Sys2Proof.Machine
end

