-- ==== Sys2Proof/Machine/Ldpc.lean ====
section
/-! DEFINITION. The LDPC encoder (45_ldpc.md): LDPC_PACK and LDPC_ENCODE. -/

namespace Sys2Proof.Machine

/-- The message vector of `LDPC_PACK`: block, 2 spare bits, 14 CRC bits (R106, R241). -/
def packMessage (block : List Byte) (spare : BitVec 2) (crc : BitVec 14) : Bits :=
  bitsOf block ++ bitsN 2 spare.toNat ++ bitsN 14 crc.toNat

/-- The parity bits of a message: the XOR of the rows of `LDPC_P` that its 1 bits select, which is the sum of R244
taken row by row. -/
def parityOf (p : Params) (m : Bits) : Bits :=
  (m.zip p.ldpcP).foldl (fun acc x => if x.1 then xorBits acc x.2 else acc) (zeros p.parityBits)

/-- The codeword of a message, as bits: the message, then the parity (R107, R240). -/
def codewordBits (p : Params) (m : Bits) : Bits := m ++ parityOf p m

/-- `LDPCEncode(msg)` of R244, as bytes. -/
def ldpcCodeword (p : Params) (message : List Byte) : List Byte := bytesOf (codewordBits p (bitsOf message))

/-- `LDPC_PACK` (R241). It does not check the CRC. -/
def execLdpcPack (spare : BitVec 2) (crc : BitVec 14) (block : List Byte) (s : State) : Result :=
  done s.params.ldpcK (bytesOf (packMessage block spare crc)) s

/-- `LDPC_ENCODE` (R244). -/
def execLdpcEncode (message : List Byte) (s : State) : Result :=
  done s.params.ldpcN (ldpcCodeword s.params message) s

end Sys2Proof.Machine
end

