-- ==== Sys2Proof/Machine/Channel.lean ====
section
/-! DEFINITION. The channel encoder (47_channel_encoder.md): CHAN_ENCODE. -/

namespace Sys2Proof.Machine

/-- The two tones of a codeword byte, high nibble first (R62, R105). -/
def byteTones (p : Params) (b : Byte) : List Symbol :=
  [.tone (grayForward p (b.extractLsb' 4 4)), .tone (grayForward p (b.extractLsb' 0 4))]

/-- The packed message of a block: its CRC-14 and spare bits 00 (R271). -/
def channelMessage (block : List Byte) : List Byte := bytesOf (packMessage block 0 (crc14 block))

/-- The symbols of a ChannelEncoding: RampUp, two tones for each codeword byte, RampDown (R105, R271). There is no
synchronisation preamble (R272). -/
def channelSymbols (p : Params) (block : List Byte) : List Symbol :=
  .rampUp :: (ldpcCodeword p (channelMessage block)).flatMap (byteTones p) ++ [.rampDown]

/-- `CHAN_ENCODE` (R271): `RESULT` is `IS_END << 16 | count`. -/
def execChanEncode (isEnd : Bool) (block : List Byte) (s : State) : Result :=
  let symbols := channelSymbols s.params block
  done (isEnd.toNat * 2 ^ 16 + symbols.length) (symbols.map symbolByte) s

end Sys2Proof.Machine
end

