-- ==== Sys2Proof/Machine/Csr.lean ====
section
/-! DEFINITION. The control and status registers (R30 to R41) and their commands (49_csr_access.md): CSR_READ and
CSR_WRITE. -/

namespace Sys2Proof.Machine

/-- The CSRs of R30, by name. -/
inductive Csr where
  | id | blockBits | ldpcK | ldpcN | speed | seFlags | bbFill | bbRemaining | exRemaining
  | ditMs | dahMs | wordgapMs | ditRange | dahRange | wordgapRange | widths
  | sampleRate | audioOffset | outCapacity | status
deriving DecidableEq, Repr

/-- The CSR of a number; 0x14 to 0xFF are reserved (R30, R41). -/
def csrOfNumber (n : BitVec 8) : Option Csr :=
  match n.toNat with
  | 0x00 => some .id
  | 0x01 => some .blockBits
  | 0x02 => some .ldpcK
  | 0x03 => some .ldpcN
  | 0x04 => some .speed
  | 0x05 => some .seFlags
  | 0x06 => some .bbFill
  | 0x07 => some .bbRemaining
  | 0x08 => some .exRemaining
  | 0x09 => some .ditMs
  | 0x0A => some .dahMs
  | 0x0B => some .wordgapMs
  | 0x0C => some .ditRange
  | 0x0D => some .dahRange
  | 0x0E => some .wordgapRange
  | 0x0F => some .widths
  | 0x10 => some .sampleRate
  | 0x11 => some .audioOffset
  | 0x12 => some .outCapacity
  | 0x13 => some .status
  | _ => none

/-- `SPEED` (R31): `WPM` in bits 5:0, `CONFIGURED` in bit 8. -/
def speedValue : Option Nat → Word
  | none => 0
  | some w => 0#23 ++ 1#1 ++ 0#2 ++ BitVec.ofNat 6 w

/-- `SE_FLAGS` (R32). -/
def seFlagsValue (s : State) : Word :=
  0#29 ++ BitVec.ofBool s.endPending ++ BitVec.ofBool s.headerSent ++ BitVec.ofBool s.polarity

/-- A timing CSR: a function of the WPM, 0 when none is set (R34 to R36). -/
def timingValue (f : Nat → Word) : Option Nat → Word
  | none => 0
  | some w => f w

/-- A `_RANGE` CSR (R35): `NEG` in bits 31:16 and `POS` in bits 15:0, each as s16. -/
def rangeValue (neg pos : Nat → Int) (w : Nat) : Word := field16 (neg w) ++ field16 (pos w)

/-- `WIDTHS` (R36): `WORDGAP`, `DAH_POS`, `DAH_NEG`, `DIT` from the high nibble down. -/
def widthsValue (w : Nat) : Word :=
  0#16 ++ BitVec.ofNat 4 (wordgapWidth w) ++ BitVec.ofNat 4 (dahPosWidth w) ++ BitVec.ofNat 4 (dahNegWidth w)
    ++ BitVec.ofNat 4 (ditWidth w)

/-- `STATUS` (R40): `LAST_STATUS` in bits 3:0, `ERROR_SEEN` in bit 8. -/
def statusValue (s : State) : Word := 0#23 ++ BitVec.ofBool s.errorSeen ++ 0#4 ++ statusCode s.lastStatus

/-- `csr[name]`: a function of the state and the parameters, evaluated when it is read (R320). -/
def csrValue (s : State) : Csr → Word
  | .id => idValue
  | .blockBits => BitVec.ofNat 32 s.params.blockBits
  | .ldpcK => BitVec.ofNat 32 s.params.ldpcK
  | .ldpcN => BitVec.ofNat 32 s.params.ldpcN
  | .speed => speedValue s.wpm
  | .seFlags => seFlagsValue s
  | .bbFill => BitVec.ofNat 32 s.bb.length
  | .bbRemaining => BitVec.ofNat 32 s.remaining
  | .exRemaining => BitVec.ofNat 32 s.ex.length
  | .ditMs => timingValue (fun w => BitVec.ofNat 32 (dit w)) s.wpm
  | .dahMs => timingValue (fun w => BitVec.ofNat 32 (dah w)) s.wpm
  | .wordgapMs => timingValue (fun w => BitVec.ofNat 32 (wordgap w)) s.wpm
  | .ditRange => timingValue (rangeValue negDit posDit) s.wpm
  | .dahRange => timingValue (rangeValue negDah posDah) s.wpm
  | .wordgapRange => timingValue (rangeValue negWordgap posWordgap) s.wpm
  | .widths => timingValue widthsValue s.wpm
  | .sampleRate => s.sampleRate
  | .audioOffset => s.audioOffset
  | .outCapacity => s.outCapacity
  | .status => statusValue s

/-- `Legal(SAMPLE_RATE, v)` (R37, R323). -/
def sampleRateLegal (v : Word) : Bool := decide (50 ≤ v.toNat)

/-- `Legal(AUDIO_OFFSET, v)` (R38, R323): a finite binary32 with sign 0. -/
def audioOffsetLegal (v : Word) : Bool := !v[31] && v.extractLsb' 23 8 != 0xFF

/-- `Legal(OUT_CAPACITY, v)` (R39, R323). -/
def outCapacityLegal (v : Word) : Bool := decide (v.toNat ≤ 2 ^ 28 - 1)

/-- `CSR_READ` (R321). A read that succeeds leaves `STATUS` as it is (R40, R333). -/
def execCsrRead (csr : BitVec 8) (s : State) : Result :=
  match csrOfNumber csr with
  | none => raiseError .illegalCommand s
  | some c => .next (respond .ok 0 (be32 (csrValue s c)) s)

/-- `CSR_WRITE` (R322). -/
def execCsrWrite (csr : BitVec 8) (value : Word) (s : State) : Result :=
  match csrOfNumber csr with
  | some .sampleRate =>
    if sampleRateLegal value then done 0 [] { s with sampleRate := value } else raiseError .configurationError s
  | some .audioOffset =>
    if audioOffsetLegal value then done 0 [] { s with audioOffset := value } else raiseError .configurationError s
  | some .outCapacity =>
    if outCapacityLegal value then done 0 [] { s with outCapacity := value } else raiseError .configurationError s
  | _ => raiseError .illegalCommand s

end Sys2Proof.Machine
end

