-- ==== Sys2Proof/Machine/Delta.lean ====
section
/-! DEFINITION. The delta-arithmetic commands (40_timing_model.md): DELTA_ENC and DELTA_DEC. -/

namespace Sys2Proof.Machine

/-- `DELTA_ENC` (R136); `VAL` is read as s16 (R85). -/
def execDeltaEnc (bits : BitVec 4) (val : BitVec 16) (s : State) : Result :=
  match deltaCode val.toInt bits.toNat with
  | .error e => raiseError e s
  | .ok code => done code [] s

/-- `DELTA_DEC` (R137); the result is the delta as s16 in `RESULT[15:0]`. -/
def execDeltaDec (bits : BitVec 4) (val : BitVec 16) (s : State) : Result :=
  match deltaDecode val.toNat bits.toNat with
  | .error e => raiseError e s
  | .ok d => done (field16 d).toNat [] s

end Sys2Proof.Machine
end

