-- ==== Sys2Proof/Machine/FrameRows.lean ====
section
/-! DEFINITION. The FRAME rows of the opcode table. A frame is data of a source block (R100, R101), and no bytes of the
command stream decode to one (R88). Performed alone, a frame is placed in the builder as DM's raw append places bits:
the effect, the status and the response are those of the `BB_ADD` that writes the same bits, which is how the spec
builds such blocks by hand (R102, R331, 95_test_vectors.md W6). DESIGN CHOICE (log 3). -/

namespace Sys2Proof.Machine

/-- A frame performed alone: an error of its delta code ends it (R136), else its bits are appended (R151). -/
def placeFrame (bits : Except ErrorKind Bits) (s : State) : Result :=
  match bits with
  | .error e => raiseError e s
  | .ok b => rawAppend b s

/-- A frame whose layout needs the timing values: without a WPM they do not exist (R23). -/
def placeTimedFrame (bits : Nat → Except ErrorKind Bits) (s : State) : Result :=
  match s.wpm with
  | none => raiseError .configurationError s
  | some wpm => placeFrame (bits wpm) s

/-- `Padding`, tag 0 (R102). -/
def execPadding (s : State) : Result := placeFrame (.ok (frame 0 [])) s

/-- `CallsignMetadata`, tag 2: the tag alone, since the spec defines no payload (R101; log 5). -/
def execCallsignMetadata (s : State) : Result := placeFrame (.ok (frame 2 [])) s

/-- `CallsignHashMetadata`, tag 3: the tag alone, since the spec defines no payload (R101; log 5). -/
def execCallsignHashMetadata (s : State) : Result := placeFrame (.ok (frame 3 [])) s

/-- `LocatorMetadata`, tag 4: the tag alone, since the spec defines no payload (R101; log 5). -/
def execLocatorMetadata (s : State) : Result := placeFrame (.ok (frame 4 [])) s

/-- `PowerMetadata`, tag 5: the tag alone, since the spec defines no payload (R101; log 5). -/
def execPowerMetadata (s : State) : Result := placeFrame (.ok (frame 5 [])) s

/-- `KeyingPerfectDit`, tag 6 (R101). -/
def execKeyingPerfectDit (s : State) : Result := placeFrame (.ok (frame 6 [])) s

/-- `KeyingPerfectDah`, tag 7 (R101). -/
def execKeyingPerfectDah (s : State) : Result := placeFrame (.ok (frame 7 [])) s

/-- `KeyingPerfectWordgap`, tag 8 (R101). -/
def execKeyingPerfectWordgap (s : State) : Result := placeFrame (.ok (frame 8 [])) s

/-- `KeyingEnd`, tag 9 (R101). -/
def execKeyingEnd (s : State) : Result := placeFrame (.ok (frame 9 [])) s

/-- `Unused`, tag 14: the tag alone, since the spec defines no payload (R101; log 5). -/
def execUnused (s : State) : Result := placeFrame (.ok (frame 14 [])) s

/-- `Extension`, tag 15: the tag alone, since the spec defines no payload (R101; log 5). -/
def execExtension (s : State) : Result := placeFrame (.ok (frame 15 [])) s

/-- `WPMPolarity`, tag 1 (R101). Placed alone it does not touch `S.header_sent`, as `BB_ADD` does not (R151). -/
def execWpmPolarity (wpm : BitVec 6) (polarity : Bool) (s : State) : Result :=
  placeFrame (.ok (wpmPolarityFrame wpm.toNat polarity)) s

/-- `KeyingDeltaDit`, tag 10, at the dit width of `S.wpm` (R101, R133). -/
def execKeyingDeltaDit (delta : Int) (s : State) : Result := placeTimedFrame (fun w => deltaDitFrame w delta) s

/-- `KeyingDeltaDah`, tag 11, at the dah width of `S.wpm` (R101, R134). -/
def execKeyingDeltaDah (delta : Int) (s : State) : Result :=
  placeTimedFrame (fun w => deltaDahFrame s.params.dahPolicy w delta) s

/-- `KeyingDeltaWordgap`, tag 12, at the wordgap width of `S.wpm` (R101, R133). -/
def execKeyingDeltaWordgap (delta : Int) (s : State) : Result :=
  placeTimedFrame (fun w => deltaWordgapFrame w delta) s

/-- `KeyingNaive`, tag 13 (R101). -/
def execKeyingNaive (duration : BitVec 11) (s : State) : Result := placeFrame (.ok (naiveFrame duration.toNat)) s

end Sys2Proof.Machine
end

