-- ==== Sys2Proof/Machine/Fixed.lean ====
section
/-! DEFINITION. Fixed-point arithmetic for the waveform (R13) at any precision: real numbers as multiples of `2^-b`, with
`pi`, the sine, the error function and the constants of R296 as floored sums of their series; and binary32 patterns. The
waveform itself is over the reals (Machine/Reference.lean). Sys2Proof/Laws/FixedReal.lean and ErfReal.lean prove how far
from the real functions these are, and Machine/Gfsk.lean decides with them, exactly, what a real sample rounds to
(log 7). -/

namespace Sys2Proof.Machine

/-- The real number 1 with `b` fraction bits. -/
def fixOne (b : Nat) : Nat := 2 ^ b

/-! ## Constants -/

/-- `1/m - 1/(3 m^3) + 1/(5 m^5) - ...`, the arc tangent of `1/m`, until its terms vanish; from `k = 1` and the term
`1/m`. -/
def atanInverse (m : Nat) : Nat → Nat → Nat → Int
  | 0, _, _ => 0
  | fuel + 1, k, term => if term = 0 then 0 else ((term / k : Nat) : Int) - atanInverse m fuel (k + 2) (term / (m * m))

/-- `pi`, by Machin's formula `16 atan(1/5) - 4 atan(1/239)`. -/
def fixPi (b : Nat) : Nat :=
  (16 * atanInverse 5 (b + 1) 1 (fixOne b / 5) - 4 * atanInverse 239 (b + 1) 1 (fixOne b / 239)).toNat

/-- `1 + 1/(3 * 9) + 1/(5 * 81) + ...`, until its terms vanish; from `k = 1` and the term 1. -/
def ln2Series : Nat → Nat → Nat → Nat
  | 0, _, _ => 0
  | fuel + 1, k, term => if term = 0 then 0 else term / k + ln2Series fuel (k + 2) (term / 9)

/-- `ln 2`, two thirds of that series. -/
def fixLn2 (b : Nat) : Nat := 2 * ln2Series (b + 1) 1 (fixOne b) / 3

/-- The floor of a square root, bit by bit from bit `i - 1` down, above what `r` holds already. -/
def squareRoot (n : Nat) : Nat → Nat → Nat
  | 0, r => r
  | i + 1, r => if (r + 2 ^ i) ^ 2 ≤ n then squareRoot n i (r + 2 ^ i) else squareRoot n i r

/-- `K * BT` of R296, with `K = pi * sqrt(2 / ln 2)` and `BT = 2.0`: the square root of `8 pi^2 / ln 2`. -/
def fixGauss (b : Nat) : Nat := squareRoot (8 * fixPi b ^ 2 * fixOne b / fixLn2 b) (b + 4) 0

/-- `2 / sqrt(pi)`, the factor of the error function: the square root of `4 / pi`. -/
def fixErfScale (b : Nat) : Nat := squareRoot (4 * fixOne b ^ 3 / fixPi b) (b + 1) 0

/-! ## Functions -/

/-- The alternating series `term - term * X^2 / ((k+1)(k+2)) + ...`, until its terms vanish: from `k = 0` and the term 1
the cosine of `X`, from `k = 1` and the term `X` the sine. `x` is `X` in fixed point. -/
def trigSeries (b x : Nat) : Nat → Nat → Nat → Int
  | 0, _, _ => 0
  | fuel + 1, k, term =>
    if term = 0 then 0
    else (term : Int)
      - trigSeries b x fuel (k + 2) (term * (x * x) / (fixOne b * fixOne b * ((k + 1) * (k + 2))))

/-- `sin x` for `0 <= x <= 2`. -/
def fixSin (b x : Nat) : Int := trigSeries b x (b + 4) 1 x

/-- `cos x` for `0 <= x <= 2`. -/
def fixCos (b x : Nat) : Int := trigSeries b x (b + 4) 0 (fixOne b)

/-- The sine of a phase given in turns, `sin(2 * pi * u)`, taken mod 1 turn (R13, R298). The quadrant is exact, so the
sine is exactly 0, 1 or -1 at quarter turns. -/
def sinTurn (b : Nat) (u : Int) : Int :=
  let v := (u % fixOne b).toNat
  let quarter := fixOne b / 4
  let x := 2 * fixPi b * (v % quarter) / fixOne b
  match v / quarter with
  | 0 => fixSin b x
  | 1 => fixCos b x
  | 2 => -fixSin b x
  | _ => -fixCos b x

/-- The cosine of a phase given in turns. -/
def cosTurn (b : Nat) (u : Int) : Int := sinTurn b (u + fixOne b / 4)

/-- The series `X / 1 - X^3 / (1! 3) + X^5 / (2! 5) - ...`, until its terms vanish. `x` is `X` in fixed point. -/
def erfSeries (b x : Nat) : Nat → Nat → Nat → Int
  | 0, _, _ => 0
  | fuel + 1, n, term =>
    if term = 0 then 0
    else ((term / (2 * n + 1) : Nat) : Int)
      - erfSeries b x fuel (n + 1) (term * (x * x) / (fixOne b * fixOne b * (n + 1)))

/-- `erf x` for `0 <= x <= 22`, which is where the pulse of R296 needs it. -/
def fixErf (b x : Nat) : Int := erfSeries b x (b + 10000) 0 x * fixErfScale b / fixOne b

/-- `erf x` for `x` from -22 to 22: the error function is odd. -/
def fixErfSigned (b : Nat) (x : Int) : Int := if x < 0 then -fixErf b x.natAbs else fixErf b x.natAbs

/-! ## binary32 -/

/-- Binary32 numbers and `GFSK_TOL` are counted in units of `2^-512`: every finite binary32, and the midpoint of any two,
is a whole number of them. That `GFSK_TOL` is one too is a DESIGN CHOICE (log 14): R7 and R300 leave it OPEN. -/
def fixBits : Nat := 512

/-- The magnitude of a finite binary32 pattern in units of `2^-149`, its smallest positive number (R108). -/
def binary32Units (w : Word) : Nat :=
  let e := (w.extractLsb' 23 8).toNat
  let m := (w.extractLsb' 0 23).toNat
  if e = 0 then m else (2 ^ 23 + m) * 2 ^ (e - 1)

/-- A binary32 pattern is a finite number (R38). -/
def binary32Finite (w : Word) : Bool := w.extractLsb' 23 8 != 0xFF

/-- The number that a finite binary32 pattern encodes, in units of `2^-512`, exactly. -/
def binary32Fix (w : Word) : Int :=
  let m : Int := (binary32Units w * 2 ^ (fixBits - 149) : Nat)
  if w[31] then -m else m

/-- `m / 2^s` rounded to the nearest integer, ties to even (R13). -/
def roundEven (m s : Nat) : Nat :=
  let q := m / 2 ^ s
  let r := 2 * (m % 2 ^ s)
  if 2 ^ s < r ∨ (r = 2 ^ s ∧ q % 2 = 1) then q + 1 else q

/-- `f32` of R13 for a magnitude in units of `2^-512` that is at most 2: the exponent and fraction bits of the nearest
binary32. The exponent of the last place is that of the leading bit less 23, but not below that of a subnormal. -/
def roundMagnitude (m : Nat) : Nat :=
  if m = 0 then 0
  else
    let top := max m.log2 (fixBits - 126)
    (top - (fixBits - 126)) * 2 ^ 23 + roundEven m (top - 23)

/-- `f32(x)` of R13 for a number in units of `2^-512`: the nearest binary32, ties to even. -/
def roundBinary32 (y : Int) : Word :=
  BitVec.ofBool (decide (y < 0)) ++ BitVec.ofNat 31 (roundMagnitude y.natAbs)

end Sys2Proof.Machine
end

