-- ==== Sys2Proof/Machine/Gfsk.lean ====
section
/-! DEFINITION. The GFSK modulator (48_gfsk.md): sample counts, pulse, phase, envelope, samples and GFSK_MOD. Phases
are in turns (units of `2 * pi`), real numbers in the fixed point of Machine/Fixed.lean with `b` fraction bits. -/

namespace Sys2Proof.Machine

/-! ## Counts (R292, R293) -/

/-- `sps` of R292: samples per symbol. -/
def samplesPerSymbol (fs : Nat) : Nat := 4 * fs / 25

/-- `rps` of R292: samples per ramp. -/
def samplesPerRamp (fs : Nat) : Nat := fs / 50

/-- `total` of R293. -/
def totalSamples (fs n : Nat) (rd ru : Bool) : Nat :=
  if n = 0 then 0
  else n * samplesPerSymbol fs + (if ru then samplesPerRamp fs else 0) + (if rd then samplesPerRamp fs else 0)

/-- The inputs of a modulation that the state and the command give (R290). -/
def gfskRequest (rd ru : Bool) (tones : List Byte) (s : State) : GfskRequest where
  sampleRate := s.sampleRate
  audioOffset := s.audioOffset
  outCapacity := s.outCapacity
  tones := tones
  rampDown := rd
  rampUp := ru

/-- `fs` of R290. -/
def requestRate (r : GfskRequest) : Nat := r.sampleRate.toNat

/-- `sps` of a request. -/
def requestSps (r : GfskRequest) : Nat := samplesPerSymbol (requestRate r)

/-- `total` of a request. -/
def requestTotal (r : GfskRequest) : Nat := totalSamples (requestRate r) r.tones.length r.rampDown r.rampUp

/-! ## The waveform (R296 to R299) -/

/-- `erf(K * BT * d / sps)`, for a distance of `d` samples. -/
def gaussEdge (b sps : Nat) (d : Int) : Int := fixErfSigned b (fixGauss b * d / sps)

/-- The frequency pulse `P(j)` of R296: with `t = j/sps - 3/2`, `t + 1/2` is `(j - sps)/sps` and `t - 1/2` is
`(j - 2 sps)/sps`. -/
def pulse (b sps : Nat) (j : Int) : Int :=
  if 0 ≤ j ∧ j < 3 * sps then (gaussEdge b sps (j - sps) - gaussEdge b sps (j - 2 * sps)) / 2 else 0

/-- The shaped symbols `Sy` of R297: pairs of a slot index and a tone, with a dummy symbol for each ramp. -/
def shapedSymbols (r : GfskRequest) : List (Int × Nat) :=
  let tones := r.tones.map BitVec.toNat
  (if r.rampUp then [(-1, tones.headD 0)] else [])
    ++ (tones.zipIdx.map fun x => ((x.2 : Int), x.1))
    ++ (if r.rampDown then [((tones.length : Int), tones.getLastD 0)] else [])

/-- `s0` of R297: where the first slot starts. -/
def firstSlot (r : GfskRequest) : Nat := if r.rampUp then samplesPerRamp (requestRate r) else 0

/-- The sum of R297 for sample `k`: each shaped symbol's tone times its pulse. -/
def toneSum (b : Nat) (r : GfskRequest) (k : Nat) : Int :=
  let sps := requestSps r
  ((shapedSymbols r).map fun x => (x.2 : Int) * pulse b sps ((k : Int) - firstSlot r - x.1 * sps + sps)).sum

/-- The sum of R297's tone terms over the samples before `k`, which the phase at sample `k` depends on (R298). -/
def toneSumBefore (b : Nat) (r : GfskRequest) (k : Nat) : Int := ((List.range k).map (toneSum b r)).sum

/-- The phase that the audio offset has made by sample `k`, in turns mod 1: `k * f0 / fs`, with `f0` in units of
`2^-149`, reduced exactly before it is rounded to fixed point (R297, R298). -/
def offsetTurns (b : Nat) (r : GfskRequest) (k : Nat) : Int :=
  let unit := requestRate r * 2 ^ 149
  ((k * binary32Units r.audioOffset % unit * fixOne b / unit : Nat) : Int)

/-- `phi(k)` of R298 in turns, where `acc` is the sum of `toneSum` over the samples before `k`: the increment of R297
is `f0/fs + HMOD/sps * toneSum` turns. -/
def phaseTurns (b : Nat) (r : GfskRequest) (k : Nat) (acc : Int) : Int :=
  offsetTurns b r k + hmod * acc / requestSps r

/-- `env(i)` of R299: `(1 - cos(pi * i / nr)) / 2`. -/
def envelope (b nr i : Nat) : Int := (fixOne b - cosTurn b ((fixOne b * i / (2 * nr) : Nat) : Int)) / 2

/-- `nr` of R299. -/
def envelopeLength (r : GfskRequest) : Nat := requestSps r / 8

/-- The envelope applied at the start of the output (R299). -/
def rampUpEnvelope (b : Nat) (r : GfskRequest) (k : Nat) (y : Int) : Int :=
  if r.rampUp ∧ k < envelopeLength r then y * envelope b (envelopeLength r) k / fixOne b else y

/-- The envelope applied at the end of the output (R299). -/
def rampDownEnvelope (b : Nat) (r : GfskRequest) (k : Nat) (y : Int) : Int :=
  if r.rampDown ∧ requestTotal r - 1 - k < envelopeLength r then
    y * envelope b (envelopeLength r) (requestTotal r - 1 - k) / fixOne b
  else y

/-- The sample `y(k)` of R298 and R299 with `b` fraction bits, where `acc` is `toneSumBefore b r k`. -/
def approximateSample (b : Nat) (r : GfskRequest) (k : Nat) (acc : Int) : Int :=
  rampDownEnvelope b r k (rampUpEnvelope b r k (sinTurn b (phaseTurns b r k acc)))

/-! ## Comparing a real sample -/

/-- The fraction bits of the `n`-th approximation of a sample. -/
def precision (n : Nat) : Nat := 1536 * (n + 1)

/-- In units of `2^-(precision n)`: the `n`-th approximation is less than this from the real `y(k)`, by
`approximateSample_error` of Sys2Proof/Laws/WaveReal.lean. -/
def radius (n : Nat) : Nat := 2 ^ (1024 * (n + 1))

/-- How `y(k)` compares with the number `c` (in units of `2^-512`), if its `n`-th approximation `y` can tell. -/
def compareApproximation (n : Nat) (y c : Int) : Option Ordering :=
  let target := c * 2 ^ (precision n - fixBits)
  if y + radius n ≤ target then some .lt else if target ≤ y - radius n then some .gt else none

/-- How `y(k)` compares with `c`, from the first approximation, from the `n`-th on, that can tell. There is none if
`y(k)` is exactly `c`, and the answer is then `none`. -/
def searchComparison (r : GfskRequest) (k : Nat) (c : Int) (n : Nat) : Option Ordering :=
  match compareApproximation n (approximateSample (precision n) r k (toneSumBefore (precision n) r k)) c with
  | some o => some o
  | none => searchComparison r k c (n + 1)
partial_fixpoint

/-- How the real `y(k)` compares with the number `c` (in units of `2^-512`), exactly. `y` is its approximation number 0. -/
def compareSample (r : GfskRequest) (k : Nat) (y c : Int) : Ordering :=
  match compareApproximation 0 y c with
  | some o => o
  | none => (searchComparison r k c 1).getD .eq

/-! ## The output (R300) -/

/-- `f32(y(k))` of R13. The two binary32 numbers that the ends of an interval around `y(k)` round to are the same or
neighbours. If they are neighbours, their midpoint decides, and on it the even last place. -/
def roundSample (r : GfskRequest) (k : Nat) (y : Int) : Word :=
  let m := y / 2 ^ (precision 0 - fixBits)
  let low := roundBinary32 (m - 2)
  let high := roundBinary32 (m + 2)
  if binary32Fix low = binary32Fix high then low
  else
    match compareSample r k y ((binary32Fix low + binary32Fix high) / 2) with
    | .lt => low
    | .gt => high
    | .eq => if low[0] then high else low

/-- A binary32 pattern is a finite number within `GFSK_TOL` of `y(k)` (R300), the tolerance in units of `2^-512`
(DESIGN CHOICE, log 14). -/
def withinTolerance (tol : Nat) (r : GfskRequest) (k : Nat) (y : Int) (w : Word) : Bool :=
  binary32Finite w && compareSample r k y (binary32Fix w - tol) != .lt && compareSample r k y (binary32Fix w + tol) != .gt

/-- A zero sample has a sign that is not specified (R300): it takes the sign of the free value. -/
def withFreeZeroSign (choice w : Word) : Word :=
  if w.extractLsb' 0 31 = 0 then choice.extractLsb' 31 1 ++ 0#31 else w

/-- A sample of R300, for a choice of the implementation. Where `GFSK_TOL` is not 0, any binary32 within it of `y(k)`
conforms: the choice if it does (log 2). Otherwise the bit-exact value `f32(y(k))`, also where `GFSK_TOL` is so small that no
binary32 conforms (DESIGN CHOICE, log 2). -/
def conformingSample (tol : Nat) (choice : Word) (r : GfskRequest) (k : Nat) (y : Int) : Word :=
  if 0 < tol ∧ withinTolerance tol r k y choice then choice else withFreeZeroSign choice (roundSample r k y)

/-- `out(k)` of R300: the choice is the FREE VALUE `Config.gfskChoice`. -/
def outputSample (tol : Nat) (r : GfskRequest) (k : Nat) (y : Int) : Word :=
  conformingSample tol (Config.gfskChoice r k) r k y

/-- The samples from `k` on, where `acc` is the sum of `toneSum` before `k`. -/
def samplesFrom (tol : Nat) (r : GfskRequest) : Nat → Nat → Int → List Word
  | 0, _, _ => []
  | n + 1, k, acc =>
    outputSample tol r k (approximateSample (precision 0) r k acc)
      :: samplesFrom tol r n (k + 1) (acc + toneSum (precision 0) r k)

/-- `out(0), ..., out(total-1)` (R295). -/
def waveform (tol : Nat) (r : GfskRequest) : List Word := samplesFrom tol r (requestTotal r) 0 0

/-! ## The command -/

/-- A modulation: the checks of R291 in their order, then the samples, each as 4 bytes (R295). With no tone there is
nothing to modulate, and the answer is 0 samples whatever the settings are (R365, D40; DEDUCED, log 10). -/
def modulate (rd ru : Bool) (tones : List Byte) (s : State) : Result :=
  let r := gfskRequest rd ru tones s
  if tones.isEmpty then done 0 [] s
  else if requestRate r < 50 then raiseError .configurationError s
  else if tones.any fun t => 15 < t.toNat then raiseError .encodingRangeError s
  else if s.outCapacity.toNat < requestTotal r then raiseError .capacityExceeded s
  else done (requestTotal r) ((waveform s.params.gfskTol r).flatMap be32) s

/-- `GFSK_MOD` (R295). -/
def execGfskMod (rd ru : Bool) (tones : List Byte) (s : State) : Result := modulate rd ru tones s

end Sys2Proof.Machine
end

