-- ==== Sys2Proof/Machine/KeyingEncoder.lean ====
section
/-! DEFINITION. The keying encoder's command (42_keying_encoder.md): KE_ENCODE. -/

namespace Sys2Proof.Machine

/-- `KE_ENCODE` (R175). `UP` is ignored (R170). A frame that does not fit is no error: `FIT = 0` and no state
change. -/
def execKeEncode (_up : Bool) (dur : BitVec 16) (s : State) : Result :=
  match s.wpm with
  | none => raiseError .configurationError s
  | some wpm =>
    match classify s.params.dahPolicy wpm dur.toNat with
    | .error e => raiseError e s
    | .ok bits =>
      if s.remaining < bits.length then done (fitResult false) [] s
      else appendThen bits s fun t => done (fitResult true) [] t

end Sys2Proof.Machine
end

