-- ==== Sys2Proof/Machine/SourceEncoder.lean ====
section
/-! DEFINITION. The source encoder's commands (43_source_encoder.md): SE_START, SE_TIMED, SE_END, SE_SET_SPEED and
SE_EMIT. -/

namespace Sys2Proof.Machine

/-- A command that emitted blocks answers their number and their records (R193). -/
def doneEmitting (out : List BlockRecord) (s : State) : Result := done out.length (records out) s

/-- `SE_START` (R192). -/
def execSeStart (s : State) : Result := done 0 [] { s with polarity := true }

/-- The first half of `SE_TIMED` (R194): send the header if it has not been sent, flushing first if it does not
fit. -/
def ensureHeader (wpm : Nat) (s : State) (next : List BlockRecord → State → Result) : Result :=
  if s.headerSent then next [] s
  else
    let flushed := if s.remaining < 11 then emit s else ([], s)
    appendHeaderThen wpm flushed.2 (next flushed.1)

/-- The second half of `SE_TIMED` (R194): if the frame does not fit, flush and send the header again. -/
def ensureRoom (wpm : Nat) (bits : Bits) (out : List BlockRecord) (s : State)
    (next : List BlockRecord → State → Result) : Result :=
  if s.remaining < bits.length then
    appendHeaderThen wpm (emit s).2 (next (out ++ (emit s).1))
  else next out s

/-- `SE_TIMED` (R194). `UP` is ignored (R170). Both errors are raised before any state change. -/
def execSeTimed (_up : Bool) (dur : BitVec 16) (s : State) : Result :=
  match s.wpm with
  | none => raiseError .configurationError s
  | some wpm =>
    match classify s.params.dahPolicy wpm dur.toNat with
    | .error e => raiseError e s
    | .ok bits =>
      ensureHeader wpm s fun out1 s1 =>
        ensureRoom wpm bits out1 s1 fun out2 s2 =>
          appendThen bits s2 fun s3 => doneEmitting out2 { s3 with polarity := !s3.polarity }

/-- `SE_END` (R196): flush first if fewer than 4 bits are free, append `KeyingEnd`, mark the next emitted block. -/
def execSeEnd (s : State) : Result :=
  let flushed := if s.remaining < 4 then emit s else ([], s)
  appendThen (frame 9 []) flushed.2 fun t => doneEmitting flushed.1 { t with endPending := true }

/-- `SE_SET_SPEED` (R198). -/
def execSeSetSpeed (wpm : BitVec 6) (s : State) : Result :=
  if wpm.toNat < 5 ∨ 60 < wpm.toNat then raiseError .configurationError s
  else done 0 [] { s with wpm := some wpm.toNat, headerSent := false }

/-- `SE_EMIT` (R200). -/
def execSeEmit (s : State) : Result := doneEmitting (emit s).1 (emit s).2

end Sys2Proof.Machine
end

