-- ==== Sys2Proof/Machine/SymbolRows.lean ====
section
/-! DEFINITION. The SYMBOL rows of the opcode table. A channel symbol is data of a ChannelEncoding (R104, R105), and no
bytes of the command stream decode to one (R88). Performed alone, a symbol is played by the modulator as R302 plays the
symbols of a ChannelEncoding: `Tone(t)` is the tone byte `t` of a `GFSK_MOD` of one symbol, `RampUp` and `RampDown` are
its flags `RU` and `RD` with no tone. DESIGN CHOICE (log 4). -/

namespace Sys2Proof.Machine

/-- A symbol performed alone (R302). -/
def playSymbol (x : Symbol) (s : State) : Result :=
  match x with
  | .tone t => modulate false false [symbolByte (.tone t)] s
  | .rampUp => modulate false true [] s
  | .rampDown => modulate true false [] s

/-- `Tone(0)` (R104). -/
def execTone0 (s : State) : Result := playSymbol (.tone 0) s

/-- `Tone(1)` (R104). -/
def execTone1 (s : State) : Result := playSymbol (.tone 1) s

/-- `Tone(2)` (R104). -/
def execTone2 (s : State) : Result := playSymbol (.tone 2) s

/-- `Tone(3)` (R104). -/
def execTone3 (s : State) : Result := playSymbol (.tone 3) s

/-- `Tone(4)` (R104). -/
def execTone4 (s : State) : Result := playSymbol (.tone 4) s

/-- `Tone(5)` (R104). -/
def execTone5 (s : State) : Result := playSymbol (.tone 5) s

/-- `Tone(6)` (R104). -/
def execTone6 (s : State) : Result := playSymbol (.tone 6) s

/-- `Tone(7)` (R104). -/
def execTone7 (s : State) : Result := playSymbol (.tone 7) s

/-- `Tone(8)` (R104). -/
def execTone8 (s : State) : Result := playSymbol (.tone 8) s

/-- `Tone(9)` (R104). -/
def execTone9 (s : State) : Result := playSymbol (.tone 9) s

/-- `Tone(10)` (R104). -/
def execTone10 (s : State) : Result := playSymbol (.tone 10) s

/-- `Tone(11)` (R104). -/
def execTone11 (s : State) : Result := playSymbol (.tone 11) s

/-- `Tone(12)` (R104). -/
def execTone12 (s : State) : Result := playSymbol (.tone 12) s

/-- `Tone(13)` (R104). -/
def execTone13 (s : State) : Result := playSymbol (.tone 13) s

/-- `Tone(14)` (R104). -/
def execTone14 (s : State) : Result := playSymbol (.tone 14) s

/-- `Tone(15)` (R104). -/
def execTone15 (s : State) : Result := playSymbol (.tone 15) s

/-- `RampUp` (R104): with no tone there is nothing to ramp, so no sample is made (R293). -/
def execRampUp (s : State) : Result := playSymbol .rampUp s

/-- `RampDown` (R104): with no tone there is nothing to ramp, so no sample is made (R293). -/
def execRampDown (s : State) : Result := playSymbol .rampDown s

end Sys2Proof.Machine
end

