-- ==== Sys2Proof/Machine/Dispatch.lean ====
section
/-! DEFINITION. The dispatch: one arm per instruction. -/

namespace Sys2Proof.Machine

def exec (i : Instr) (s : State) : Host.Outcome State Fault Refusal :=
  match i with
  -- commands (R86)
  | .seStart => Sys2Proof.Machine.execSeStart s
  | .seTimed up dur => Sys2Proof.Machine.execSeTimed up dur s
  | .seEnd => Sys2Proof.Machine.execSeEnd s
  | .seSetSpeed wpm => Sys2Proof.Machine.execSeSetSpeed wpm s
  | .seEmit => Sys2Proof.Machine.execSeEmit s
  | .keEncode up dur => Sys2Proof.Machine.execKeEncode up dur s
  | .deltaEnc bits val => Sys2Proof.Machine.execDeltaEnc bits val s
  | .deltaDec bits val => Sys2Proof.Machine.execDeltaDec bits val s
  | .bbAdd count value => Sys2Proof.Machine.execBbAdd count value s
  | .exLoad payload => Sys2Proof.Machine.execExLoad payload s
  | .exTake count => Sys2Proof.Machine.execExTake count s
  | .crc14 payload => Sys2Proof.Machine.execCrc14 payload s
  | .crc14Check payload => Sys2Proof.Machine.execCrc14Check payload s
  | .ldpcPack spare crc block => Sys2Proof.Machine.execLdpcPack spare crc block s
  | .ldpcEncode message => Sys2Proof.Machine.execLdpcEncode message s
  | .grayTo nib => Sys2Proof.Machine.execGrayTo nib s
  | .grayFrom nib => Sys2Proof.Machine.execGrayFrom nib s
  | .chanEncode isEnd block => Sys2Proof.Machine.execChanEncode isEnd block s
  | .gfskMod rd ru tones => Sys2Proof.Machine.execGfskMod rd ru tones s
  | .csrRead csr => Sys2Proof.Machine.execCsrRead csr s
  | .csrWrite csr value => Sys2Proof.Machine.execCsrWrite csr value s
  -- frames (R101)
  | .padding => Sys2Proof.Machine.execPadding s
  | .wpmPolarity wpm polarity => Sys2Proof.Machine.execWpmPolarity wpm polarity s
  | .callsignMetadata => Sys2Proof.Machine.execCallsignMetadata s
  | .callsignHashMetadata => Sys2Proof.Machine.execCallsignHashMetadata s
  | .locatorMetadata => Sys2Proof.Machine.execLocatorMetadata s
  | .powerMetadata => Sys2Proof.Machine.execPowerMetadata s
  | .keyingPerfectDit => Sys2Proof.Machine.execKeyingPerfectDit s
  | .keyingPerfectDah => Sys2Proof.Machine.execKeyingPerfectDah s
  | .keyingPerfectWordgap => Sys2Proof.Machine.execKeyingPerfectWordgap s
  | .keyingEnd => Sys2Proof.Machine.execKeyingEnd s
  | .keyingDeltaDit delta => Sys2Proof.Machine.execKeyingDeltaDit delta s
  | .keyingDeltaDah delta => Sys2Proof.Machine.execKeyingDeltaDah delta s
  | .keyingDeltaWordgap delta => Sys2Proof.Machine.execKeyingDeltaWordgap delta s
  | .keyingNaive duration => Sys2Proof.Machine.execKeyingNaive duration s
  | .unused => Sys2Proof.Machine.execUnused s
  | .extension => Sys2Proof.Machine.execExtension s
  -- channel symbols (R104)
  | .tone0 => Sys2Proof.Machine.execTone0 s
  | .tone1 => Sys2Proof.Machine.execTone1 s
  | .tone2 => Sys2Proof.Machine.execTone2 s
  | .tone3 => Sys2Proof.Machine.execTone3 s
  | .tone4 => Sys2Proof.Machine.execTone4 s
  | .tone5 => Sys2Proof.Machine.execTone5 s
  | .tone6 => Sys2Proof.Machine.execTone6 s
  | .tone7 => Sys2Proof.Machine.execTone7 s
  | .tone8 => Sys2Proof.Machine.execTone8 s
  | .tone9 => Sys2Proof.Machine.execTone9 s
  | .tone10 => Sys2Proof.Machine.execTone10 s
  | .tone11 => Sys2Proof.Machine.execTone11 s
  | .tone12 => Sys2Proof.Machine.execTone12 s
  | .tone13 => Sys2Proof.Machine.execTone13 s
  | .tone14 => Sys2Proof.Machine.execTone14 s
  | .tone15 => Sys2Proof.Machine.execTone15 s
  | .rampUp => Sys2Proof.Machine.execRampUp s
  | .rampDown => Sys2Proof.Machine.execRampDown s

end Sys2Proof.Machine
end

