-- ==== Sys2Proof/WellFormed.lean ====
section
/-! DEFINITION. Which parameter sets describe a TXCORE (R7, R150) and which instructions an encoding can spell
(R83, R101). -/

namespace Sys2Proof

/-- `BLOCK_BITS` is a multiple of 8 in 32..65528 (R7, R150). -/
def Params.blockBitsLegal (p : Params) : Bool :=
  p.blockBits % 8 == 0 && decide (32 ≤ p.blockBits) && decide (p.blockBits ≤ 65528)

/-- `LDPC_N` is a multiple of 8, above `LDPC_K` and at most 262128 (R7). -/
def Params.ldpcNLegal (p : Params) : Bool :=
  p.ldpcN % 8 == 0 && decide (p.ldpcK < p.ldpcN) && decide (p.ldpcN ≤ 262128)

/-- A list of rows is a matrix of the given size. -/
def isMatrix (rows columns : Nat) (m : List Bits) : Bool :=
  m.length == rows && m.all fun r => r.length == columns

/-- `LDPC_P` is `LDPC_K` by `LDPC_N - LDPC_K`, `LDPC_H` is `LDPC_N - LDPC_K` by `LDPC_N` (R7, R242, R243). -/
def Params.matricesLegal (p : Params) : Bool :=
  isMatrix p.ldpcK p.parityBits p.ldpcP && isMatrix p.parityBits p.ldpcN p.ldpcH

/-- The number of 1 bits of a nibble. -/
def nibbleWeight (b : BitVec 4) : Nat :=
  b[0].toNat + b[1].toNat + b[2].toNat + b[3].toNat

/-- Successive entries differ in exactly one bit (R260). -/
def grayNeighbours : List (BitVec 4) → Bool
  | a :: b :: t => nibbleWeight (a ^^^ b) == 1 && grayNeighbours (b :: t)
  | _ => true

/-- `GRAY_TABLE` is a bijection on 0..15 whose successive entries differ in exactly one bit (R7, R260). -/
def Params.grayLegal (p : Params) : Bool :=
  p.grayTable.length == 16 && decide p.grayTable.Nodup && grayNeighbours p.grayTable

/-- The sizes and the table that R7, R150 and R260 ask for. -/
def Params.sizesLegal (p : Params) : Bool :=
  p.blockBitsLegal && p.ldpcNLegal && p.matricesLegal && p.grayLegal

/-- The scalar product of two bit strings over GF(2) (R240). -/
def gf2Dot (a b : Bits) : Bool := (List.zipWith (· && ·) a b).foldl xor false

/-- The rows of the generator `G = [ I_K | LDPC_P ]` (R242). -/
def Params.generatorRows (p : Params) : List Bits :=
  p.ldpcP.mapIdx fun i row => (Machine.zeros i ++ true :: Machine.zeros (p.ldpcK - 1 - i)) ++ row

/-- `G · LDPC_H^T = 0` (R243): every row of the parity-check matrix checks every row of the generator. -/
def Params.parityChecks (p : Params) : Bool :=
  p.ldpcH.all fun h => p.generatorRows.all fun g => !gf2Dot h g

/-- The parameter check made when a model is built: R7 and R150, and that `LDPC_H` checks `LDPC_P`, the constraint of R7
and R243 (I12). R243 lets a model use `LDPC_H` to check `LDPC_P`; that this one refuses a pair that fails is a DESIGN
CHOICE (log 13). -/
def Params.legal (p : Params) : Bool := p.sizesLegal && p.parityChecks

/-- A delta that the frame layout can spell at a width: it is legal for that width (R101, R138). -/
def deltaFits (delta : Int) (w : Nat) : Bool :=
  match Machine.legalDelta w with
  | none => false
  | some m => decide (-(m : Int) ≤ delta) && decide (delta ≤ m)

/-- The instructions the encodings can spell: payloads have the length their header or the parameters say (R83,
R89), deltas are legal for the width they use at the given WPM (R101). -/
def Instr.wellFormed (p : Params) (wpm : Nat) : Instr → Bool
  | .exLoad payload => decide (payload.length < 2 ^ 16)
  | .crc14 payload => decide (payload.length < 2 ^ 16)
  | .crc14Check payload => decide (payload.length < 2 ^ 16)
  | .ldpcPack _ _ block => block.length == p.blockBytes
  | .ldpcEncode message => message.length == p.messageBytes
  | .chanEncode _ block => block.length == p.blockBytes
  | .gfskMod _ _ tones => decide (tones.length < 2 ^ 16)
  | .keyingDeltaDit delta => deltaFits delta (Machine.ditWidth wpm)
  | .keyingDeltaDah delta => deltaFits delta (Machine.dahWidth p.dahPolicy wpm delta)
  | .keyingDeltaWordgap delta => deltaFits delta (Machine.wordgapWidth wpm)
  | .seStart | .seTimed _ _ | .seEnd | .seSetSpeed _ | .seEmit | .keEncode _ _ | .deltaEnc _ _ | .deltaDec _ _
  | .bbAdd _ _ | .exTake _ | .grayTo _ | .grayFrom _ | .csrRead _ | .csrWrite _ _
  | .padding | .wpmPolarity _ _ | .callsignMetadata | .callsignHashMetadata | .locatorMetadata | .powerMetadata
  | .keyingPerfectDit | .keyingPerfectDah | .keyingPerfectWordgap | .keyingEnd | .keyingNaive _ | .unused | .extension
  | .tone0 | .tone1 | .tone2 | .tone3 | .tone4 | .tone5 | .tone6 | .tone7 | .tone8 | .tone9 | .tone10 | .tone11
  | .tone12 | .tone13 | .tone14 | .tone15 | .rampUp | .rampDown => true

end Sys2Proof
end

