-- ==== Sys2Proof/Machine/HostPort.lean ====
section
/-! DEFINITION. What the host does to the core: it builds it (R150, R363), writes the command stream (R80), reads the
response stream (R376) and resets it (R360). None of these is a step of the core. -/

namespace Sys2Proof.Machine

/-- Building a TXCORE under given parameters: power-on is a reset (R360), and a parameter set that R7 forbids is
refused (R150). -/
def construct (p : Params) : Result :=
  if p.legal then .next (State.resetWith p) else .refused .illegalParameters

/-- The host writes bytes to the command port (R80). -/
def hostSend (bytes : List Byte) (s : State) : State := { s with input := s.input ++ bytes }

/-- The host reads `n` bytes of the response port (R376). -/
def hostTake (n : Nat) (s : State) : State := { s with output := s.output.drop n }

/-- Reset (R360): every field at its value of R44, the parameters unchanged. The builder's contents, a partial command
and undelivered response bytes are dropped; so is every other byte that the core has not consumed (log 6). -/
def applyReset (s : State) : State := State.resetWith s.params

/-- The command that does what a row of the opcode table does alone: a command is itself, a symbol the `GFSK_MOD`
that plays it, a frame the `BB_ADD` that places it, or, where its delta has no code, the `DELTA_ENC` that ends with the
same error (log 3, log 4). -/
def commandFor (s : State) (i : Instr) : Instr :=
  match symbolOf i with
  | some (.tone t) => .gfskMod false false [symbolByte (.tone t)]
  | some .rampUp => .gfskMod false true []
  | some .rampDown => .gfskMod true false []
  | none =>
    match s.wpm, i with
    | none, .keyingDeltaDit _ => .deltaEnc 0 0
    | none, .keyingDeltaDah _ => .deltaEnc 0 0
    | none, .keyingDeltaWordgap _ => .deltaEnc 0 0
    | w, i =>
      match frameBits s.params.dahPolicy (w.getD 0) i with
      | some (.ok bits) => .bbAdd (BitVec.ofNat 5 bits.length) (BitVec.ofNat 16 (num bits))
      | some (.error _) => .deltaEnc 5 0x7FFF
      | none => i

/-- The bytes that make the core perform a word of the opcode table next: a command's own bytes with a payload of
zeros, or those of the command that does what the frame or the symbol does. -/
def tableWordBytes (s : State) (nbits w : Nat) : List Byte :=
  if nbits ≤ 8 then
    match decodeTableWord nbits w with
    | some i => (encodeCommand (commandFor s i)).getD []
    | none => []
  else commandBytesOf s.params w

/-- A word of the opcode table stands at the front of the command stream. -/
def placeTableWord (s : State) (nbits w : Nat) : State := { s with input := tableWordBytes s nbits w ++ s.input }

end Sys2Proof.Machine
end

