-- ==== Sys2Proof/Machine/Step.lean ====
section
/-! DEFINITION. One step of the core: the next whole command of the command stream (R67, R69, R81). -/

namespace Sys2Proof.Machine

/-- One step. Part of a command waits: no state change and no response (R65, R342). An illegal command is consumed and
raises `ILLEGAL_COMMAND` (R87, R88). Any other command is consumed and performed. -/
def step (s : State) : Host.Outcome State Fault Refusal :=
  match fetch s with
  | .incomplete => .next s
  | .illegal _ rest => raiseError .illegalCommand (consume rest s)
  | .command i rest => exec i (consume rest s)

/-- `s` with a word of the opcode table where `step` fetches its next instruction: at the front of the command stream
(log 8). -/
def State.withFetchWord (s : State) (nbits w : Nat) : State := placeTableWord s nbits w

end Sys2Proof.Machine
end

