-- ==== Sys2Proof/Machine/Reference.lean ====
section
/-! DEFINITION. The reference waveform of R296 to R299 over the real numbers (R13), as the spec writes it, and the meaning
of binary32 rounding there. The step does not evaluate it: Machine/Gfsk.lean approximates it to any precision that a
decision needs, and Sys2Proof/Laws/WaveReal.lean proves that its decisions are those of the real numbers. The statements
about samples are in these terms. -/

namespace Sys2Proof.Machine

/-- The error function (R13). -/
noncomputable def realErf (x : ℝ) : ℝ := 2 / √Real.pi * ∫ t in (0 : ℝ)..x, Real.exp (-t ^ 2)

/-- `K` of R296. -/
noncomputable def realK : ℝ := Real.pi * √(2 / Real.log 2)

/-- `GFSK_BT` of R7. -/
def gfskBT : ℝ := 2

/-- The frequency pulse `P(j)` of R296. -/
noncomputable def realPulse (sps : ℕ) (j : ℤ) : ℝ :=
  if 0 ≤ j ∧ j < 3 * sps then
    (realErf (realK * gfskBT * (((j : ℝ) / sps - 3 / 2) + 1 / 2))
      - realErf (realK * gfskBT * (((j : ℝ) / sps - 3 / 2) - 1 / 2))) / 2
  else 0

/-- `f0` of R290: the number that the pattern of the audio offset encodes. Its sign is 0 (R38). -/
noncomputable def realOffset (r : GfskRequest) : ℝ := (binary32Units r.audioOffset : ℝ) / 2 ^ 149

/-- The sum over `Sy` of R297 at sample `k`. -/
noncomputable def realToneSum (r : GfskRequest) (k : ℕ) : ℝ :=
  ((shapedSymbols r).map fun x =>
    (x.2 : ℝ) * realPulse (requestSps r) ((k : ℤ) - firstSlot r - x.1 * requestSps r + requestSps r)).sum

/-- `dphi(k)` of R297. -/
noncomputable def realIncrement (r : GfskRequest) (k : ℕ) : ℝ :=
  2 * Real.pi * realOffset r / requestRate r + 2 * Real.pi * hmod / requestSps r * realToneSum r k

/-- `fmod2pi(x)` of R13. -/
noncomputable def fmod2pi (x : ℝ) : ℝ := x - 2 * Real.pi * ⌊x / (2 * Real.pi)⌋

/-- `phi(k)` of R298. -/
noncomputable def realPhase (r : GfskRequest) : ℕ → ℝ
  | 0 => 0
  | k + 1 => fmod2pi (realPhase r k + realIncrement r k)

/-- `env(i)` of R299. -/
noncomputable def realEnvelope (nr i : ℕ) : ℝ := (1 - Real.cos (Real.pi * i / nr)) / 2

/-- `y(k)` of R298 and R299. -/
noncomputable def realSample (r : GfskRequest) (k : ℕ) : ℝ :=
  Real.sin (realPhase r k)
    * (if r.rampUp ∧ k < envelopeLength r then realEnvelope (envelopeLength r) k else 1)
    * (if r.rampDown ∧ requestTotal r - 1 - k < envelopeLength r then
        realEnvelope (envelopeLength r) (requestTotal r - 1 - k) else 1)

/-- The number that a finite binary32 pattern encodes (R108). -/
noncomputable def binary32Value (w : Word) : ℝ := (binary32Fix w : ℝ) / 2 ^ fixBits

/-- `w` is `f32(y)` of R13: a finite binary32 nearest to `y`, and of two equally near ones that with the even last
place. A zero may have either sign (R300). -/
def RoundsTo (y : ℝ) (w : Word) : Prop :=
  binary32Finite w = true ∧
  ∀ c : Word, binary32Finite c = true →
    |binary32Value w - y| ≤ |binary32Value c - y| ∧
    (|binary32Value w - y| = |binary32Value c - y| → binary32Value c ≠ binary32Value w → w[0] = false)

end Sys2Proof.Machine
end

