-- ==== Sys2Proof/Safety.lean ====
section
/-! DEFINITION. What holds of every state of a TXCORE (R45 and the bounds on its settings), which states it reaches, and
what counts as a safe outcome. -/

namespace Sys2Proof.Machine

/-- The invariants: the parameters are legal (R7), the three of R45, the extractor's capacity (R154) and the bounds
that hold of the modulator settings because a CSR write checks them (R37 to R39). -/
structure State.Inv (s : State) : Prop where
  paramsLegal : s.params.legal = true
  builderFits : s.bb.length ≤ s.params.blockBits
  wpmLegal : ∀ w, s.wpm = some w → 5 ≤ w ∧ w ≤ 60
  headerHeld : s.headerSent = true → s.wpm ≠ none ∧ 11 ≤ s.bb.length
  extractorFits : s.ex.length ≤ s.params.blockBits
  rateLegal : s.sampleRate = 0 ∨ sampleRateLegal s.sampleRate = true
  offsetLegal : audioOffsetLegal s.audioOffset = true
  capacityLegal : outCapacityLegal s.outCapacity = true

/-- The states a TXCORE of given parameters reaches: by its steps and by what the host does (R20, R360). -/
inductive Reachable (p : Params) : State → Prop where
  | reset : Reachable p (State.resetWith p)
  | step {s t : State} : Reachable p s → Machine.step s = .next t → Reachable p t
  | send {s : State} (bytes : List Byte) : Reachable p s → Reachable p (hostSend bytes s)
  | take {s : State} (n : Nat) : Reachable p s → Reachable p (hostTake n s)
  | applyReset {s : State} : Reachable p s → Reachable p (Machine.applyReset s)

/-! ## The vocabulary of the statements -/

/-- The state a command leaves that completes with status `OK`, where `s` holds its other effects: the status is
recorded and the response appended (R84, R333). -/
def answered (result : Nat) (payload : List Byte) (s : State) : State :=
  { s with lastStatus := .ok, output := s.output ++ (be32 (0#4 ++ BitVec.ofNat 28 result) ++ payload) }

/-- The state a command leaves that raises an error in state `s`: nothing but the status, the sticky error bit and a
response of one word (R84, R333, R334). -/
def failed (e : ErrorKind) (s : State) : State :=
  { s with
    lastStatus := .error e
    errorSeen := true
    output := s.output ++ be32 (statusCode (.error e) ++ 0#28) }

/-- A sequence of instructions, one after another (R69). -/
def performAll : List Instr → State → Result
  | [], s => .next s
  | i :: is, s =>
    match exec i s with
    | .next t => performAll is t
    | .fault f => .fault f
    | .refused r => .refused r

/-- A bit string with one bit inverted. -/
def flipBit (k : Nat) (s : Bits) : Bits := s.modify k not

/-- The sum over GF(2) that makes parity bit `j` of a message (R244). -/
def parityBit (p : Params) (m : Bits) (j : Nat) : Bool :=
  (List.range p.ldpcK).foldl (fun acc i => xor acc (m.getD i false && (p.ldpcP.getD i []).getD j false)) false

/-- One bit of polynomial division by `x^14 + POLY` (R222). -/
def crcBit (r : BitVec 14) (b : Bool) : BitVec 14 :=
  if xor r[13] b then (r <<< 1) ^^^ 0x2757#14 else r <<< 1

/-- A safe outcome: the core goes on. TXCORE has no undefined case (92_eei_decisions.md D7). -/
def Safe (r : Result) : Prop := ∃ t, r = .next t

end Sys2Proof.Machine
end

