-- ==== Sys2Proof/Certificates/Slice0/Obligations.lean ====
section
/-! DEFINITION. The statements for the provers. Each docstring names the rules it formalises. `answered` and `failed`
(Sys2Proof/Safety.lean) say what a completed command leaves; equality of whole states is the frame: every field that is
not named is unchanged. TXCORE has no byte-addressable memory (R11). -/

open Sys2Proof Sys2Proof.Machine

/-! ## Encoding -/

/-- Decoding inverts encoding for every row of the opcode table (files 30 and 40): commands, frames at any WPM, channel
symbols. What a frame's or a symbol's row does alone is log 3 and log 4; its encoding is R101 and R104. -/
def Obligations.DecodeEncodeEveryRow : Prop :=
  ∀ (p : Params) (wpm : Nat) (i : Instr), p.sizesLegal = true → 5 ≤ wpm → wpm ≤ 60 → i.wellFormed p wpm = true →
    ∃ c, encode p wpm i = some c ∧ decode p wpm c = some i

/-- What the command decoder reads is a well-formed command whose encoding is exactly the bytes consumed: no bit of a
legal command is dropped, and no bytes of the command stream are a frame or a symbol (R82, R83, R88). -/
def Obligations.EncodeDecodeCommandStream : Prop :=
  ∀ (p : Params) (wpm : Nat) (bytes rest : List Byte) (i : Instr), decodeCommand p bytes = .command i rest →
    i.wellFormed p wpm = true ∧ ∃ b, encodeCommand i = some b ∧ bytes = b ++ rest

/-- R88: every opcode not in the map of R86 raises `ILLEGAL_COMMAND` and consumes only its 4 header bytes. -/
def Obligations.UnassignedOpcodeIsIllegal : Prop :=
  ∀ (s : State) (opc b2 b1 b0 : Byte) (rest : List Byte),
    opc ∉ ([0x10, 0x11, 0x12, 0x13, 0x14, 0x18, 0x20, 0x21, 0x28, 0x29, 0x2A, 0x30, 0x31, 0x38, 0x39, 0x40, 0x41, 0x48,
      0x50, 0x70, 0x71] : List Byte) →
    s.input = opc :: b2 :: b1 :: b0 :: rest →
    step s = .next (failed .illegalCommand { s with input := rest })

/-- R87: a reserved bit set in the header of an assigned opcode raises `ILLEGAL_COMMAND`, and the payload that the
header declares is still consumed. The masks are the bits marked 0 in R83. -/
def Obligations.ReservedBitsAreIllegal : Prop :=
  ∀ (s : State) (h mask : Word) (body : List Byte),
    (headerOpcode h, mask) ∈ ([(0x10#8, 0x00FFFFFF#32), (0x11#8, 0x00FE0000#32), (0x12#8, 0x00FFFFFF#32),
      (0x13#8, 0x00FFFFC0#32), (0x14#8, 0x00FFFFFF#32), (0x18#8, 0x00FE0000#32), (0x20#8, 0x00F00000#32),
      (0x21#8, 0x00F00000#32), (0x28#8, 0x00E00000#32), (0x29#8, 0x00FF0000#32), (0x2A#8, 0x00FFFFE0#32),
      (0x30#8, 0x00FF0000#32), (0x31#8, 0x00FF0000#32), (0x38#8, 0x00FF0000#32), (0x39#8, 0x00FFFFFF#32),
      (0x40#8, 0x00FFFF00#32), (0x41#8, 0x00FFFF00#32), (0x48#8, 0x00FFFFFE#32), (0x50#8, 0x000000FC#32),
      (0x70#8, 0x00FFFF00#32), (0x71#8, 0x00FFFF00#32)] : List (Byte × Word)) →
    h &&& mask ≠ 0 → payloadLength s.params h ≤ body.length → s.input = be32 h ++ body →
    step s = .next (failed .illegalCommand { s with input := body.drop (payloadLength s.params h) })

/-- R89: a command is 4 header bytes and a payload: `LEN` bytes for format L, `NSYM` for M, fixed by the opcode and the
parameters for the others, none for an unassigned opcode. Whatever a header means, exactly that much is consumed. -/
def Obligations.PayloadLengthByOpcode : Prop :=
  ∀ (p : Params) (h : Word),
    payloadLength p h =
        (if headerOpcode h ∈ ([0x29, 0x30, 0x31] : List Byte) then h.toNat % 2 ^ 16
        else if headerOpcode h ∈ ([0x38, 0x48] : List Byte) then p.blockBytes
        else if headerOpcode h = 0x39 then p.ldpcK / 8
        else if headerOpcode h = 0x50 then h.toNat / 2 ^ 8 % 2 ^ 16
        else if headerOpcode h = 0x71 then 4 else 0) ∧
      ∀ (body rest : List Byte),
        ((∃ i, decodeCommand p (be32 h ++ body) = .command i rest) ∨
          (∃ why, decodeCommand p (be32 h ++ body) = .illegal why rest)) →
        payloadLength p h ≤ body.length ∧ rest = body.drop (payloadLength p h)

/-- R342: while the command stream ends partway through a command, a step changes nothing and sends nothing; reset
abandons the partial command. -/
def Obligations.IncompleteCommandWaits : Prop :=
  ∀ s : State,
    (s.input.length < 4 ∨
      ∃ (h : Word) (body : List Byte), s.input = be32 h ++ body ∧ body.length < payloadLength s.params h) →
    step s = .next s ∧ (applyReset s).input = []

/-- A step performs the command at the front of the stream on the state that has consumed it (R67, R69, R81). -/
def Obligations.StepRunsDecodedCommand : Prop :=
  ∀ (s : State) (i : Instr) (rest : List Byte), decodeCommand s.params s.input = .command i rest →
    step s = exec i { s with input := rest }

/-- A few header words, written out from the encodings of R83 and R86, decode to the commands they stand for; so do
two frames (R101) and two symbol bytes (R104). THE MODEL'S CHOICE are the payloads: `decodeTableWord` supplies zeros for
every payload byte (the value 0 of `CSR_WRITE` and the two zero tones), log 9, and the block of 4 bytes is that of the
parameters of `State.reset`, log 1. -/
def Obligations.HeaderWordsDecode : Prop :=
  decodeTableWord 32 0x1101003C = some (.seTimed true 60) ∧
  decodeTableWord 32 0x2005FFE1 = some (.deltaEnc 5 0xFFE1) ∧
  decodeTableWord 32 0x2804000F = some (.bbAdd 4 15) ∧
  decodeTableWord 32 0x380026B9 = some (.ldpcPack 0 0x26B9 [0, 0, 0, 0]) ∧
  decodeTableWord 32 0x50000203 = some (.gfskMod true true [0, 0]) ∧
  decodeTableWord 32 0x71000010 = some (.csrWrite 0x10 0) ∧
  decodeTableWord 32 0x10000001 = none ∧
  decode Params.default 20 (.frame [true, false, true, true, true, true, true, true, true, true, true]) =
    some (.keyingDeltaDah (-1)) ∧
  decode Params.default 20
      (.frame [false, false, false, true, false, true, false, true, false, false, true]) = some (.wpmPolarity 20 true) ∧
  decode Params.default 20 (.symbol 0x0D) = some .tone13 ∧
  decode Params.default 20 (.symbol 0x11) = some .rampDown

/-! ## The whole machine -/

/-- R45: every command preserves the invariants (and the bounds on the extractor and on the settings, R154, R37 to
R39). -/
def Obligations.StepKeepsInvariants : Prop :=
  ∀ s t : State, s.Inv → step s = .next t → t.Inv

/-- Building a core under legal parameters gives the reset state, in which the invariants hold; an illegal parameter
set is refused (R7, R150, R360). That a set whose `LDPC_H` does not check its `LDPC_P` (R243) is refused too is THE
MODEL'S CHOICE, log 13. -/
def Obligations.ConstructionSatisfiesInvariants : Prop :=
  ∀ p : Params,
    (p.legal = true → construct p = .next (State.resetWith p) ∧ (State.resetWith p).Inv) ∧
    (p.legal = false → construct p = .refused .illegalParameters)

/-- Every state that satisfies the invariants has a next state: the assertion of `Append` never fails (R153, R195), and
no command is undefined. -/
def Obligations.StepIsSafe : Prop :=
  ∀ s : State, s.Inv → Safe (step s)

/-- From reset, under any legal parameters and whatever the host sends, takes and resets, the invariants hold and the
core goes on. -/
def Obligations.ReachableStatesAreSafe : Prop :=
  ∀ (p : Params) (s : State), p.legal = true → Reachable p s → s.Inv ∧ s.params = p ∧ Safe (step s)

/-- R21: the parameters are configuration, and no command changes them. -/
def Obligations.StepKeepsParameters : Prop :=
  ∀ s t : State, step s = .next t → t.params = s.params

/-- R84 and R333: each command appends exactly one response, a status, a result and a payload, with result 0 and no
payload where the status is not OK; the status is recorded, except by a `CSR_READ` with status OK, and an error sets
the sticky bit. That the frame and symbol rows do so is THE MODEL'S CHOICE, log 3 and log 4. -/
def Obligations.EveryCommandAnswersOnce : Prop :=
  ∀ (i : Instr) (s t : State), exec i s = .next t →
    t.input = s.input ∧
    ∃ (status : Status) (result : Nat) (payload : List Byte),
      t.output = s.output ++ (be32 (statusCode status ++ BitVec.ofNat 28 result) ++ payload) ∧
      (status ≠ .ok → result = 0 ∧ payload = []) ∧
      (if status = .ok ∧ ∃ c, i = .csrRead c then t.lastStatus = s.lastStatus ∧ t.errorSeen = s.errorSeen
        else t.lastStatus = status ∧ t.errorSeen = (s.errorSeen || decide (status ≠ .ok)))

/-- R334: a command either leaves everything but the status as it was, with its bytes consumed and a bare error
response sent, or answers OK. -/
def Obligations.ErrorsArePrecise : Prop :=
  ∀ (s t : State) (i : Instr) (rest : List Byte), decodeCommand s.params s.input = .command i rest →
    step s = .next t →
    (∃ e, t = failed e { s with input := rest }) ∨
    (t.errorSeen = s.errorSeen ∧
      ∃ (result : Nat) (payload : List Byte),
        t.output = s.output ++ (be32 (0#4 ++ BitVec.ofNat 28 result) ++ payload))

/-- R68: every command other than `SE_*`, `KE_ENCODE`, `BB_ADD`, `EX_LOAD`, `EX_TAKE` and `CSR_WRITE` leaves every
state field except `STATUS` unchanged. That the symbol rows do so too is THE MODEL'S CHOICE, log 4. -/
def Obligations.PureCommandsKeepState : Prop :=
  ∀ (i : Instr) (s t : State),
    ((∃ b v, i = .deltaEnc b v) ∨ (∃ b v, i = .deltaDec b v) ∨ (∃ d, i = .crc14 d) ∨ (∃ d, i = .crc14Check d) ∨
      (∃ x c b, i = .ldpcPack x c b) ∨ (∃ m, i = .ldpcEncode m) ∨ (∃ n, i = .grayTo n) ∨ (∃ n, i = .grayFrom n) ∨
      (∃ e b, i = .chanEncode e b) ∨ (∃ rd ru d, i = .gfskMod rd ru d) ∨ (∃ c, i = .csrRead c) ∨
      symbolOf i ≠ none) →
    exec i s = .next t →
    { t with lastStatus := s.lastStatus, errorSeen := s.errorSeen, output := s.output } = s

/-- R40: once set, `ERROR_SEEN` is never cleared by a step; reset clears it. -/
def Obligations.ErrorSeenIsSticky : Prop :=
  ∀ s t : State, step s = .next t → (s.errorSeen = true → t.errorSeen = true) ∧ (applyReset t).errorSeen = false

/-- R23: `S.wpm` is written only by `SE_SET_SPEED`. -/
def Obligations.OnlySetSpeedWritesWpm : Prop :=
  ∀ (i : Instr) (s t : State), exec i s = .next t → t.wpm ≠ s.wpm → ∃ w : BitVec 6, i = .seSetSpeed w ∧ t.wpm = some w.toNat

/-! ## The source encoder -/

/-- R192: `SE_START` sets the polarity to mark and changes nothing else. -/
def Obligations.StartSetsMark : Prop :=
  ∀ s : State, exec .seStart s = .next (answered 0 [] { s with polarity := true })

/-- R198: `SE_SET_SPEED` sets the WPM and clears the header flag for 5..60, and raises `CONFIGURATION_ERROR` for any
other value. -/
def Obligations.SetSpeedResult : Prop :=
  ∀ (s : State) (w : BitVec 6),
    (5 ≤ w.toNat ∧ w.toNat ≤ 60 →
      exec (.seSetSpeed w) s = .next (answered 0 [] { s with wpm := some w.toNat, headerSent := false })) ∧
    (w.toNat < 5 ∨ 60 < w.toNat → exec (.seSetSpeed w) s = .next (failed .configurationError s))

/-- R191 and R200: `SE_EMIT` of an empty builder emits nothing and changes nothing; otherwise it emits the padded
block with the pending `is_end`, and empties the builder and clears both flags. -/
def Obligations.EmitResult : Prop :=
  ∀ s : State,
    (s.bb = [] → exec .seEmit s = .next (answered 0 [] s)) ∧
    (s.bb ≠ [] → exec .seEmit s = .next (answered 1
      (bytesOf (s.bb ++ zeros (s.params.blockBits - s.bb.length)) ++ [if s.endPending then 1 else 0])
      { s with bb := [], headerSent := false, endPending := false }))

/-- R203: `SE_EMIT` followed at once by a second one gives at most one block from the first and none from the
second. -/
def Obligations.EmitTwiceEmitsOnce : Prop :=
  ∀ s : State, ∃ (t : State) (n : Nat) (payload : List Byte), n ≤ 1 ∧ exec .seEmit s = .next t ∧ t.bb = [] ∧
    t.output = s.output ++ (be32 (BitVec.ofNat 32 n) ++ payload) ∧ exec .seEmit t = .next (answered 0 [] t)

/-- R103 and R152: the built block is `BLOCK_BYTES` bytes that hold the builder's bits in append order, then zeros. -/
def Obligations.BuiltBlockHoldsBuilder : Prop :=
  ∀ s : State, s.Inv → (builtBlock s).length = s.params.blockBytes ∧
    bitsOf (builtBlock s) = s.bb ++ zeros (s.params.blockBits - s.bb.length)

/-- R196: `SE_END` appends `KeyingEnd` (1001) and marks the next emitted block; with fewer than 4 bits free it emits
the block first, with the old `is_end`. -/
def Obligations.EndResult : Prop :=
  ∀ s : State, s.Inv →
    (s.bb.length + 4 ≤ s.params.blockBits → exec .seEnd s = .next (answered 0 []
      { s with bb := s.bb ++ [true, false, false, true], endPending := true })) ∧
    (s.params.blockBits < s.bb.length + 4 → exec .seEnd s = .next (answered 1
      (builtBlock s ++ [if s.endPending then 1 else 0])
      { s with bb := [true, false, false, true], headerSent := false, endPending := true }))

/-- R194 and R332: `SE_TIMED` raises `CONFIGURATION_ERROR` without a WPM and `ENCODING_RANGE_ERROR` for a duration
above 2047, before any state change. -/
def Obligations.TimedRaises : Prop :=
  ∀ (s : State) (up : Bool) (dur : BitVec 16), s.Inv →
    (s.wpm = none → exec (.seTimed up dur) s = .next (failed .configurationError s)) ∧
    (s.wpm ≠ none → 2047 < dur.toNat → exec (.seTimed up dur) s = .next (failed .encodingRangeError s))

/-- R194, where nothing is flushed: the frame of R171 is appended, after a `WPMPolarity` header if none was sent, and
the polarity flips. The header carries the polarity before the flip (R190). -/
def Obligations.TimedWithinBlock : Prop :=
  ∀ (s : State) (up : Bool) (dur : BitVec 16) (w : Nat) (f : Bits), s.Inv → s.wpm = some w →
    classify s.params.dahPolicy w dur.toNat = .ok f →
    (s.headerSent = true → s.bb.length + f.length ≤ s.params.blockBits →
      exec (.seTimed up dur) s = .next (answered 0 [] { s with bb := s.bb ++ f, polarity := !s.polarity })) ∧
    (s.headerSent = false → s.bb.length + 11 + f.length ≤ s.params.blockBits →
      exec (.seTimed up dur) s = .next (answered 0 []
        { s with
          bb := s.bb ++ ([false, false, false, true] ++ bitsN 6 w ++ [s.polarity]) ++ f
          headerSent := true
          polarity := !s.polarity }))

/-- R194 and R195, where the block is flushed: exactly one block is emitted, and the new block holds a fresh header and
the frame. Where the header fits the old block and the frame does not, the old block ends in that header. -/
def Obligations.TimedFlushesOneBlock : Prop :=
  ∀ (s : State) (up : Bool) (dur : BitVec 16) (w : Nat) (f : Bits), s.Inv → s.wpm = some w →
    classify s.params.dahPolicy w dur.toNat = .ok f →
    let header := [false, false, false, true] ++ bitsN 6 w ++ [s.polarity]
    let after : State :=
      { s with bb := header ++ f, headerSent := true, endPending := false, polarity := !s.polarity }
    let flags : Byte := if s.endPending then 1 else 0
    (s.headerSent = true → s.params.blockBits < s.bb.length + f.length →
      exec (.seTimed up dur) s = .next (answered 1 (builtBlock s ++ [flags]) after)) ∧
    (s.headerSent = false → s.params.blockBits < s.bb.length + 11 →
      exec (.seTimed up dur) s = .next (answered 1 (builtBlock s ++ [flags]) after)) ∧
    (s.headerSent = false → s.bb.length + 11 ≤ s.params.blockBits →
      s.params.blockBits < s.bb.length + 11 + f.length →
      exec (.seTimed up dur) s = .next (answered 1 (builtBlock { s with bb := s.bb ++ header } ++ [flags]) after))

/-! ## The keying encoder -/

/-- R175: `KE_ENCODE` without a WPM, with a duration out of range, with a frame that does not fit (`FIT = 0`, no state
change) and with one that fits (`FIT = 1`). -/
def Obligations.KeyEncodeResult : Prop :=
  ∀ (s : State) (up : Bool) (dur : BitVec 16), s.Inv →
    (s.wpm = none → exec (.keEncode up dur) s = .next (failed .configurationError s)) ∧
    (s.wpm ≠ none → 2047 < dur.toNat → exec (.keEncode up dur) s = .next (failed .encodingRangeError s)) ∧
    ∀ (w : Nat) (f : Bits), s.wpm = some w → classify s.params.dahPolicy w dur.toNat = .ok f →
      (s.params.blockBits < s.bb.length + f.length → exec (.keEncode up dur) s = .next (answered 0 [] s)) ∧
      (s.bb.length + f.length ≤ s.params.blockBits →
        exec (.keEncode up dur) s = .next (answered 1 [] { s with bb := s.bb ++ f }))

/-- R172: classification as intervals of the duration, with `t = dit(w)`. -/
def Obligations.ClassificationByIntervals : Prop :=
  ∀ (w d : Nat), 5 ≤ w → w ≤ 60 → d < 65536 →
    let t := 1200 / w
    let c := classify .signSelected w d
    let coded := fun (width : Nat) (x : Int) => bitsN (width + 1) (BitVec.ofInt (width + 1) x).toNat
    (d = t → c = .ok [false, true, true, false]) ∧
    (d = 3 * t → c = .ok [false, true, true, true]) ∧
    (d = 7 * t → c = .ok [true, false, false, false]) ∧
    (d ≤ 2 * t → d ≠ t → c = .ok ([true, false, true, false] ++ coded (ditWidth w) ((d : Int) - t))) ∧
    (2 * t + 1 ≤ d → d < 3 * t →
      c = .ok ([true, false, true, true] ++ coded (dahNegWidth w) ((d : Int) - 3 * t))) ∧
    (3 * t < d → d ≤ 5 * t - 1 →
      c = .ok ([true, false, true, true] ++ coded (dahPosWidth w) ((d : Int) - 3 * t))) ∧
    (5 * t ≤ d → d ≤ 7 * t + min 367 (2 * t) → d ≠ 7 * t →
      c = .ok ([true, true, false, false] ++ coded (wordgapWidth w) ((d : Int) - 7 * t))) ∧
    (7 * t + min 367 (2 * t) < d → d ≤ 2047 → c = .ok ([true, true, false, true] ++ bitsN 11 d)) ∧
    (2048 ≤ d → c = .error .encodingRangeError)

/-- R173: the length of a keying frame by band (0 for 5..9 WPM, 1 for 10..18, 2 for 19..37, 3 for 38..60); no frame is
longer than 15 bits. -/
def Obligations.FrameLengthsByBand : Prop :=
  ∀ (w d : Nat) (f : Bits), 5 ≤ w → w ≤ 60 → classify .signSelected w d = .ok f →
    let t := 1200 / w
    let b := if w ≤ 9 then 0 else if w ≤ 18 then 1 else if w ≤ 37 then 2 else 3
    f.length =
      (if d = t ∨ d = 3 * t ∨ d = 7 * t then 4
      else if d < 3 * t then 13 - b
      else if d ≤ 7 * t + min 367 (2 * t) then 14 - b
      else 15) ∧
    f.length ≤ 15 ∧ 11 + f.length ≤ 26

/-- R135: for every WPM the delta ranges are the disjoint adjacent intervals of (a), every delta in them is legal for
the width it uses (b), no range passes 2047, which 5 WPM reaches (c), and each perfect duration lies strictly inside its range (d). -/
def Obligations.DeltaRangesFitWidths : Prop :=
  ∀ w : Nat, 5 ≤ w → w ≤ 60 →
    let t : Int := (1200 / w : Nat)
    (dit w + negDit w = 0 ∧ dit w + posDit w = 2 * t ∧ dah w + negDah w = 2 * t + 1 ∧ dah w + posDah w = 5 * t - 1 ∧
      wordgap w + negWordgap w = 5 * t ∧ wordgap w + posWordgap w = 7 * t + min 367 (2 * t)) ∧
    (∀ x : Int, negDit w ≤ x → x ≤ posDit w → deltaFits x (ditWidth w) = true) ∧
    (∀ x : Int, negDah w ≤ x → x ≤ posDah w → deltaFits x (dahWidth .signSelected w x) = true) ∧
    (∀ x : Int, negWordgap w ≤ x → x ≤ posWordgap w → deltaFits x (wordgapWidth w) = true) ∧
    (wordgap w + posWordgap w ≤ 2047 ∧ (w = 5 → wordgap w + posWordgap w = 2047)) ∧
    (negDit w < 0 ∧ 0 < posDit w ∧ negDah w < 0 ∧ 0 < posDah w ∧ negWordgap w < 0 ∧ 0 < posWordgap w)

/-! ## Delta arithmetic -/

/-- R136 and R138: `DELTA_ENC` answers the two's-complement code in `BITS + 1` bits of a legal delta, and raises
`ENCODING_RANGE_ERROR` for any other delta and `CONFIGURATION_ERROR` for a width outside 5..9. -/
def Obligations.DeltaEncodeResult : Prop :=
  ∀ (s : State) (bits : BitVec 4) (val : BitVec 16),
    (bits.toNat < 5 ∨ 9 < bits.toNat → exec (.deltaEnc bits val) s = .next (failed .configurationError s)) ∧
    ∀ m : Nat, (bits.toNat, m) ∈ [(5, 31), (6, 63), (7, 127), (8, 240), (9, 480)] →
      (m < val.toInt.natAbs → exec (.deltaEnc bits val) s = .next (failed .encodingRangeError s)) ∧
      (val.toInt.natAbs ≤ m →
        exec (.deltaEnc bits val) s = .next (answered (BitVec.ofInt (bits.toNat + 1) val.toInt).toNat [] s))

/-- R137: `DELTA_DEC` sign-extends a `BITS + 1`-bit code, clamps it to ±480 and answers it as s16; a bit above the
field raises `ENCODING_RANGE_ERROR`, a width outside 5..9 `CONFIGURATION_ERROR`. -/
def Obligations.DeltaDecodeResult : Prop :=
  ∀ (s : State) (bits : BitVec 4) (val : BitVec 16),
    (bits.toNat < 5 ∨ 9 < bits.toNat → exec (.deltaDec bits val) s = .next (failed .configurationError s)) ∧
    (5 ≤ bits.toNat → bits.toNat ≤ 9 →
      (2 ^ (bits.toNat + 1) ≤ val.toNat → exec (.deltaDec bits val) s = .next (failed .encodingRangeError s)) ∧
      (val.toNat < 2 ^ (bits.toNat + 1) →
        exec (.deltaDec bits val) s = .next (answered
          (BitVec.ofInt 16 (min 480 (max (-480) (BitVec.ofNat (bits.toNat + 1) val.toNat).toInt))).toNat [] s)))

/-- R139: every legal delta survives `DELTA_ENC` followed by `DELTA_DEC` of the code it answered. -/
def Obligations.DeltaRoundTrip : Prop :=
  ∀ (s : State) (bits : BitVec 4) (m : Nat) (d : Int),
    (bits.toNat, m) ∈ [(5, 31), (6, 63), (7, 127), (8, 240), (9, 480)] → d.natAbs ≤ m →
    ∃ (code : BitVec 16), exec (.deltaEnc bits (BitVec.ofInt 16 d)) s = .next (answered code.toNat [] s) ∧
      exec (.deltaDec bits code) (answered code.toNat [] s) =
        .next (answered (BitVec.ofInt 16 d).toNat [] (answered code.toNat [] s))

/-! ## The bit block -/

/-- R151: `BB_ADD` appends the low `COUNT` bits of `VALUE`, most significant first, and answers the room left;
`CONFIGURATION_ERROR` for a count above 16, else `CAPACITY_EXCEEDED` if the bits do not fit. -/
def Obligations.BuilderAddResult : Prop :=
  ∀ (s : State) (count : BitVec 5) (value : BitVec 16),
    (16 < count.toNat → exec (.bbAdd count value) s = .next (failed .configurationError s)) ∧
    (count.toNat ≤ 16 →
      (s.params.blockBits < s.bb.length + count.toNat →
        exec (.bbAdd count value) s = .next (failed .capacityExceeded s)) ∧
      (s.bb.length + count.toNat ≤ s.params.blockBits →
        exec (.bbAdd count value) s = .next (answered (s.params.blockBits - (s.bb.length + count.toNat)) []
          { s with bb := s.bb ++ (List.range count.toNat).map fun k => value.getLsbD (count.toNat - 1 - k) })))

/-- R154: `EX_LOAD` replaces the extractor by the payload's bits and answers their number; more than `BLOCK_BYTES`
bytes raise `CAPACITY_EXCEEDED`. -/
def Obligations.ExtractorLoadResult : Prop :=
  ∀ (s : State) (payload : List Byte),
    (payload.length ≤ s.params.blockBits / 8 →
      exec (.exLoad payload) s = .next (answered (8 * payload.length) []
        { s with ex := payload.flatMap fun b => (List.range 8).map fun k => b.getLsbD (7 - k) })) ∧
    (s.params.blockBits / 8 < payload.length →
      exec (.exLoad payload) s = .next (failed .capacityExceeded s))

/-- R155: `EX_TAKE` drains the first `COUNT` bits, the first one the most significant of the answer;
`CONFIGURATION_ERROR` for a count above 16, else `CAPACITY_EXCEEDED` if fewer bits remain. -/
def Obligations.ExtractorTakeResult : Prop :=
  ∀ (s : State) (count : BitVec 5),
    (16 < count.toNat → exec (.exTake count) s = .next (failed .configurationError s)) ∧
    (count.toNat ≤ 16 →
      (s.ex.length < count.toNat → exec (.exTake count) s = .next (failed .capacityExceeded s)) ∧
      ∀ (taken rest : Bits), s.ex = taken ++ rest → taken.length = count.toNat →
        exec (.exTake count) s = .next (answered (taken.foldl (fun n b => 2 * n + b.toNat) 0) []
          { s with ex := rest }))

/-- R156: bits put into an empty builder by `BB_ADD` and emitted come back, value by value, when the block is loaded
into the extractor and taken with the same counts; after them only zeros remain, which further takes answer. -/
def Obligations.ExtractorRoundTrip : Prop :=
  ∀ (s : State) (items : List (BitVec 5 × BitVec 16)), s.Inv → s.bb = [] →
    (∀ x ∈ items, x.1.toNat ≤ 16) → 0 < (items.map fun x => x.1.toNat).sum →
    (items.map fun x => x.1.toNat).sum ≤ s.params.blockBits →
    ∃ (t : State) (block : List Byte),
      performAll (items.map fun x => .bbAdd x.1 x.2) s = .next t ∧
      exec .seEmit t = .next (answered 1 (block ++ [if s.endPending then 1 else 0])
        { t with bb := [], headerSent := false, endPending := false }) ∧
      block.length = s.params.blockBytes ∧
      ∀ u : State, u.params = s.params → ∃ v : State,
        performAll (.exLoad block :: items.map fun x => .exTake x.1) u = .next v ∧
        v.output = u.output ++ be32 (BitVec.ofNat 32 s.params.blockBits) ++
          (items.flatMap fun x => be32 (BitVec.ofNat 32 (x.2.toNat % 2 ^ x.1.toNat))) ∧
        v.ex.length = s.params.blockBits - (items.map fun x => x.1.toNat).sum ∧
        (∀ b ∈ v.ex, b = false) ∧
        ∀ n : BitVec 5, n.toNat ≤ 16 → n.toNat ≤ v.ex.length →
          exec (.exTake n) v = .next (answered 0 [] { v with ex := v.ex.drop n.toNat })

/-! ## CRC-14 -/

/-- R222 and R223: `CRC14` answers the remainder of bitwise polynomial division by `x^14 + POLY` of the data times
`x^14`, most significant bit first, from remainder 0; the table-driven fold computes it. -/
def Obligations.CrcIsPolynomialDivision : Prop :=
  ∀ (s : State) (data : List Byte),
    exec (.crc14 data) s = .next (answered ((bitsOf data).foldl crcBit 0).toNat [] s)

/-- R224: `CRC14_CHECK` answers 1 iff the CRC of the data is 0. -/
def Obligations.CrcCheckResult : Prop :=
  ∀ (s : State) (data : List Byte),
    (crc14 data = 0 → exec (.crc14Check data) s = .next (answered 1 [] s)) ∧
    (crc14 data ≠ 0 → exec (.crc14Check data) s = .next (answered 0 [] s))

/-- R225: a message followed by its CRC in the high 14 bits of a 2-byte field, most significant byte first, passes
`CRC14_CHECK`. -/
def Obligations.AppendedCrcVerifies : Prop :=
  ∀ (s : State) (m : List Byte),
    let field : BitVec 16 := crc14 m ++ 0#2
    exec (.crc14Check (m ++ [field.extractLsb' 8 8, field.extractLsb' 0 8])) s = .next (answered 1 [] s)

/-- Of the CRC of R220 to R222 and the check of R224: inverting any one bit of data that passes `CRC14_CHECK` makes it
fail. (R226 tries one vector.) -/
def Obligations.CrcDetectsSingleBitFlips : Prop :=
  ∀ (s : State) (data : List Byte) (k : Nat), crc14 data = 0 → k < 8 * data.length →
    exec (.crc14Check (bytesOf (flipBit k (bitsOf data)))) s = .next (answered 0 [] s)

/-! ## LDPC -/

/-- R106 and R241: `LDPC_PACK` answers the block followed by `spare << 14 | crc` as two bytes, most significant
first. -/
def Obligations.PackResult : Prop :=
  ∀ (s : State) (spare : BitVec 2) (crc : BitVec 14) (block : List Byte),
    let field : BitVec 16 := spare ++ crc
    exec (.ldpcPack spare crc block) s = .next (answered (s.params.blockBits + 16)
      (block ++ [field.extractLsb' 8 8, field.extractLsb' 0 8]) s)

/-- R244: `LDPC_ENCODE` answers `LDPC_N/8` bytes: the message, then the parity bits, bit `j` the XOR over `i` of
`m[i] AND LDPC_P[i][j]`. -/
def Obligations.LdpcEncodeResult : Prop :=
  ∀ (s : State) (message : List Byte), s.params.sizesLegal = true → message.length = s.params.messageBytes →
    ∃ codeword : List Byte,
      exec (.ldpcEncode message) s = .next (answered s.params.ldpcN codeword s) ∧
      codeword.length = s.params.ldpcN / 8 ∧ codeword.take (s.params.ldpcK / 8) = message ∧
      ∀ j, j < s.params.parityBits →
        (bitsOf codeword)[s.params.ldpcK + j]? = some (parityBit s.params (bitsOf message) j)

/-- R245, its first law: the encoder is linear over GF(2), and the zero message has the zero codeword. -/
def Obligations.LdpcEncodingIsLinear : Prop :=
  ∀ (p : Params) (a b : List Byte), p.sizesLegal = true → a.length = p.messageBytes → b.length = p.messageBytes →
    ldpcCodeword p (List.zipWith (· ^^^ ·) a b) = List.zipWith (· ^^^ ·) (ldpcCodeword p a) (ldpcCodeword p b) ∧
    ldpcCodeword p (List.replicate p.messageBytes 0) = List.replicate (p.ldpcN / 8) 0

/-- R243: under legal parameters, where every row of `LDPC_H` checks every row of the generator, every codeword
satisfies `LDPC_H · c^T = 0`. -/
def Obligations.CodewordsSatisfyParityChecks : Prop :=
  ∀ (p : Params) (message : List Byte), p.legal = true → message.length = p.messageBytes →
    ∀ row ∈ p.ldpcH, gf2Dot row (bitsOf (ldpcCodeword p message)) = false

/-! ## The channel encoder and the Gray mapper -/

/-- R271 and R105: `CHAN_ENCODE` answers `IS_END` and the count `2 + LDPC_N/4`, then RampUp, two Gray-coded tones for
each byte of the codeword of the block, its spare bits 00 and its CRC, high nibble first, then RampDown. -/
def Obligations.ChannelEncodeResult : Prop :=
  ∀ (s : State) (isEnd : Bool) (block : List Byte), s.params.sizesLegal = true → block.length = s.params.blockBytes →
    let field : BitVec 16 := 0#2 ++ crc14 block
    let codeword := ldpcCodeword s.params (block ++ [field.extractLsb' 8 8, field.extractLsb' 0 8])
    let tones : List Byte := codeword.flatMap fun b =>
      [(s.params.grayTable.getD (b.toNat / 16) 0).setWidth 8, (s.params.grayTable.getD (b.toNat % 16) 0).setWidth 8]
    exec (.chanEncode isEnd block) s = .next (answered ((if isEnd then 65536 else 0) + (2 + s.params.ldpcN / 4))
      (0x10 :: tones ++ [0x11]) s) ∧
    tones.length = s.params.ldpcN / 4

/-- R246: the codeword of a block satisfies the parity checks (a), its CRC field is the CRC of the block that it holds
(b), and its spare bits are 00 (c). -/
def Obligations.ChannelCodewordVerifies : Prop :=
  ∀ (p : Params) (block : List Byte), p.legal = true → block.length = p.blockBytes →
    let c := bitsOf (ldpcCodeword p (channelMessage block))
    (∀ row ∈ p.ldpcH, gf2Dot row c = false) ∧
    num ((c.take p.ldpcK).drop (p.ldpcK - 14)) = (crc14 (bytesOf (c.take p.blockBits))).toNat ∧
    (c.drop p.blockBits).take 2 = [false, false]

/-- R261 and R262: `GRAY_TO` answers the table's entry, `GRAY_FROM` the number whose entry is given; a nibble above 15
raises `ENCODING_RANGE_ERROR`. -/
def Obligations.GrayResults : Prop :=
  ∀ (s : State) (nib : BitVec 8), s.params.sizesLegal = true →
    (15 < nib.toNat → exec (.grayTo nib) s = .next (failed .encodingRangeError s) ∧
      exec (.grayFrom nib) s = .next (failed .encodingRangeError s)) ∧
    (nib.toNat ≤ 15 →
      exec (.grayTo nib) s = .next (answered (s.params.grayTable.getD nib.toNat 0).toNat [] s) ∧
      exec (.grayFrom ((s.params.grayTable.getD nib.toNat 0).setWidth 8)) s = .next (answered nib.toNat [] s))

/-- R263: for every legal Gray table and every nibble, `GRAY_FROM` undoes `GRAY_TO`, and `GRAY_TO` undoes
`GRAY_FROM`. -/
def Obligations.GrayRoundTrip : Prop :=
  ∀ (s : State) (n : BitVec 8), s.params.sizesLegal = true → n.toNat ≤ 15 →
    (∃ g : BitVec 8, exec (.grayTo n) s = .next (answered g.toNat [] s) ∧
      exec (.grayFrom g) (answered g.toNat [] s) = .next (answered n.toNat [] (answered g.toNat [] s))) ∧
    (∃ b : BitVec 8, exec (.grayFrom n) s = .next (answered b.toNat [] s) ∧
      exec (.grayTo b) (answered b.toNat [] s) = .next (answered n.toNat [] (answered b.toNat [] s)))

/-! ## The GFSK modulator -/

/-- R291 and R336: the checks of `GFSK_MOD` in their order: sample rate, tones, capacity. With no tone it answers 0
samples and none of them applies (R365, log 10; `ModulatorResult`). -/
def Obligations.ModulatorRaises : Prop :=
  ∀ (s : State) (rd ru : Bool) (tones : List Byte), tones ≠ [] →
    (s.sampleRate.toNat < 50 → exec (.gfskMod rd ru tones) s = .next (failed .configurationError s)) ∧
    (50 ≤ s.sampleRate.toNat → (∃ t ∈ tones, 15 < t.toNat) →
      exec (.gfskMod rd ru tones) s = .next (failed .encodingRangeError s)) ∧
    (50 ≤ s.sampleRate.toNat → (∀ t ∈ tones, t.toNat ≤ 15) →
      s.outCapacity.toNat < tones.length * (4 * s.sampleRate.toNat / 25) +
        (if ru then s.sampleRate.toNat / 50 else 0) + (if rd then s.sampleRate.toNat / 50 else 0) →
      exec (.gfskMod rd ru tones) s = .next (failed .capacityExceeded s))

/-- R292, R293 and R295: with a sample rate, legal tones and room, `GFSK_MOD` answers the count of R293 and that many
binary32 samples, and changes nothing else. With no tone it answers 0 samples in every state, the reset state too (R365;
that this is so without a sample rate is the reading of log 10). -/
def Obligations.ModulatorResult : Prop :=
  ∀ (s : State) (rd ru : Bool) (tones : List Byte),
    (tones = [] → exec (.gfskMod rd ru tones) s = .next (answered 0 [] s)) ∧
    (tones ≠ [] → 50 ≤ s.sampleRate.toNat → (∀ t ∈ tones, t.toNat ≤ 15) →
      let total := tones.length * (4 * s.sampleRate.toNat / 25) +
        (if ru then s.sampleRate.toNat / 50 else 0) + (if rd then s.sampleRate.toNat / 50 else 0)
      total ≤ s.outCapacity.toNat →
      ∃ samples : List Word, samples.length = total ∧
        samples = waveform s.params.gfskTol (gfskRequest rd ru tones s) ∧
        exec (.gfskMod rd ru tones) s = .next (answered total (samples.flatMap be32) s))

/-- R300 and R13, against the waveform of R296 to R299 over the real numbers. A sample of a waveform is that of the free
value (log 2), and for EVERY value `choice` of it: where the choice conforms within a `GFSK_TOL` above 0, the sample is
the choice; otherwise the sample is `f32(y(k))` exactly, where a zero has the sign of the choice. `GFSK_TOL` is a whole
number of units of `2^-512`, which is the model's choice (log 14). The premises hold of every modulation that `GFSK_MOD`
performs (R291). -/
def Obligations.SamplesConformToReference : Prop :=
  ∀ (tol : Nat) (r : GfskRequest) (k : Nat) (w : Word), 50 ≤ r.sampleRate.toNat → requestTotal r ≤ 2 ^ 32 →
    (waveform tol r)[k]? = some w →
    let y := realSample r k
    let conforms := fun v : Word => 0 < tol ∧ binary32Finite v = true ∧ |binary32Value v - y| ≤ (tol : ℝ) / 2 ^ 512
    let sample := fun choice =>
      conformingSample tol choice r k (approximateSample (precision 0) r k (toneSumBefore (precision 0) r k))
    w = sample (Config.gfskChoice r k) ∧
    ∀ choice : Word,
      (conforms choice → sample choice = choice) ∧
      (¬ conforms choice → RoundsTo y (sample choice) ∧
        (binary32Value (sample choice) = 0 → (sample choice)[31] = choice[31]))

/-- R13: `f32` is the nearest finite binary32, and of two equally near ones that with the even last place. The number
is a multiple of `2^-512` of magnitude at most 2. -/
def Obligations.RoundingIsNearestEven : Prop :=
  ∀ y : Int, y.natAbs ≤ 2 ^ 513 →
    binary32Finite (roundBinary32 y) = true ∧
    ∀ c : Word, binary32Finite c = true →
      (binary32Fix (roundBinary32 y) - y).natAbs ≤ (binary32Fix c - y).natAbs ∧
      ((binary32Fix (roundBinary32 y) - y).natAbs = (binary32Fix c - y).natAbs →
        binary32Fix c ≠ binary32Fix (roundBinary32 y) → (roundBinary32 y)[0] = false)

/-- R295's corner case: with `f0 = 0` and all tones 0 every sample is 0, of either sign, for a bit-exact core
(`GFSK_TOL = 0`), with or without ramps. -/
def Obligations.SilenceIsAllZeros : Prop :=
  ∀ (r : GfskRequest) (w : Word), 50 ≤ r.sampleRate.toNat → r.audioOffset = 0 → (∀ t ∈ r.tones, t = 0) →
    w ∈ waveform 0 r → w = 0 ∨ w = 0x80000000#32

/-! ## CSR access and reset -/

/-- R30 to R40 and R321: the value that `CSR_READ` answers for each CSR of the map, with no change of any field; a
reserved number raises `ILLEGAL_COMMAND`. -/
def Obligations.CsrReadResult : Prop :=
  ∀ s : State, s.Inv →
    let timing := fun (f : Nat → Int) => BitVec.ofInt 32 (s.wpm.elim 0 f)
    let range := fun (neg pos : Nat → Int) =>
      s.wpm.elim 0#32 fun w => BitVec.ofInt 16 (neg w) ++ BitVec.ofInt 16 (pos w)
    (∀ (n : BitVec 8) (v : Word),
      (n, v) ∈ [(0x00#8, 0x444D5437#32), (0x01#8, BitVec.ofNat 32 s.params.blockBits),
        (0x02#8, BitVec.ofNat 32 (s.params.blockBits + 16)), (0x03#8, BitVec.ofNat 32 s.params.ldpcN),
        (0x04#8, BitVec.ofNat 32 (s.wpm.elim 0 fun w => 256 + w)),
        (0x05#8, BitVec.ofNat 32 (s.polarity.toNat + 2 * s.headerSent.toNat + 4 * s.endPending.toNat)),
        (0x06#8, BitVec.ofNat 32 s.bb.length), (0x07#8, BitVec.ofNat 32 (s.params.blockBits - s.bb.length)),
        (0x08#8, BitVec.ofNat 32 s.ex.length),
        (0x09#8, timing fun w => dit w), (0x0A#8, timing fun w => 3 * dit w), (0x0B#8, timing fun w => 7 * dit w),
        (0x0C#8, range (fun w => -dit w) fun w => dit w),
        (0x0D#8, range (fun w => -(dit w - 1)) fun w => 2 * dit w - 1),
        (0x0E#8, range (fun w => -(2 * dit w)) fun w => min 367 (2 * dit w)),
        (0x0F#8, timing fun w => ditWidth w + 16 * dahNegWidth w + 256 * dahPosWidth w + 4096 * wordgapWidth w),
        (0x10#8, s.sampleRate), (0x11#8, s.audioOffset), (0x12#8, s.outCapacity),
        (0x13#8, BitVec.ofNat 32 ((statusCode s.lastStatus).toNat + 256 * s.errorSeen.toNat))] →
      exec (.csrRead n) s = .next { s with output := s.output ++ (be32 0 ++ be32 v) }) ∧
    (∀ n : BitVec 8, 0x13 < n.toNat → exec (.csrRead n) s = .next (failed .illegalCommand s))

/-- R322 and R323: `CSR_WRITE` stores a legal value in one of the three RW CSRs and changes nothing else; an illegal
value raises `CONFIGURATION_ERROR`, any other CSR `ILLEGAL_COMMAND`. -/
def Obligations.CsrWriteResult : Prop :=
  ∀ (s : State) (n : BitVec 8) (v : Word),
    (n = 0x10 → 50 ≤ v.toNat → exec (.csrWrite n v) s = .next (answered 0 [] { s with sampleRate := v })) ∧
    (n = 0x10 → v.toNat < 50 → exec (.csrWrite n v) s = .next (failed .configurationError s)) ∧
    (n = 0x11 → v.toNat < 0x7F800000 → exec (.csrWrite n v) s = .next (answered 0 [] { s with audioOffset := v })) ∧
    (n = 0x11 → 0x7F800000 ≤ v.toNat → exec (.csrWrite n v) s = .next (failed .configurationError s)) ∧
    (n = 0x12 → v.toNat < 2 ^ 28 → exec (.csrWrite n v) s = .next (answered 0 [] { s with outCapacity := v })) ∧
    (n = 0x12 → 2 ^ 28 ≤ v.toNat → exec (.csrWrite n v) s = .next (failed .configurationError s)) ∧
    (n ∉ ([0x10, 0x11, 0x12] : List (BitVec 8)) → exec (.csrWrite n v) s = .next (failed .illegalCommand s))

/-- R44 and R360: reset sets every field to its value, whatever the state before; the parameters do not change and
undelivered response bytes are dropped. -/
def Obligations.ResetSetsEveryField : Prop :=
  ∀ s : State,
    let t := applyReset s
    t.wpm = none ∧ t.polarity = true ∧ t.headerSent = false ∧ t.endPending = false ∧ t.bb = [] ∧ t.ex = [] ∧
    t.sampleRate = 0 ∧ t.audioOffset = 0 ∧ t.outCapacity = 0 ∧ t.lastStatus = .ok ∧ t.errorSeen = false ∧
    t.params = s.params ∧ t.output = []

/-! ## Frame and symbol rows -/

/-- THE MODEL'S CHOICE, log 3 (and log 5 for the tags without a payload): a frame row performed alone appends its
layout of R101 to the builder as `BB_ADD` appends bits, and raises `CAPACITY_EXCEEDED` where it does not fit. A delta
frame needs a WPM, and uses the width of that WPM. -/
def Obligations.FrameRowsAppendTheirLayout : Prop :=
  ∀ s : State,
    let placed := fun (i : Instr) (bits : Bits) =>
      (s.bb.length + bits.length ≤ s.params.blockBits →
        exec i s = .next (answered (s.params.blockBits - (s.bb.length + bits.length)) [] { s with bb := s.bb ++ bits })) ∧
      (s.params.blockBits < s.bb.length + bits.length → exec i s = .next (failed .capacityExceeded s))
    let coded := fun (width : Nat) (x : Int) => bitsN (width + 1) (BitVec.ofInt (width + 1) x).toNat
    placed .padding [false, false, false, false] ∧
    (∀ (w : BitVec 6) (b : Bool),
      placed (.wpmPolarity w b) ([false, false, false, true] ++ bitsN 6 w.toNat ++ [b])) ∧
    placed .callsignMetadata [false, false, true, false] ∧
    placed .callsignHashMetadata [false, false, true, true] ∧
    placed .locatorMetadata [false, true, false, false] ∧
    placed .powerMetadata [false, true, false, true] ∧
    placed .keyingPerfectDit [false, true, true, false] ∧
    placed .keyingPerfectDah [false, true, true, true] ∧
    placed .keyingPerfectWordgap [true, false, false, false] ∧
    placed .keyingEnd [true, false, false, true] ∧
    (∀ d : BitVec 11, placed (.keyingNaive d) ([true, true, false, true] ++ bitsN 11 d.toNat)) ∧
    placed .unused [true, true, true, false] ∧
    placed .extension [true, true, true, true] ∧
    (∀ (w : Nat) (x : Int), s.wpm = some w →
      (deltaFits x (ditWidth w) = true →
        placed (.keyingDeltaDit x) ([true, false, true, false] ++ coded (ditWidth w) x)) ∧
      (deltaFits x (dahWidth s.params.dahPolicy w x) = true →
        placed (.keyingDeltaDah x) ([true, false, true, true] ++ coded (dahWidth s.params.dahPolicy w x) x)) ∧
      (deltaFits x (wordgapWidth w) = true →
        placed (.keyingDeltaWordgap x) ([true, true, false, false] ++ coded (wordgapWidth w) x)))

/-- THE MODEL'S CHOICE, log 4: a tone row performed alone is modulated as a `GFSK_MOD` of that one tone (R302), a ramp
row as one of no tone, which answers 0 samples in every state (R293, R365). -/
def Obligations.SymbolRowsAreModulated : Prop :=
  ∀ s : State,
    (∀ (i : Instr) (t : BitVec 4), symbolOf i = some (.tone t) → 50 ≤ s.sampleRate.toNat →
      4 * s.sampleRate.toNat / 25 ≤ s.outCapacity.toNat →
      ∃ samples : List Word, samples.length = 4 * s.sampleRate.toNat / 25 ∧
        samples = waveform s.params.gfskTol (gfskRequest false false [t.setWidth 8] s) ∧
        exec i s = .next (answered (4 * s.sampleRate.toNat / 25) (samples.flatMap be32) s)) ∧
    (∀ (i : Instr), i ∈ [Instr.tone0, .tone1, .tone2, .tone3, .tone4, .tone5, .tone6, .tone7, .tone8, .tone9, .tone10,
        .tone11, .tone12, .tone13, .tone14, .tone15] → ∃ t, symbolOf i = some (.tone t)) ∧
    exec .rampUp s = .next (answered 0 [] s) ∧
    exec .rampDown s = .next (answered 0 [] s)
end

