-- ==== Sys2Proof/Laws/Bits.lean ====
section
/-! SUPPORT. Bit strings and the numbers and bytes they spell (R9). -/

namespace Sys2Proof.Machine

@[simp] theorem length_bitsN (n v : Nat) : (bitsN n v).length = n := by
  induction n with
  | zero => rfl
  | succ n ih => simp [bitsN, ih]

@[simp] theorem length_zeros (n : Nat) : (zeros n).length = n := by simp [zeros]

@[simp] theorem length_byteBits (b : Byte) : (byteBits b).length = 8 := length_bitsN 8 _

@[simp] theorem length_bitsOf (bytes : List Byte) : (bitsOf bytes).length = 8 * bytes.length := by
  induction bytes with
  | nil => rfl
  | cons b bytes ih =>
    have h : bitsOf (b :: bytes) = byteBits b ++ bitsOf bytes := rfl
    simp [h, ih]; omega

theorem num_append (a b : Bits) : num (a ++ b) = num a * 2 ^ b.length + num b := by
  induction a with
  | nil => simp [num]
  | cons x a ih => simp [num, ih, pow_add]; ring

theorem num_lt (s : Bits) : num s < 2 ^ s.length := by
  induction s with
  | nil => simp [num]
  | cons b s ih =>
    have h : b.toNat ≤ 1 := Bool.toNat_le b
    have : b.toNat * 2 ^ s.length ≤ 2 ^ s.length := by nlinarith [Nat.two_pow_pos s.length]
    simp only [num, List.length_cons, pow_succ]; omega

/-- `num(bitsN(v)) = v mod 2^N` (R9). -/
@[simp] theorem num_bitsN (n v : Nat) : num (bitsN n v) = v % 2 ^ n := by
  induction n with
  | zero => simp [bitsN, num, Nat.mod_one]
  | succ n ih =>
    have ht : (v.testBit n).toNat = v / 2 ^ n % 2 := by
      rw [Nat.testBit_eq_decide_div_mod_eq]
      rcases Nat.mod_two_eq_zero_or_one (v / 2 ^ n) with h | h <;> simp [h]
    rw [bitsN, num, ih, length_bitsN, ht, pow_succ, Nat.mod_mul, Nat.add_comm, Nat.mul_comm]

/-- A bit string is the string of the number it spells (R9). -/
@[simp] theorem bitsN_num (s : Bits) : bitsN s.length (num s) = s := by
  induction s with
  | nil => rfl
  | cons b s ih =>
    have h := num_lt s
    rw [List.length_cons, bitsN, num]
    have hb : (b.toNat * 2 ^ s.length + num s).testBit s.length = b := by
      rw [Nat.mul_comm, Nat.testBit_two_pow_mul_add _ h]; cases b <;> simp
    have hr : bitsN s.length (b.toNat * 2 ^ s.length + num s) = bitsN s.length (num s) := by
      have key : ∀ k n v w : Nat, k ≤ n → bitsN k (v * 2 ^ n + w) = bitsN k w := by
        intro k n v w
        induction k with
        | zero => intro _; rfl
        | succ k ihk =>
          intro hk
          have ht : (v * 2 ^ n + w).testBit k = w.testBit k := by
            rw [Nat.testBit_eq_decide_div_mod_eq, Nat.testBit_eq_decide_div_mod_eq]
            obtain ⟨d, rfl⟩ : ∃ d, n = k + 1 + d := ⟨n - (k + 1), by omega⟩
            have : v * 2 ^ (k + 1 + d) + w = w + 2 ^ k * (2 * (v * 2 ^ d)) := by
              rw [pow_add, pow_succ]; ring
            rw [this, Nat.add_mul_div_left _ _ (Nat.two_pow_pos k), Nat.add_mul_mod_self_left]
          rw [bitsN, bitsN, ht, ihk (by omega)]
      exact key s.length s.length b.toNat (num s) (le_refl _)
    rw [hb, hr, ih]

/-- Reading the bits of bytes back as bytes (R9). -/
@[simp] theorem bytesOf_bitsOf_append (bytes : List Byte) (s : Bits) :
    bytesOf (bitsOf bytes ++ s) = bytes ++ bytesOf s := by
  induction bytes with
  | nil => rfl
  | cons b bytes ih =>
    have h : bitsOf (b :: bytes) = byteBits b ++ bitsOf bytes := rfl
    have hb : BitVec.ofNat 8 (num (byteBits b)) = b := by
      apply BitVec.eq_of_toNat_eq; simp [byteBits, num_bitsN, Nat.mod_eq_of_lt b.isLt]
    rw [h, List.append_assoc]
    have : ∀ t : Bits, bytesOf (byteBits b ++ t) = BitVec.ofNat 8 (num (byteBits b)) :: bytesOf t := fun _ => rfl
    rw [this, ih, hb]; rfl

@[simp] theorem bytesOf_bitsOf (bytes : List Byte) : bytesOf (bitsOf bytes) = bytes := by
  have h := bytesOf_bitsOf_append bytes []
  simpa [bytesOf] using h

/-- A bit string of whole bytes is the bits of its bytes, and has as many bytes as it should (R9). -/
theorem bitsOf_bytesOf : ∀ (n : Nat) (s : Bits), s.length = 8 * n →
    bitsOf (bytesOf s) = s ∧ (bytesOf s).length = n
  | 0, s, h => by
    have : s = [] := List.length_eq_zero_iff.mp (by omega)
    subst this; exact ⟨rfl, rfl⟩
  | n + 1, s, h => by
    match s, h with
    | b0 :: b1 :: b2 :: b3 :: b4 :: b5 :: b6 :: b7 :: s, h =>
      have ih := bitsOf_bytesOf n s (by simp at h; omega)
      have hl : num [b0, b1, b2, b3, b4, b5, b6, b7] < 2 ^ 8 := num_lt _
      have hn := bitsN_num [b0, b1, b2, b3, b4, b5, b6, b7]
      have hb : byteBits (BitVec.ofNat 8 (num [b0, b1, b2, b3, b4, b5, b6, b7])) =
          [b0, b1, b2, b3, b4, b5, b6, b7] := by
        rw [byteBits, BitVec.toNat_ofNat, Nat.mod_eq_of_lt hl]; exact hn
      constructor
      · change byteBits _ ++ bitsOf (bytesOf s) = _
        rw [hb, ih.1]; rfl
      · simp [bytesOf, ih.2]

end Sys2Proof.Machine
end

