-- ==== Sys2Proof/Laws/FixedReal.lean ====
section
/-! SUPPORT. The fixed point of Machine/Fixed.lean against the real numbers (log 7): what a series summed with floored
terms is off by, and with it the sine, the cosine, `pi` and `ln 2`. -/

namespace Sys2Proof.Machine
open Real

/-- A floored quotient of naturals is within 1 of the real quotient. -/
theorem natDiv_near (a b : ℕ) : |((a / b : ℕ) : ℝ) - (a : ℝ) / b| ≤ 1 := by
  have h1 := Nat.floor_div_eq_div (K := ℝ) a b
  have h2 := Nat.floor_le (show (0 : ℝ) ≤ (a : ℝ) / b by positivity)
  have h3 := Nat.lt_floor_add_one ((a : ℝ) / b)
  rw [h1] at h2 h3
  rw [abs_le]; constructor <;> linarith

theorem intDiv_near (a : ℤ) (b : ℕ) (hb : 0 < b) : |((a / (b : ℤ) : ℤ) : ℝ) - (a : ℝ) / b| ≤ 1 := by
  have hb' : (0 : ℝ) < b := by exact_mod_cast hb
  have h1 : ((a / (b : ℤ) : ℤ) : ℝ) * b ≤ a := by
    exact_mod_cast Int.ediv_mul_le a (by omega)
  have h2 : (a : ℝ) < (((a / (b : ℤ) : ℤ) : ℝ) + 1) * b := by
    exact_mod_cast Int.lt_ediv_add_one_mul_self a (by omega)
  have h3 : ((a / (b : ℤ) : ℤ) : ℝ) ≤ (a : ℝ) / b := (le_div_iff₀ hb').2 h1
  have h4 : (a : ℝ) / b < ((a / (b : ℤ) : ℤ) : ℝ) + 1 := (div_lt_iff₀ hb').2 h2
  rw [abs_le]; constructor <;> linarith

/-- A series summed with floored terms, against the linear function of its first term that it approximates. -/
theorem series_error {σ : ℤ} (hσ : |σ| = 1) {f : ℕ → ℕ → ℕ → ℤ} {out next : ℕ → ℕ → ℕ} {P : ℕ → ℕ → ℕ → Prop}
    {c w ρ : ℕ → ℝ} {C : ℝ}
    (f0 : ∀ n t, f 0 n t = 0)
    (fs : ∀ m n t, f (m + 1) n t = if t = 0 then 0 else (out n t : ℤ) + σ * f m (n + 1) (next n t))
    (hout : ∀ n t, |((out n t : ℕ) : ℝ) - w n * t| ≤ 1)
    (hnext : ∀ n t, |((next n t : ℕ) : ℝ) - ρ n * t| ≤ 1)
    (hc : ∀ n, c n = w n + σ * (ρ n * c (n + 1))) (hC : ∀ n, |c n| ≤ C)
    (hP0 : ∀ n t, P 0 n t → t = 0) (hP : ∀ m n t, P (m + 1) n t → P m (n + 1) (next n t)) :
    ∀ m n t, P m n t → |(f m n t : ℝ) - t * c n| ≤ m * (1 + C) := by
  have hC0 : 0 ≤ C := (abs_nonneg _).trans (hC 0)
  have hσ' : |(σ : ℝ)| = 1 := by exact_mod_cast hσ
  intro m
  induction m with
  | zero => intro n t h; rw [hP0 n t h, f0]; simp
  | succ m ih =>
    intro n t h
    rw [fs]
    by_cases ht : t = 0
    · subst ht; simp; positivity
    · simp only [ht, if_false]
      have h1 := ih (n + 1) (next n t) (hP m n t h)
      have e : ((((out n t : ℕ) : ℤ) + σ * f m (n + 1) (next n t) : ℤ) : ℝ) - t * c n =
          (((out n t : ℕ) : ℝ) - w n * t) + σ * ((f m (n + 1) (next n t) : ℝ) - next n t * c (n + 1))
            + σ * ((((next n t : ℕ) : ℝ) - ρ n * t) * c (n + 1)) := by
        rw [hc n]; push_cast; ring
      rw [e]
      have h2 : |(σ : ℝ) * ((f m (n + 1) (next n t) : ℝ) - next n t * c (n + 1))| ≤ m * (1 + C) := by
        rw [abs_mul, hσ', one_mul]; exact h1
      have h3 : |(σ : ℝ) * ((((next n t : ℕ) : ℝ) - ρ n * t) * c (n + 1))| ≤ C := by
        rw [abs_mul, hσ', one_mul, abs_mul]
        calc _ ≤ 1 * C := mul_le_mul (hnext n t) (hC _) (abs_nonneg _) (by norm_num)
          _ = C := one_mul C
      calc _ ≤ |((out n t : ℕ) : ℝ) - w n * t| + |(σ : ℝ) * ((f m (n + 1) (next n t) : ℝ) - next n t * c (n + 1))|
            + |(σ : ℝ) * ((((next n t : ℕ) : ℝ) - ρ n * t) * c (n + 1))| := abs_add_three _ _ _
        _ ≤ 1 + m * (1 + C) + C := by gcongr; exact hout n t
        _ = ((m + 1 : ℕ) : ℝ) * (1 + C) := by push_cast; ring

/-! ## The sine and the cosine -/

/-- The value of `trigSeries` from `k` on, for a first term 1. -/
noncomputable def trigCoeff (x : ℝ) (k : ℕ) : ℝ := ∑' j : ℕ, (-1) ^ j * (x ^ (2 * j) * k.factorial / (k + 2 * j).factorial)

theorem trig_bound (x : ℝ) (k j : ℕ) :
    |(-1) ^ j * (x ^ (2 * j) * k.factorial / (k + 2 * j).factorial)| ≤ x ^ (2 * j) / (2 * j).factorial := by
  have hx : 0 ≤ x ^ (2 * j) := by rw [pow_mul]; positivity
  rw [abs_mul, abs_pow, abs_neg, abs_one, one_pow, one_mul, abs_of_nonneg (by positivity)]
  have h : (k.factorial * (2 * j).factorial : ℝ) ≤ (k + 2 * j).factorial := by
    exact_mod_cast Nat.le_of_dvd (Nat.factorial_pos _) (Nat.factorial_mul_factorial_dvd_factorial_add k (2 * j))
  rw [div_le_div_iff₀ (by positivity) (by positivity)]
  calc x ^ (2 * j) * k.factorial * (2 * j).factorial = x ^ (2 * j) * (k.factorial * (2 * j).factorial) := by ring
    _ ≤ _ := by gcongr

theorem trig_summable (x : ℝ) (k : ℕ) :
    Summable fun j : ℕ => (-1) ^ j * (x ^ (2 * j) * k.factorial / (k + 2 * j).factorial) :=
  Summable.of_norm_bounded (Real.hasSum_cosh x).summable (fun j => trig_bound x k j)

theorem trigCoeff_abs (x : ℝ) (k : ℕ) : |trigCoeff x k| ≤ Real.cosh x := by
  unfold trigCoeff
  rw [← Real.norm_eq_abs]
  exact tsum_of_norm_bounded (Real.hasSum_cosh x) (fun j => trig_bound x k j)

theorem trigCoeff_step (x : ℝ) (k : ℕ) :
    trigCoeff x k = 1 - x ^ 2 / ((k + 1) * (k + 2)) * trigCoeff x (k + 2) := by
  unfold trigCoeff
  rw [(trig_summable x k).tsum_eq_zero_add, ← tsum_mul_left, sub_eq_add_neg, ← tsum_neg]
  congr 1
  · simp [Nat.factorial_ne_zero]
  · apply tsum_congr; intro j
    have e : k + 2 * (j + 1) = k + 2 + 2 * j := by ring
    rw [e, Nat.factorial_succ (k + 1), Nat.factorial_succ k]
    push_cast
    field_simp
    ring

theorem trigCoeff_zero (x : ℝ) : trigCoeff x 0 = Real.cos x := by
  rw [Real.cos_eq_tsum]; unfold trigCoeff
  apply tsum_congr; intro j; simp; ring

theorem trigCoeff_one (x : ℝ) : x * trigCoeff x 1 = Real.sin x := by
  rw [Real.sin_eq_tsum]; unfold trigCoeff
  rw [← tsum_mul_left]
  apply tsum_congr; intro j; simp [Nat.add_comm 1]; ring

theorem cosh_two : Real.cosh 2 ≤ 8 := by
  have h := Real.cosh_le_exp_half_sq 2
  have h1 : Real.exp 2 ≤ 8 := by
    have := Real.exp_one_lt_d9
    have e : Real.exp 2 = Real.exp 1 * Real.exp 1 := by rw [← Real.exp_add]; norm_num
    rw [e]; nlinarith [Real.exp_pos 1]
  have : (2:ℝ)^2/2 = 2 := by norm_num
  rw [this] at h; linarith


theorem fixOne_pos (b : ℕ) : 0 < fixOne b := by unfold fixOne; positivity
theorem fixOne_real_pos (b : ℕ) : (0 : ℝ) < fixOne b := by exact_mod_cast fixOne_pos b

/-- The next term of `trigSeries` against the real one. -/
theorem trig_next_near (b x k t : ℕ) :
    |((t * (x * x) / (fixOne b * fixOne b * ((k + 1) * (k + 2))) : ℕ) : ℝ)
      - ((x : ℝ) / fixOne b) ^ 2 / (((k : ℝ) + 1) * (k + 2)) * t| ≤ 1 := by
  have h := natDiv_near (t * (x * x)) (fixOne b * fixOne b * ((k + 1) * (k + 2)))
  have hF := (fixOne_real_pos b)
  have e : ((t * (x * x) : ℕ) : ℝ) / ((fixOne b * fixOne b * ((k + 1) * (k + 2)) : ℕ) : ℝ) =
      ((x : ℝ) / fixOne b) ^ 2 / (((k : ℝ) + 1) * (k + 2)) * t := by
    push_cast; field_simp
  rwa [e] at h

/-- The error of `trigSeries` from its first or its zeroth term on. -/
theorem trigSeries_error {b x k t m : ℕ} (hx : x ≤ 2 * fixOne b) (ht : 4 * t < 2 ^ m) :
    |(trigSeries b x m k t : ℝ) - t * trigCoeff ((x : ℝ) / fixOne b) k| ≤ m * 9 := by
  have hX0 : (0 : ℝ) ≤ (x : ℝ) / fixOne b := by positivity
  have hX2 : (x : ℝ) / fixOne b ≤ 2 := by
    rw [div_le_iff₀ (fixOne_real_pos b)]; exact_mod_cast hx
  have main := series_error (σ := -1) (by norm_num)
    (f := fun m n t => trigSeries b x m (k + 2 * n) t) (out := fun _ t => t)
    (next := fun n t => t * (x * x) / (fixOne b * fixOne b * ((k + 2 * n + 1) * (k + 2 * n + 2))))
    (P := fun m n t => (if n = 0 then 4 * t else t) < 2 ^ m)
    (c := fun n => trigCoeff ((x : ℝ) / fixOne b) (k + 2 * n)) (w := fun _ => 1)
    (ρ := fun n => ((x : ℝ) / fixOne b) ^ 2 / ((((k + 2 * n : ℕ) : ℝ) + 1) * (((k + 2 * n : ℕ) : ℝ) + 2)))
    (C := 8)
    (fun _ _ => rfl)
    (fun m n t => by
      show trigSeries b x (m + 1) _ _ = _
      rw [trigSeries]
      split
      · rfl
      · rw [show k + 2 * (n + 1) = k + 2 * n + 2 by ring]; ring)
    (fun n t => by simp)
    (fun n t => trig_next_near b x (k + 2 * n) t)
    (fun n => by
      have h := trigCoeff_step ((x : ℝ) / fixOne b) (k + 2 * n)
      rw [show k + 2 * (n + 1) = k + 2 * n + 2 by ring]
      push_cast at h ⊢
      rw [h]; ring)
    (fun n => (trigCoeff_abs _ _).trans (by
      refine le_trans (Real.cosh_le_cosh.2 ?_) cosh_two
      rw [abs_of_nonneg hX0, abs_of_nonneg (by norm_num)]; exact hX2))
    (fun n t h => by
      simp only [pow_zero] at h
      split at h <;> omega)
    (fun m n t h => by
      simp only [Nat.succ_ne_zero, if_false]
      have hxx : x * x ≤ fixOne b * fixOne b * 4 := by nlinarith
      have hp : (2 : ℕ) ^ (m + 1) = 2 * 2 ^ m := by ring
      rw [Nat.div_lt_iff_lt_mul (by have := (fixOne_pos b); positivity)]
      by_cases hn : n = 0
      · subst hn
        simp only [if_true] at h
        have h3 : 2 ≤ (k + 2 * 0 + 1) * (k + 2 * 0 + 2) := by nlinarith
        have h4 : 2 * t < 2 ^ m := by omega
        have := (fixOne_pos b)
        calc t * (x * x) ≤ t * (fixOne b * fixOne b * 4) := Nat.mul_le_mul_left _ hxx
          _ = (2 * t) * (fixOne b * fixOne b * 2) := by ring
          _ < 2 ^ m * (fixOne b * fixOne b * 2) := Nat.mul_lt_mul_of_pos_right h4 (by positivity)
          _ ≤ _ := Nat.mul_le_mul_left _ (Nat.mul_le_mul_left _ h3)
      · simp only [hn, if_false] at h
        have h3 : 8 ≤ (k + 2 * n + 1) * (k + 2 * n + 2) := by
          have : 1 ≤ n := Nat.one_le_iff_ne_zero.2 hn
          nlinarith
        have := (fixOne_pos b)
        calc t * (x * x) ≤ t * (fixOne b * fixOne b * 4) := Nat.mul_le_mul_left _ hxx
          _ < 2 ^ (m + 1) * (fixOne b * fixOne b * 4) := Nat.mul_lt_mul_of_pos_right h (by positivity)
          _ = 2 ^ m * (fixOne b * fixOne b * 8) := by rw [hp]; ring
          _ ≤ _ := Nat.mul_le_mul_left _ (Nat.mul_le_mul_left _ h3))
    m 0 t (by simpa using ht)
  norm_num at main
  exact main

/-- A bound on the number of floored operations that any constant or function below makes with `b` fraction bits. -/
def loss (b : ℕ) : ℕ := b + 10000

theorem loss_eq (b : ℕ) : (loss b : ℝ) = b + 10000 := by simp [loss]

/-- At the precisions used, the errors are far below 1. -/
theorem loss_small {b : ℕ} (hb : 1536 ≤ b) {k : ℕ} (hk : k ≤ 1500) : loss b * 2 ^ k ≤ fixOne b := by
  obtain ⟨m, rfl⟩ := Nat.exists_eq_add_of_le hb
  have h1 : loss (1536 + m) ≤ 2 ^ 14 * 2 ^ m := by
    have := Nat.lt_two_pow_self (n := m)
    unfold loss; omega
  calc _ ≤ 2 ^ 14 * 2 ^ m * 2 ^ k := Nat.mul_le_mul_right _ h1
    _ = 2 ^ (14 + m + k) := by rw [pow_add, pow_add]
    _ ≤ fixOne (1536 + m) := Nat.pow_le_pow_right (by norm_num) (by omega)

theorem fixSin_error {b x : ℕ} (hx : x ≤ 2 * fixOne b) :
    |(fixSin b x : ℝ) - fixOne b * Real.sin ((x : ℝ) / fixOne b)| ≤ 9 * loss b := by
  have h := trigSeries_error (m := b + 4) (t := x) (k := 1) hx (by
    have h1 : fixOne b = 2 ^ b := rfl
    rw [pow_add]; have := fixOne_pos b; omega)
  have e : (x : ℝ) * trigCoeff ((x : ℝ) / fixOne b) 1 = fixOne b * Real.sin ((x : ℝ) / fixOne b) := by
    rw [← trigCoeff_one]; have := (fixOne_real_pos b).ne'; field_simp
  rw [e] at h
  refine h.trans ?_
  rw [loss_eq]; push_cast; linarith

theorem fixCos_error {b x : ℕ} (hx : x ≤ 2 * fixOne b) :
    |(fixCos b x : ℝ) - fixOne b * Real.cos ((x : ℝ) / fixOne b)| ≤ 9 * loss b := by
  have h := trigSeries_error (m := b + 4) (t := fixOne b) (k := 0) hx (by
    have h1 : fixOne b = 2 ^ b := rfl
    rw [pow_add]; have := fixOne_pos b; omega)
  rw [trigCoeff_zero] at h
  refine h.trans ?_
  rw [loss_eq]; push_cast; linarith

/-! ## Geometric-like series: pi and ln 2 -/

/-- `1/(2n+1) + s q / (2n+3) + (s q)^2 / (2n+5) + ...`, with `s = 1` or `-1`. -/
noncomputable def oddCoeff (s q : ℝ) (n : ℕ) : ℝ := ∑' j : ℕ, (s * q) ^ j / (2 * (n + j) + 1)

theorem odd_bound {s q : ℝ} (hs : |s| = 1) (hq0 : 0 ≤ q) (n j : ℕ) :
    |(s * q) ^ j / (2 * ((n : ℝ) + j) + 1)| ≤ q ^ j := by
  rw [abs_div, abs_pow, abs_mul, hs, one_mul, abs_of_nonneg hq0]
  have h : (1 : ℝ) ≤ |2 * ((n : ℝ) + j) + 1| := by
    rw [abs_of_nonneg (by positivity)]
    have : (0 : ℝ) ≤ (n : ℝ) + j := by positivity
    linarith
  exact div_le_self (by positivity) h

theorem odd_summable {s q : ℝ} (hs : |s| = 1) (hq0 : 0 ≤ q) (hq : q ≤ 1 / 2) (n : ℕ) :
    Summable fun j : ℕ => (s * q) ^ j / (2 * ((n : ℝ) + j) + 1) :=
  Summable.of_norm_bounded (summable_geometric_of_lt_one hq0 (by linarith)) (fun j => odd_bound hs hq0 n j)

theorem oddCoeff_abs {s q : ℝ} (hs : |s| = 1) (hq0 : 0 ≤ q) (hq : q ≤ 1 / 2) (n : ℕ) : |oddCoeff s q n| ≤ 2 := by
  unfold oddCoeff
  rw [← Real.norm_eq_abs]
  have h := tsum_of_norm_bounded (f := fun j : ℕ => (s * q) ^ j / (2 * ((n : ℝ) + j) + 1))
    (hasSum_geometric_of_lt_one hq0 (by linarith)) (fun j => odd_bound hs hq0 n j)
  refine h.trans ?_
  rw [inv_le_comm₀ (by linarith) (by norm_num)]; linarith

theorem oddCoeff_step {s q : ℝ} (hs : |s| = 1) (hq0 : 0 ≤ q) (hq : q ≤ 1 / 2) (n : ℕ) :
    oddCoeff s q n = 1 / (2 * n + 1) + s * (q * oddCoeff s q (n + 1)) := by
  unfold oddCoeff
  rw [(odd_summable hs hq0 hq n).tsum_eq_zero_add, ← tsum_mul_left, ← tsum_mul_left]
  congr 1
  · simp
  · apply tsum_congr; intro j; push_cast; rw [show 2 * ((n : ℝ) + (j + 1)) + 1 = 2 * (n + 1 + j) + 1 by ring]; ring

/-- The error of a series whose terms shrink by a whole divisor of at least 2. -/
theorem odd_error {σ : ℤ} (hσ : |σ| = 1) {d : ℕ} (hd : 2 ≤ d) {f : ℕ → ℕ → ℕ → ℤ} (f0 : ∀ n t, f 0 n t = 0)
    (fs : ∀ m n t, f (m + 1) n t = if t = 0 then 0 else ((t / (2 * n + 1) : ℕ) : ℤ) + σ * f m (n + 1) (t / d))
    {m t : ℕ} (ht : t < 2 ^ m) : |(f m 0 t : ℝ) - t * oddCoeff σ (1 / d) 0| ≤ m * 3 := by
  have hs : |(σ : ℝ)| = 1 := by exact_mod_cast hσ
  have hq0 : (0 : ℝ) ≤ 1 / d := by positivity
  have hq : (1 : ℝ) / d ≤ 1 / 2 := by
    apply one_div_le_one_div_of_le (by norm_num); exact_mod_cast hd
  have main := series_error hσ (f := f) (out := fun n t => t / (2 * n + 1)) (next := fun _ t => t / d)
    (P := fun m _ t => t < 2 ^ m) (c := oddCoeff σ (1 / d)) (w := fun n => 1 / (2 * n + 1)) (ρ := fun _ => 1 / d) (C := 2)
    f0 fs
    (fun n t => by
      have h := natDiv_near t (2 * n + 1)
      push_cast at h ⊢
      rw [one_div_mul_eq_div]; exact h)
    (fun n t => by
      have h := natDiv_near t d
      rw [one_div_mul_eq_div]; exact h)
    (fun n => oddCoeff_step hs hq0 hq n) (fun n => oddCoeff_abs hs hq0 hq n)
    (fun n t h => by simpa using h)
    (fun m n t h => by
      rw [Nat.div_lt_iff_lt_mul (by omega)]
      calc t < 2 ^ (m + 1) := h
        _ = 2 ^ m * 2 := pow_succ _ _
        _ ≤ 2 ^ m * d := Nat.mul_le_mul_left _ hd)
    m 0 t ht
  calc _ ≤ (m : ℝ) * (1 + 2) := main
    _ = m * 3 := by norm_num

/-- `atanInverse` is the arc tangent of `1 / m` to within `3 * loss b` units. -/
theorem atanInverse_error (b : ℕ) {m : ℕ} (hm : 2 ≤ m) :
    |(atanInverse m (b + 1) 1 (fixOne b / m) : ℝ) - fixOne b * Real.arctan ((m : ℝ)⁻¹)| ≤ 3 * loss b := by
  have hm0 : (0 : ℝ) < m := by positivity
  have hq0 : (0 : ℝ) ≤ 1 / ((m * m : ℕ) : ℝ) := by positivity
  have hq : (1 : ℝ) / ((m * m : ℕ) : ℝ) ≤ 1 / 2 := by
    apply one_div_le_one_div_of_le (by norm_num); exact_mod_cast (by nlinarith : 2 ≤ m * m)
  have h1 := odd_error (σ := -1) (by norm_num) (d := m * m) (by nlinarith)
    (f := fun a n t => atanInverse m a (1 + 2 * n) t) (fun _ _ => rfl)
    (fun a n t => by
      show atanInverse m (a + 1) _ _ = _
      rw [atanInverse]
      split
      · rfl
      · rw [show 1 + 2 * (n + 1) = 1 + 2 * n + 2 by ring, show 2 * n + 1 = 1 + 2 * n by ring]; ring)
    (m := b + 1) (t := fixOne b / m)
    (lt_of_le_of_lt (Nat.div_le_self _ _) (Nat.pow_lt_pow_right (by norm_num) (by omega)))
  have hc : oddCoeff ((-1 : ℤ) : ℝ) (1 / ((m * m : ℕ) : ℝ)) 0 = m * Real.arctan ((m : ℝ)⁻¹) := by
    have ha := Real.hasSum_arctan (x := (m : ℝ)⁻¹) (by
      rw [Real.norm_eq_abs, abs_of_nonneg (by positivity)]
      apply inv_lt_one_of_one_lt₀; exact_mod_cast (by omega : 1 < m))
    rw [← ha.tsum_eq, ← tsum_mul_left]; unfold oddCoeff
    apply tsum_congr; intro j
    have h : (-1 * (1 / ((m : ℝ) * m))) ^ j = m * ((-1) ^ j * (m : ℝ)⁻¹ ^ (2 * j + 1)) := by
      rw [mul_pow, one_div, pow_succ, pow_mul, mul_inv, ← sq]; field_simp
    push_cast; rw [h]; ring_nf
  have hC := oddCoeff_abs (s := ((-1 : ℤ) : ℝ)) (by norm_num) hq0 hq 0
  have h2 := natDiv_near (fixOne b) m
  have e : (fixOne b : ℝ) * Real.arctan ((m : ℝ)⁻¹) =
      (fixOne b : ℝ) / m * oddCoeff ((-1 : ℤ) : ℝ) (1 / ((m * m : ℕ) : ℝ)) 0 := by rw [hc]; field_simp
  rw [e]
  have h3 : |(((fixOne b / m : ℕ) : ℝ) - (fixOne b : ℝ) / m) * oddCoeff ((-1 : ℤ) : ℝ) (1 / ((m * m : ℕ) : ℝ)) 0| ≤ 1 * 2 := by
    rw [abs_mul]; exact mul_le_mul h2 hC (abs_nonneg _) (by norm_num)
  generalize oddCoeff ((-1 : ℤ) : ℝ) (1 / ((m * m : ℕ) : ℝ)) 0 = K at h1 h3 ⊢
  have e2 : (atanInverse m (b + 1) 1 (fixOne b / m) : ℝ) - (fixOne b : ℝ) / m * K =
      ((atanInverse m (b + 1) 1 (fixOne b / m) : ℝ) - ((fixOne b / m : ℕ) : ℝ) * K)
        + (((fixOne b / m : ℕ) : ℝ) - (fixOne b : ℝ) / m) * K := by ring
  rw [e2]
  refine (abs_add_le _ _).trans ((add_le_add h1 h3).trans ?_)
  rw [loss_eq]; push_cast; linarith

theorem toNat_near {a : ℤ} {x e : ℝ} (hx : 0 ≤ x) (h : |(a : ℝ) - x| ≤ e) : |((a.toNat : ℕ) : ℝ) - x| ≤ e := by
  have h1 : ((a.toNat : ℕ) : ℝ) = max (a : ℝ) 0 := by
    rw [← Int.cast_natCast, Int.toNat_eq_max]; push_cast; rfl
  rw [h1, abs_le] at *
  constructor
  · exact h.1.trans (sub_le_sub_right (le_max_left _ _) _)
  · rw [sub_le_iff_le_add, max_le_iff]
    constructor <;> linarith [h.1, h.2]

/-- `fixPi` is `pi` to within `60 * loss b` units. -/
theorem fixPi_error (b : ℕ) : |(fixPi b : ℝ) - fixOne b * Real.pi| ≤ 60 * loss b := by
  have h5 := atanInverse_error b (m := 5) (by norm_num)
  have h239 := atanInverse_error b (m := 239) (by norm_num)
  have hM := Real.four_mul_arctan_inv_5_sub_arctan_inv_239
  have e : (fixOne b : ℝ) * Real.pi =
      16 * (fixOne b * Real.arctan (5 : ℝ)⁻¹) - 4 * (fixOne b * Real.arctan (239 : ℝ)⁻¹) := by
    have : Real.pi = 4 * (4 * Real.arctan (5 : ℝ)⁻¹ - Real.arctan (239 : ℝ)⁻¹) := by rw [hM]; ring
    rw [this]; ring
  unfold fixPi
  apply toNat_near (by have := Real.pi_pos; positivity)
  rw [e, Int.cast_sub, Int.cast_mul, Int.cast_mul]
  push_cast at h5 h239 ⊢
  rw [abs_le] at h5 h239 ⊢
  constructor <;> linarith [h5.1, h5.2, h239.1, h239.2]

/-- `fixLn2` is `ln 2` to within `2 * loss b` units. -/
theorem fixLn2_error (b : ℕ) : |(fixLn2 b : ℝ) - fixOne b * Real.log 2| ≤ 2 * loss b := by
  have h1 := odd_error (σ := 1) (by norm_num) (d := 9) (by norm_num)
    (f := fun a n t => (ln2Series a (1 + 2 * n) t : ℤ)) (fun _ _ => rfl)
    (fun a n t => by
      show ((ln2Series (a + 1) _ _ : ℕ) : ℤ) = _
      rw [ln2Series]
      split
      · rfl
      · rw [show 1 + 2 * (n + 1) = 1 + 2 * n + 2 by ring, show 2 * n + 1 = 1 + 2 * n by ring]; push_cast; ring)
    (m := b + 1) (t := fixOne b) (Nat.pow_lt_pow_right (by norm_num) (by omega))
  have hc : oddCoeff ((1 : ℤ) : ℝ) (1 / ((9 : ℕ) : ℝ)) 0 = 3 / 2 * Real.log 2 := by
    have ha := Real.hasSum_log_sub_log_of_abs_lt_one (x := 1 / 3) (by rw [abs_of_nonneg] <;> norm_num)
    have hl : Real.log 2 = Real.log (1 + 1 / 3) - Real.log (1 - 1 / 3) := by
      rw [← Real.log_div (by norm_num) (by norm_num)]; norm_num
    rw [hl, ← ha.tsum_eq, ← tsum_mul_left]; unfold oddCoeff
    apply tsum_congr; intro j
    push_cast; rw [one_mul, pow_succ, pow_mul]; norm_num; field_simp
  rw [hc] at h1
  have h2 := natDiv_near (2 * ln2Series (b + 1) 1 (fixOne b)) 3
  unfold fixLn2
  rw [loss_eq]
  push_cast at h1 h2 ⊢
  rw [abs_le] at h1 h2 ⊢
  constructor <;> linarith [h1.1, h1.2, h2.1, h2.2]

/-! ## Square roots -/

theorem squareRoot_spec {n : ℕ} : ∀ {i r : ℕ}, r ^ 2 ≤ n → n < (r + 2 ^ i) ^ 2 →
    squareRoot n i r ^ 2 ≤ n ∧ n < (squareRoot n i r + 1) ^ 2
  | 0, r, h1, h2 => by simpa [squareRoot] using And.intro h1 h2
  | i + 1, r, h1, h2 => by
    rw [squareRoot]
    split
    · rename_i h
      exact squareRoot_spec h (by rwa [add_assoc, ← two_mul, ← pow_succ'])
    · rename_i h
      exact squareRoot_spec h1 (by omega)

/-- The floored root of a floored quotient, over the reals. -/
theorem squareRoot_quotient {D d i : ℕ} (hd : 0 < d) (h : D / d < (2 ^ i) ^ 2) :
    (squareRoot (D / d) i 0 : ℝ) ^ 2 * d ≤ D ∧
    (D : ℝ) ≤ (squareRoot (D / d) i 0 : ℝ) ^ 2 * d + d * (2 * squareRoot (D / d) i 0 + 1) := by
  obtain ⟨h1, h2⟩ := squareRoot_spec (n := D / d) (i := i) (r := 0) (by simp) (by simpa using h)
  generalize squareRoot (D / d) i 0 = a at *
  constructor
  · exact_mod_cast (Nat.mul_le_mul_right d h1).trans (Nat.div_mul_le_self D d)
  · have h3 : D < (a + 1) ^ 2 * d := lt_of_lt_of_le (Nat.lt_div_mul_add hd) (by nlinarith)
    have h4 : (D : ℝ) ≤ ((a : ℝ) + 1) ^ 2 * d := by exact_mod_cast h3.le
    linarith

end Sys2Proof.Machine
end

