-- ==== Sys2Proof/Laws/ErfReal.lean ====
section
/-! SUPPORT. The pulse's constants and the error function of Machine/Fixed.lean against the real ones: `fixErf` is within
`2^708 * loss b` units of `2^-b` of `erf` (log 7). -/

namespace Sys2Proof.Machine
open Real

/-! ## The constants of the pulse -/

/-- From `a^2 p` close to `b^2 q` and `p` close to `q` to `a` close to `b`. -/
theorem close_of_square_close {a b p q m E1 E2 : ℝ} (ha : 0 ≤ a) (hb : 1 ≤ b) (hq : 1 / 2 ≤ q) (ha2 : a ^ 2 ≤ m)
    (h1 : |a ^ 2 * p - b ^ 2 * q| ≤ E1) (h2 : |p - q| ≤ E2) : |a - b| ≤ 2 * (E1 + m * E2) := by
  have hE2 : 0 ≤ E2 := (abs_nonneg _).trans h2
  have e : (a - b) * ((a + b) * q) = (a ^ 2 * p - b ^ 2 * q) - a ^ 2 * (p - q) := by ring
  have h3 : |(a - b) * ((a + b) * q)| ≤ E1 + m * E2 := by
    rw [e]
    calc _ ≤ |a ^ 2 * p - b ^ 2 * q| + |a ^ 2 * (p - q)| := abs_sub _ _
      _ ≤ E1 + m * E2 := by
        rw [abs_mul, abs_of_nonneg (sq_nonneg a)]
        gcongr
        exact (sq_nonneg a).trans ha2
  rw [abs_mul] at h3
  have h4 : 1 / 2 ≤ |(a + b) * q| := by
    rw [abs_of_nonneg (by positivity)]; nlinarith
  nlinarith [abs_nonneg (a - b)]

theorem div_fixOne_near {b : ℕ} {x y e : ℝ} (h : |x - fixOne b * y| ≤ e) : |x / fixOne b - y| ≤ e / fixOne b := by
  have hF := fixOne_real_pos b
  have e' : x / fixOne b - y = (x - fixOne b * y) / fixOne b := by field_simp
  rw [e', abs_div, abs_of_pos hF]
  gcongr

/-- At the precisions used, an error of few units is a small real number. -/
theorem loss_div_small {b : ℕ} (hb : 1536 ≤ b) {c : ℝ} (hc : c ≤ 2 ^ 90) :
    c * loss b / fixOne b ≤ 1 / 2 ^ 10 := by
  have h : (loss b : ℝ) * 2 ^ 100 ≤ fixOne b := by exact_mod_cast loss_small hb (k := 100) (by norm_num)
  have hl : (0 : ℝ) ≤ loss b := by positivity
  rw [div_le_div_iff₀ (fixOne_real_pos b) (by positivity), one_mul]
  calc c * loss b * 2 ^ 10 = (loss b : ℝ) * (c * 2 ^ 10) := by ring
    _ ≤ (loss b : ℝ) * (2 ^ 90 * 2 ^ 10) := by gcongr
    _ = (loss b : ℝ) * 2 ^ 100 := by rw [← pow_add]
    _ ≤ fixOne b := h

theorem one_le_loss (b : ℕ) : (1 : ℝ) ≤ loss b := by
  rw [loss_eq]; linarith [(b.cast_nonneg : (0 : ℝ) ≤ b)]

theorem fixPi_real (b : ℕ) : |(fixPi b : ℝ) / fixOne b - π| ≤ 60 * loss b / fixOne b := div_fixOne_near (fixPi_error b)

theorem fixLn2_real (b : ℕ) : |(fixLn2 b : ℝ) / fixOne b - Real.log 2| ≤ 2 * loss b / fixOne b :=
  div_fixOne_near (fixLn2_error b)

/-- `pi` in fixed point, roughly. -/
theorem fixPi_bounds {b : ℕ} (hb : 1536 ≤ b) : 3 * (fixOne b : ℝ) ≤ fixPi b ∧ (fixPi b : ℝ) ≤ 3.2 * fixOne b := by
  have hF := fixOne_real_pos b
  have h := (fixPi_real b).trans (loss_div_small hb (by norm_num))
  have h1 := Real.pi_gt_d2
  have h2 := Real.pi_lt_d2
  rw [abs_le] at h
  constructor
  · rw [← le_div_iff₀ hF]; norm_num at h h1 h2 ⊢; linarith [h.1]
  · rw [← div_le_iff₀ hF]; norm_num at h h1 h2 ⊢; linarith [h.2]

/-- `ln 2` in fixed point, roughly. -/
theorem fixLn2_bounds {b : ℕ} (hb : 1536 ≤ b) : 0.66 * (fixOne b : ℝ) ≤ fixLn2 b ∧ (fixLn2 b : ℝ) ≤ fixOne b := by
  have hF := fixOne_real_pos b
  have h := (fixLn2_real b).trans (loss_div_small hb (by norm_num))
  have h1 := Real.log_two_gt_d9
  have h2 := Real.log_two_lt_d9
  rw [abs_le] at h
  constructor
  · rw [← le_div_iff₀ hF]; norm_num at h h1 h2 ⊢; linarith [h.1]
  · rw [← div_le_one hF]; norm_num at h h1 h2 ⊢; linarith [h.2]

/-- `2 / sqrt pi` to within `2^9 * loss b` units; it is at most 2. -/
theorem fixErfScale_error {b : ℕ} (hb : 1536 ≤ b) :
    |(fixErfScale b : ℝ) - fixOne b * (2 / √π)| ≤ 2 ^ 9 * loss b ∧ (fixErfScale b : ℝ) / fixOne b ≤ 2 := by
  have hF := fixOne_real_pos b
  obtain ⟨hp1, hp2⟩ := fixPi_bounds hb
  have hp0' : (0 : ℝ) < fixPi b := by linarith
  have hp0 : 0 < fixPi b := by exact_mod_cast hp0'
  obtain ⟨h1, h2⟩ := squareRoot_quotient (D := 4 * fixOne b ^ 3) (i := b + 1) hp0 (by
    rw [Nat.div_lt_iff_lt_mul hp0, pow_succ 2 b, show (2 : ℕ) ^ b = fixOne b from rfl]
    have h : (4 : ℝ) * (fixOne b : ℝ) ^ 3 < ((fixOne b : ℝ) * 2) ^ 2 * fixPi b := by
      calc (4 : ℝ) * (fixOne b : ℝ) ^ 3 < 4 * (fixOne b : ℝ) ^ 2 * (3 * (fixOne b : ℝ)) := by nlinarith [pow_pos hF 3]
        _ ≤ 4 * (fixOne b : ℝ) ^ 2 * fixPi b := by gcongr
        _ = _ := by ring
    exact_mod_cast h)
  change (fixErfScale b : ℝ) ^ 2 * fixPi b ≤ _ at h1
  change _ ≤ (fixErfScale b : ℝ) ^ 2 * fixPi b + fixPi b * (2 * fixErfScale b + 1) at h2
  have h1F : (1 : ℝ) ≤ fixOne b := by exact_mod_cast fixOne_pos b
  push_cast at h1 h2
  have hm : ((fixErfScale b : ℝ) / fixOne b) ^ 2 ≤ 2 := by
    rw [div_pow, div_le_iff₀ (by positivity)]
    refine le_of_mul_le_mul_right (h1.trans ?_) hp0'
    calc (4 : ℝ) * (fixOne b : ℝ) ^ 3 ≤ 2 * (fixOne b : ℝ) ^ 2 * (3 * (fixOne b : ℝ)) := by nlinarith [pow_pos hF 3]
      _ ≤ _ := by gcongr
  have ha0 : (0 : ℝ) ≤ (fixErfScale b : ℝ) / fixOne b := by positivity
  have ha2 : (fixErfScale b : ℝ) / fixOne b ≤ 2 := by nlinarith
  refine ⟨?_, ha2⟩
  have haF : (fixErfScale b : ℝ) ≤ 2 * fixOne b := by rwa [div_le_iff₀ hF] at ha2
  have hpi := Real.pi_gt_three
  have hpi4 := Real.pi_le_four
  have hb2 : (2 / √π) ^ 2 * π = 4 := by rw [div_pow, Real.sq_sqrt pi_pos.le]; field_simp; norm_num
  have hb1 : 1 ≤ 2 / √π := by
    rw [le_div_iff₀ (by positivity), one_mul, Real.sqrt_le_left (by norm_num)]; norm_num; exact hpi4
  have h := close_of_square_close (a := (fixErfScale b : ℝ) / (fixOne b : ℝ)) (b := 2 / √π) (p := (fixPi b : ℝ) / (fixOne b : ℝ))
    (q := π) (m := 2) (E1 := 16 / fixOne b) ha0 hb1 (by linarith) hm
    (by
      have e : ((fixErfScale b : ℝ) / fixOne b) ^ 2 * (fixPi b / fixOne b) - (2 / √π) ^ 2 * π =
          ((fixErfScale b : ℝ) ^ 2 * fixPi b - 4 * fixOne b ^ 3) / fixOne b ^ 3 := by rw [hb2]; field_simp
      have h3 : (fixPi b : ℝ) * (2 * fixErfScale b + 1) ≤ 16 * (fixOne b : ℝ) ^ 2 := by
        calc _ ≤ (3.2 * fixOne b : ℝ) * (2 * (2 * (fixOne b : ℝ)) + (fixOne b : ℝ)) := by gcongr
          _ ≤ _ := by nlinarith [pow_pos hF 2]
      have h4 : |(fixErfScale b : ℝ) ^ 2 * fixPi b - 4 * (fixOne b : ℝ) ^ 3| ≤ 16 * (fixOne b : ℝ) ^ 2 := by
        rw [abs_le]; constructor <;> linarith [pow_pos hF 2]
      rw [e, abs_div, abs_of_pos (by positivity : (0 : ℝ) < (fixOne b : ℝ) ^ 3), div_le_div_iff₀ (by positivity) hF]
      calc _ ≤ 16 * (fixOne b : ℝ) ^ 2 * fixOne b := by gcongr
        _ = _ := by ring)
    (fixPi_real b)
  have e : (fixErfScale b : ℝ) - fixOne b * (2 / √π) = fixOne b * ((fixErfScale b : ℝ) / fixOne b - 2 / √π) := by
    field_simp
  have hl := one_le_loss b
  rw [e, abs_mul, abs_of_pos hF]
  calc _ ≤ (fixOne b : ℝ) * (2 * (16 / (fixOne b : ℝ) + 2 * (60 * loss b / (fixOne b : ℝ)))) := by gcongr
    _ = 2 * (16 + 2 * (60 * loss b)) := by field_simp
    _ ≤ 2 ^ 9 * loss b := by linarith

/-- `K * BT` to within `2^14 * loss b` units. -/
theorem fixGauss_error {b : ℕ} (hb : 1536 ≤ b) :
    |(fixGauss b : ℝ) - fixOne b * (realK * gfskBT)| ≤ 2 ^ 14 * loss b ∧ (fixGauss b : ℝ) ≤ 10.9 * fixOne b := by
  have hF := fixOne_real_pos b
  obtain ⟨hp1, hp2⟩ := fixPi_bounds hb
  obtain ⟨hl1, hl2⟩ := fixLn2_bounds hb
  have hl0' : (0 : ℝ) < fixLn2 b := by linarith
  have hl0 : 0 < fixLn2 b := by exact_mod_cast hl0'
  have hN : (8 : ℝ) * fixPi b ^ 2 * fixOne b < 128 * fixOne b ^ 2 * fixLn2 b := by
    calc (8 : ℝ) * fixPi b ^ 2 * (fixOne b : ℝ) ≤ 8 * (3.2 * (fixOne b : ℝ)) ^ 2 * fixOne b := by gcongr
      _ < 128 * (fixOne b : ℝ) ^ 2 * (0.66 * (fixOne b : ℝ)) := by nlinarith [pow_pos hF 3]
      _ ≤ _ := by gcongr
  obtain ⟨h1, h2⟩ := squareRoot_quotient (D := 8 * fixPi b ^ 2 * fixOne b) (i := b + 4) hl0 (by
    rw [Nat.div_lt_iff_lt_mul hl0, pow_add 2 b 4, show (2 : ℕ) ^ b = fixOne b from rfl]
    have h : (8 : ℝ) * fixPi b ^ 2 * (fixOne b : ℝ) < ((fixOne b : ℝ) * 2 ^ 4) ^ 2 * fixLn2 b := by
      refine hN.trans_le ?_
      rw [show ((fixOne b : ℝ) * 2 ^ 4 : ℝ) ^ 2 = 256 * (fixOne b : ℝ) ^ 2 by ring]; gcongr; norm_num
    exact_mod_cast h)
  change (fixGauss b : ℝ) ^ 2 * fixLn2 b ≤ _ at h1
  change _ ≤ (fixGauss b : ℝ) ^ 2 * fixLn2 b + fixLn2 b * (2 * fixGauss b + 1) at h2
  have h1F : (1 : ℝ) ≤ fixOne b := by exact_mod_cast fixOne_pos b
  push_cast at h1 h2
  have hm : ((fixGauss b : ℝ) / fixOne b) ^ 2 ≤ 128 := by
    rw [div_pow, div_le_iff₀ (by positivity)]
    exact le_of_mul_le_mul_right (h1.trans hN.le) hl0'
  have ha0 : (0 : ℝ) ≤ (fixGauss b : ℝ) / fixOne b := by positivity
  have ha2 : (fixGauss b : ℝ) / fixOne b ≤ 12 := by nlinarith
  have haF : (fixGauss b : ℝ) ≤ 12 * fixOne b := by rwa [div_le_iff₀ hF] at ha2
  have hl := Real.log_two_gt_d9
  have hl0'' : 0 < Real.log 2 := by linarith
  have hl1' : Real.log 2 < 0.7 := by have := Real.log_two_lt_d9; linarith
  have hpi := Real.pi_gt_three
  have hpi4 := Real.pi_le_four
  have hpi3 := Real.pi_lt_d4
  have hb2 : (realK * gfskBT) ^ 2 * Real.log 2 = 8 * π ^ 2 := by
    unfold realK gfskBT
    rw [mul_pow, mul_pow, Real.sq_sqrt (by positivity)]; field_simp; norm_num
  have hb1 : 1 ≤ realK * gfskBT := by
    unfold realK gfskBT
    have h1 : 1 ≤ √(2 / Real.log 2) := by
      rw [Real.one_le_sqrt, le_div_iff₀ hl0'']; linarith
    nlinarith
  have hp := fixPi_real b
  have hp' : |((fixPi b : ℝ) / fixOne b) ^ 2 - π ^ 2| ≤ 8 * (60 * loss b / fixOne b) := by
    have e : ((fixPi b : ℝ) / fixOne b) ^ 2 - π ^ 2 =
        ((fixPi b : ℝ) / fixOne b + π) * ((fixPi b : ℝ) / fixOne b - π) := by ring
    have h9 : |(fixPi b : ℝ) / fixOne b + π| ≤ 8 := by
      rw [abs_of_nonneg (by positivity)]
      have : (fixPi b : ℝ) / fixOne b ≤ 3.2 := by rw [div_le_iff₀ hF]; exact hp2
      linarith
    rw [e, abs_mul]; gcongr
  have h := close_of_square_close (a := (fixGauss b : ℝ) / (fixOne b : ℝ)) (b := realK * gfskBT) (p := (fixLn2 b : ℝ) / (fixOne b : ℝ))
    (q := Real.log 2) (m := 128) (E1 := 25 / fixOne b + 8 * (8 * (60 * loss b / fixOne b))) ha0 hb1
    (by linarith) hm
    (by
      have e : ((fixGauss b : ℝ) / fixOne b) ^ 2 * (fixLn2 b / fixOne b) - (realK * gfskBT) ^ 2 * Real.log 2 =
          ((fixGauss b : ℝ) ^ 2 * fixLn2 b - 8 * fixPi b ^ 2 * fixOne b) / fixOne b ^ 3
            + 8 * (((fixPi b : ℝ) / fixOne b) ^ 2 - π ^ 2) := by rw [hb2]; field_simp; ring
      have h3 : (fixLn2 b : ℝ) * (2 * fixGauss b + 1) ≤ 25 * (fixOne b : ℝ) ^ 2 := by
        calc _ ≤ (fixOne b : ℝ) * (2 * (12 * (fixOne b : ℝ)) + (fixOne b : ℝ)) := by gcongr
          _ = _ := by ring
      have h4 : |(fixGauss b : ℝ) ^ 2 * fixLn2 b - 8 * fixPi b ^ 2 * (fixOne b : ℝ)| ≤ 25 * (fixOne b : ℝ) ^ 2 := by
        rw [abs_le]; constructor <;> linarith [pow_pos hF 2]
      rw [e]
      refine (abs_add_le _ _).trans (add_le_add ?_ ?_)
      · rw [abs_div, abs_of_pos (by positivity : (0 : ℝ) < (fixOne b : ℝ) ^ 3), div_le_div_iff₀ (by positivity) hF]
        calc _ ≤ 25 * (fixOne b : ℝ) ^ 2 * fixOne b := by gcongr
          _ = _ := by ring
      · rw [abs_mul, abs_of_pos (by norm_num)]; gcongr)
    (fixLn2_real b)
  have e : (fixGauss b : ℝ) - fixOne b * (realK * gfskBT) = fixOne b * ((fixGauss b : ℝ) / fixOne b - realK * gfskBT) := by
    field_simp
  have hL := one_le_loss b
  constructor
  · rw [e, abs_mul, abs_of_pos hF]
    calc _ ≤ (fixOne b : ℝ)
          * (2 * (25 / (fixOne b : ℝ) + 8 * (8 * (60 * loss b / (fixOne b : ℝ))) + 128 * (2 * loss b / (fixOne b : ℝ)))) := by gcongr
      _ = 2 * (25 + 8 * (8 * (60 * loss b)) + 128 * (2 * loss b)) := by field_simp
      _ ≤ 2 ^ 14 * loss b := by linarith
  · -- `8 * 3.15^2 / 0.69 < 10.9^2`
    have hp3 : (fixPi b : ℝ) ≤ 3.15 * fixOne b := by
      have h5 := hp.trans (loss_div_small hb (by norm_num))
      rw [abs_le] at h5
      rw [← div_le_iff₀ hF]; norm_num at h5 hpi3 ⊢; linarith [h5.2]
    have hl3 : 0.69 * (fixOne b : ℝ) ≤ fixLn2 b := by
      have h5 := (fixLn2_real b).trans (loss_div_small hb (by norm_num))
      rw [abs_le] at h5
      rw [← le_div_iff₀ hF]; norm_num at h5 hl ⊢; linarith [h5.1]
    have h6 : (fixGauss b : ℝ) ^ 2 ≤ (10.9 * (fixOne b : ℝ)) ^ 2 := by
      refine le_of_mul_le_mul_right (h1.trans ?_) hl0'
      calc (8 : ℝ) * fixPi b ^ 2 * (fixOne b : ℝ) ≤ 8 * (3.15 * (fixOne b : ℝ)) ^ 2 * fixOne b := by gcongr
        _ ≤ (10.9 * (fixOne b : ℝ)) ^ 2 * (0.69 * (fixOne b : ℝ)) := by nlinarith [pow_pos hF 3]
        _ ≤ _ := by gcongr
    exact le_of_sq_le_sq h6 (by positivity)

/-! ## The error function -/

theorem erf_integrable (a b : ℝ) : IntervalIntegrable (fun t : ℝ => Real.exp (-t ^ 2)) MeasureTheory.volume a b :=
  (by fun_prop : Continuous fun t : ℝ => Real.exp (-t ^ 2)).intervalIntegrable a b

theorem twoOverSqrtPi_le : 2 / √π ≤ 2 := by
  have : 1 ≤ √π := by rw [Real.one_le_sqrt]; linarith [Real.pi_gt_three]
  rw [div_le_iff₀ (by linarith)]; linarith

/-- `erf` is Lipschitz with constant 2. -/
theorem realErf_lipschitz (x y : ℝ) : |realErf x - realErf y| ≤ 2 * |x - y| := by
  unfold realErf
  rw [← mul_sub, intervalIntegral.integral_interval_sub_left (erf_integrable _ _) (erf_integrable _ _), abs_mul,
    abs_of_nonneg (by positivity)]
  have h : |∫ t in y..x, Real.exp (-t ^ 2)| ≤ 1 * |x - y| := by
    rw [← Real.norm_eq_abs]
    apply intervalIntegral.norm_integral_le_of_norm_le_const
    intro t _
    rw [Real.norm_eq_abs, abs_of_pos (Real.exp_pos _), Real.exp_le_one_iff]
    nlinarith [sq_nonneg t]
  rw [one_mul] at h
  exact mul_le_mul twoOverSqrtPi_le h (abs_nonneg _) (by norm_num)

theorem realErf_neg (x : ℝ) : realErf (-x) = -realErf x := by
  unfold realErf
  have h := intervalIntegral.integral_comp_neg (f := fun t : ℝ => Real.exp (-t ^ 2)) (a := 0) (b := x)
  simp only [neg_sq, neg_zero] at h
  rw [h, intervalIntegral.integral_symm]; ring

theorem exp_484 : Real.exp 484 ≤ 2 ^ 704 := by
  have h := Real.exp_one_lt_d9.le
  have e : Real.exp 484 = (Real.exp 1 ^ 22) ^ 22 := by rw [← pow_mul, ← Real.exp_nat_mul]; norm_num
  rw [e, show (2 : ℝ) ^ 704 = (2 ^ 32) ^ 22 by rw [← pow_mul]]
  gcongr
  calc Real.exp 1 ^ 22 ≤ 2.7182818286 ^ 22 := by gcongr
    _ ≤ 2 ^ 32 := by norm_num

/-! ## The series of the error function -/

/-- The value of `erfSeries` from `n` on, for a first term 1. -/
noncomputable def erfCoeff (x : ℝ) (n : ℕ) : ℝ :=
  ∑' j : ℕ, (-1) ^ j * (x ^ (2 * j) * n.factorial / ((n + j).factorial * (2 * ((n : ℝ) + j) + 1)))

theorem erf_bound (x : ℝ) (n j : ℕ) :
    |(-1) ^ j * (x ^ (2 * j) * n.factorial / ((n + j).factorial * (2 * ((n : ℝ) + j) + 1)))|
      ≤ (x ^ 2) ^ j / j.factorial := by
  have hx : 0 ≤ x ^ (2 * j) := by rw [pow_mul]; positivity
  rw [abs_mul, abs_pow, abs_neg, abs_one, one_pow, one_mul, abs_of_nonneg (by positivity), ← pow_mul]
  have h : (n.factorial * j.factorial : ℝ) ≤ (n + j).factorial := by
    exact_mod_cast Nat.le_of_dvd (Nat.factorial_pos _) (Nat.factorial_mul_factorial_dvd_factorial_add n j)
  have h1 : (1 : ℝ) ≤ 2 * ((n : ℝ) + j) + 1 := by
    have : (0 : ℝ) ≤ (n : ℝ) + j := by positivity
    linarith
  rw [div_le_div_iff₀ (by positivity) (by positivity)]
  calc x ^ (2 * j) * n.factorial * j.factorial = x ^ (2 * j) * (n.factorial * j.factorial) := by ring
    _ ≤ x ^ (2 * j) * ((n + j).factorial * 1) := by rw [mul_one]; gcongr
    _ ≤ _ := by gcongr

theorem hasSum_exp_sq (x : ℝ) : HasSum (fun j : ℕ => (x ^ 2) ^ j / j.factorial) (Real.exp (x ^ 2)) := by
  rw [Real.exp_eq_exp_ℝ]; exact NormedSpace.expSeries_div_hasSum_exp (x ^ 2)

theorem erf_summable (x : ℝ) (n : ℕ) : Summable fun j : ℕ =>
    (-1) ^ j * (x ^ (2 * j) * n.factorial / ((n + j).factorial * (2 * ((n : ℝ) + j) + 1))) :=
  Summable.of_norm_bounded (hasSum_exp_sq x).summable (fun j => erf_bound x n j)

theorem erfCoeff_abs (x : ℝ) (n : ℕ) : |erfCoeff x n| ≤ Real.exp (x ^ 2) := by
  unfold erfCoeff
  rw [← Real.norm_eq_abs]
  exact tsum_of_norm_bounded (hasSum_exp_sq x) (fun j => erf_bound x n j)

theorem erfCoeff_step (x : ℝ) (n : ℕ) :
    erfCoeff x n = 1 / (2 * n + 1) - x ^ 2 / (n + 1) * erfCoeff x (n + 1) := by
  unfold erfCoeff
  rw [(erf_summable x n).tsum_eq_zero_add, ← tsum_mul_left, sub_eq_add_neg, ← tsum_neg]
  congr 1
  · simp; field_simp
  · apply tsum_congr; intro j
    have e : n + (j + 1) = n + 1 + j := by ring
    have e' : (n : ℝ) + ((j + 1 : ℕ) : ℝ) = ((n + 1 : ℕ) : ℝ) + j := by push_cast; ring
    rw [e, e', Nat.factorial_succ n]
    have : (0:ℝ) < 2 * (((n + 1 : ℕ) : ℝ) + j) + 1 := by positivity
    push_cast at this ⊢
    field_simp
    ring

/-- The series from its zeroth term on is the integral of the error function. -/
theorem erfCoeff_zero (x : ℝ) (hx : 0 ≤ x) : x * erfCoeff x 0 = ∫ t in (0 : ℝ)..x, Real.exp (-t ^ 2) := by
  have h := intervalIntegral.hasSum_integral_of_dominated_convergence (μ := MeasureTheory.volume) (a := 0) (b := x)
    (F := fun (j : ℕ) t => (-t ^ 2) ^ j / (j.factorial : ℝ)) (f := fun t => Real.exp (-t ^ 2))
    (fun j _ => (x ^ 2) ^ j / (j.factorial : ℝ))
    (fun j => (by fun_prop : Continuous fun t : ℝ => (-t ^ 2) ^ j / (j.factorial : ℝ)).aestronglyMeasurable)
    (fun j => Filter.Eventually.of_forall fun t ht => by
      rw [Set.uIoc_of_le hx] at ht
      rw [norm_div, norm_pow, norm_neg, Real.norm_eq_abs, abs_of_nonneg (sq_nonneg t), Real.norm_natCast]
      have : t ^ 2 ≤ x ^ 2 := pow_le_pow_left₀ ht.1.le ht.2 2
      gcongr)
    (Filter.Eventually.of_forall fun t _ => (hasSum_exp_sq x).summable)
    (by simp)
    (Filter.Eventually.of_forall fun t _ => by
      rw [Real.exp_eq_exp_ℝ]; exact NormedSpace.expSeries_div_hasSum_exp (-t ^ 2))
  rw [← h.tsum_eq]; unfold erfCoeff
  rw [← tsum_mul_left]
  apply tsum_congr; intro j
  have e : ∀ t : ℝ, (-t ^ 2) ^ j / (j.factorial : ℝ) = (-1) ^ j / (j.factorial : ℝ) * t ^ (2 * j) := by
    intro t; rw [neg_pow, ← pow_mul]; ring
  simp only [e, intervalIntegral.integral_const_mul, integral_pow]
  simp
  field_simp
  ring

theorem erfSeries_error {b x : ℕ} (hx : x ≤ 22 * fixOne b) :
    |(erfSeries b x (loss b) 0 x : ℝ) - fixOne b * ∫ t in (0 : ℝ)..((x : ℝ) / fixOne b), Real.exp (-t ^ 2)|
      ≤ 2 ^ 705 * loss b := by
  have hF := fixOne_real_pos b
  have hX0 : (0 : ℝ) ≤ (x : ℝ) / fixOne b := by positivity
  have hX : (x : ℝ) / fixOne b ≤ 22 := by rw [div_le_iff₀ hF]; exact_mod_cast hx
  have main := series_error (σ := -1) (by norm_num)
    (f := erfSeries b x) (out := fun n t => t / (2 * n + 1))
    (next := fun n t => t * (x * x) / (fixOne b * fixOne b * (n + 1)))
    (P := fun m n t => t * 968 ^ (968 - n) < 2 ^ m)
    (c := erfCoeff ((x : ℝ) / fixOne b)) (w := fun n => 1 / (2 * n + 1))
    (ρ := fun n => ((x : ℝ) / fixOne b) ^ 2 / ((n : ℝ) + 1))
    (C := 2 ^ 704)
    (fun _ _ => rfl)
    (fun m n t => by rw [erfSeries]; split <;> ring)
    (fun n t => by
      have h := natDiv_near t (2 * n + 1)
      push_cast at h ⊢
      rw [one_div_mul_eq_div]; exact h)
    (fun n t => by
      have h := natDiv_near (t * (x * x)) (fixOne b * fixOne b * (n + 1))
      have e : ((t * (x * x) : ℕ) : ℝ) / ((fixOne b * fixOne b * (n + 1) : ℕ) : ℝ) =
          ((x : ℝ) / fixOne b) ^ 2 / ((n : ℝ) + 1) * t := by push_cast; field_simp
      rwa [e] at h)
    (fun n => by rw [erfCoeff_step ((x : ℝ) / fixOne b) n]; push_cast; ring)
    (fun n => by
      refine (erfCoeff_abs _ _).trans (le_trans (Real.exp_le_exp.2 ?_) exp_484)
      nlinarith)
    (fun n t h => by
      have : 0 < 968 ^ (968 - n) := by positivity
      have h' : t * 968 ^ (968 - n) = 0 := by simpa using h
      rcases Nat.mul_eq_zero.1 h' with h | h
      · exact h
      · omega)
    (fun m n t h => by
      have hxx : x * x ≤ fixOne b * fixOne b * 484 := by nlinarith
      have hp := fixOne_pos b
      have h2 : t * (x * x) / (fixOne b * fixOne b * (n + 1)) * (n + 1) ≤ t * 484 := by
        have h3 := Nat.div_mul_le_self (t * (x * x)) (fixOne b * fixOne b * (n + 1))
        refine Nat.le_of_mul_le_mul_left (c := fixOne b * fixOne b) ?_ (by positivity)
        calc _ = t * (x * x) / (fixOne b * fixOne b * (n + 1)) * (fixOne b * fixOne b * (n + 1)) := by ring
          _ ≤ t * (x * x) := h3
          _ ≤ t * (fixOne b * fixOne b * 484) := Nat.mul_le_mul_left _ hxx
          _ = _ := by ring
      generalize t * (x * x) / (fixOne b * fixOne b * (n + 1)) = u at h2 ⊢
      have hp2 : (2 : ℕ) ^ (m + 1) = 2 * 2 ^ m := by ring
      rw [hp2] at h
      by_cases hn : n < 968
      · have e : 968 - n = (968 - (n + 1)) + 1 := by omega
        rw [e, pow_succ] at h
        have h4 : u ≤ t * 484 := le_trans (Nat.le_mul_of_pos_right _ (by omega)) h2
        have : 0 < 968 ^ (968 - (n + 1)) := by positivity
        nlinarith
      · have e : 968 - n = 0 := by omega
        have e' : 968 - (n + 1) = 0 := by omega
        rw [e, pow_zero, mul_one] at h
        rw [e', pow_zero, mul_one]
        nlinarith)
    (loss b) 0 x (by
      have h1 : 22 * 968 ^ 968 < 2 ^ 10000 := by decide +kernel
      calc x * 968 ^ (968 - 0) ≤ 22 * fixOne b * 968 ^ 968 := Nat.mul_le_mul_right _ hx
        _ = fixOne b * (22 * 968 ^ 968) := by rw [Nat.mul_comm 22, Nat.mul_assoc]
        _ < fixOne b * 2 ^ 10000 := Nat.mul_lt_mul_of_pos_left h1 (fixOne_pos b)
        _ = 2 ^ loss b := by rw [loss, pow_add]; rfl)
  have e : (x : ℝ) * erfCoeff ((x : ℝ) / fixOne b) 0 =
      fixOne b * ∫ t in (0 : ℝ)..((x : ℝ) / fixOne b), Real.exp (-t ^ 2) := by
    rw [← erfCoeff_zero _ hX0, ← mul_assoc, mul_div_cancel₀ _ hF.ne']
  rw [e] at main
  refine main.trans ?_
  have h1 : (1 : ℝ) ≤ 2 ^ 704 := one_le_pow₀ (by norm_num)
  have hL : (0 : ℝ) ≤ loss b := by positivity
  rw [show (2 : ℝ) ^ 705 = 2 ^ 704 * 2 from pow_succ _ _]
  generalize (2 : ℝ) ^ 704 = B at *
  nlinarith

theorem erf_integral_abs {x : ℝ} (h0 : 0 ≤ x) : |∫ t in (0 : ℝ)..x, Real.exp (-t ^ 2)| ≤ x := by
  have h : |∫ t in (0:ℝ)..x, Real.exp (-t ^ 2)| ≤ 1 * |x - 0| := by
    rw [← Real.norm_eq_abs]
    apply intervalIntegral.norm_integral_le_of_norm_le_const
    intro t _
    rw [Real.norm_eq_abs, abs_of_pos (Real.exp_pos _), Real.exp_le_one_iff]
    nlinarith [sq_nonneg t]
  rwa [one_mul, sub_zero, abs_of_nonneg h0] at h

/-- `fixErf` is the error function to within `2^708 * loss b` units. -/
theorem fixErf_error {b : ℕ} (hb : 1536 ≤ b) {x : ℕ} (hx : x ≤ 22 * fixOne b) :
    |(fixErf b x : ℝ) - fixOne b * realErf ((x : ℝ) / fixOne b)| ≤ 2 ^ 708 * loss b := by
  have hF := fixOne_real_pos b
  unfold fixErf
  have hX : (x : ℝ) / fixOne b ≤ 22 := by rw [div_le_iff₀ hF]; exact_mod_cast hx
  have h1 := erfSeries_error hx
  change |(erfSeries b x (b + 10000) 0 x : ℝ) - _| ≤ _ at h1
  have h2 := intDiv_near (erfSeries b x (b + 10000) 0 x * fixErfScale b) (fixOne b) (fixOne_pos b)
  obtain ⟨h3, hT⟩ := fixErfScale_error hb
  have h4 := (erf_integral_abs (x := (x : ℝ) / fixOne b) (by positivity)).trans hX
  unfold realErf
  generalize ∫ t in (0 : ℝ)..((x : ℝ) / fixOne b), Real.exp (-t ^ 2) = I at *
  generalize erfSeries b x (b + 10000) 0 x = S at *
  have e : ((S * (fixErfScale b : ℤ) / (fixOne b : ℤ) : ℤ) : ℝ) - fixOne b * (2 / √π * I) =
      (((S * (fixErfScale b : ℤ) / (fixOne b : ℤ) : ℤ) : ℝ) - ((S * (fixErfScale b : ℤ) : ℤ) : ℝ) / fixOne b)
        + ((S : ℝ) - fixOne b * I) * ((fixErfScale b : ℝ) / fixOne b)
        + I * ((fixErfScale b : ℝ) - fixOne b * (2 / √π)) := by push_cast; field_simp; ring
  have h5 := mul_le_mul h1 hT (by positivity) ((abs_nonneg _).trans h1)
  have h6 := mul_le_mul h4 h3 (abs_nonneg _) (by norm_num)
  have hL := one_le_loss b
  have h7 : (2 : ℝ) ^ 708 = 2 ^ 705 * 8 := by rw [show (8 : ℝ) = 2 ^ 3 by norm_num, ← pow_add]
  have h8 : (2 : ℝ) ^ 20 ≤ 2 ^ 705 := pow_le_pow_right₀ (by norm_num) (by norm_num)
  rw [e, h7]
  refine (abs_add_three _ _ _).trans ?_
  rw [abs_mul, abs_mul, abs_of_nonneg (by positivity : (0 : ℝ) ≤ (fixErfScale b : ℝ) / fixOne b)]
  generalize (2 : ℝ) ^ 705 = B at *
  clear h7
  nlinarith [mul_le_mul h8 hL (by norm_num) ((by positivity : (0 : ℝ) ≤ 2 ^ 20).trans h8)]

/-- `fixErfSigned` is the error function to within `2^708 * loss b` units. -/
theorem fixErfSigned_error {b : ℕ} (hb : 1536 ≤ b) {x : ℤ} (hx : x.natAbs ≤ 22 * fixOne b) :
    |(fixErfSigned b x : ℝ) - fixOne b * realErf ((x : ℝ) / fixOne b)| ≤ 2 ^ 708 * loss b := by
  have h := fixErf_error hb hx
  unfold fixErfSigned
  split
  · rename_i hx
    have e : ((x.natAbs : ℕ) : ℝ) = -(x : ℝ) := by
      rw [← Int.cast_natCast, ← Int.abs_eq_natAbs, abs_of_neg hx]; push_cast; ring
    rw [e, neg_div, realErf_neg] at h
    rw [← abs_neg]; push_cast
    convert h using 2; ring
  · rename_i hx
    have e : ((x.natAbs : ℕ) : ℝ) = (x : ℝ) := by
      rw [← Int.cast_natCast, ← Int.abs_eq_natAbs, abs_of_nonneg (by omega)]
    rwa [e] at h

end Sys2Proof.Machine
end

