-- ==== Sys2Proof/Laws/State.lean ====
section
/-! SUPPORT. One lemma per field per state update, so that no later proof unfolds a record update. -/

namespace Sys2Proof.Machine

variable (s : State)

@[simp] theorem respond_params (st : Status) (n : Nat) (d : List Byte) : (respond st n d s).params = s.params := rfl
@[simp] theorem respond_wpm (st : Status) (n : Nat) (d : List Byte) : (respond st n d s).wpm = s.wpm := rfl
@[simp] theorem respond_polarity (st : Status) (n : Nat) (d : List Byte) : (respond st n d s).polarity = s.polarity := rfl
@[simp] theorem respond_headerSent (st : Status) (n : Nat) (d : List Byte) : (respond st n d s).headerSent = s.headerSent := rfl
@[simp] theorem respond_endPending (st : Status) (n : Nat) (d : List Byte) : (respond st n d s).endPending = s.endPending := rfl
@[simp] theorem respond_bb (st : Status) (n : Nat) (d : List Byte) : (respond st n d s).bb = s.bb := rfl
@[simp] theorem respond_ex (st : Status) (n : Nat) (d : List Byte) : (respond st n d s).ex = s.ex := rfl
@[simp] theorem respond_sampleRate (st : Status) (n : Nat) (d : List Byte) : (respond st n d s).sampleRate = s.sampleRate := rfl
@[simp] theorem respond_audioOffset (st : Status) (n : Nat) (d : List Byte) : (respond st n d s).audioOffset = s.audioOffset := rfl
@[simp] theorem respond_outCapacity (st : Status) (n : Nat) (d : List Byte) : (respond st n d s).outCapacity = s.outCapacity := rfl
@[simp] theorem respond_lastStatus (st : Status) (n : Nat) (d : List Byte) : (respond st n d s).lastStatus = s.lastStatus := rfl
@[simp] theorem respond_errorSeen (st : Status) (n : Nat) (d : List Byte) : (respond st n d s).errorSeen = s.errorSeen := rfl
@[simp] theorem respond_input (st : Status) (n : Nat) (d : List Byte) : (respond st n d s).input = s.input := rfl
@[simp] theorem respond_output (st : Status) (n : Nat) (d : List Byte) : (respond st n d s).output = s.output ++ (be32 (responseWord st n) ++ d) := rfl

@[simp] theorem recordStatus_params (st : Status) : (recordStatus st s).params = s.params := rfl
@[simp] theorem recordStatus_wpm (st : Status) : (recordStatus st s).wpm = s.wpm := rfl
@[simp] theorem recordStatus_polarity (st : Status) : (recordStatus st s).polarity = s.polarity := rfl
@[simp] theorem recordStatus_headerSent (st : Status) : (recordStatus st s).headerSent = s.headerSent := rfl
@[simp] theorem recordStatus_endPending (st : Status) : (recordStatus st s).endPending = s.endPending := rfl
@[simp] theorem recordStatus_bb (st : Status) : (recordStatus st s).bb = s.bb := rfl
@[simp] theorem recordStatus_ex (st : Status) : (recordStatus st s).ex = s.ex := rfl
@[simp] theorem recordStatus_sampleRate (st : Status) : (recordStatus st s).sampleRate = s.sampleRate := rfl
@[simp] theorem recordStatus_audioOffset (st : Status) : (recordStatus st s).audioOffset = s.audioOffset := rfl
@[simp] theorem recordStatus_outCapacity (st : Status) : (recordStatus st s).outCapacity = s.outCapacity := rfl
@[simp] theorem recordStatus_lastStatus (st : Status) : (recordStatus st s).lastStatus = st := rfl
@[simp] theorem recordStatus_errorSeen (st : Status) : (recordStatus st s).errorSeen = errorSeenAfter s.errorSeen st := rfl
@[simp] theorem recordStatus_input (st : Status) : (recordStatus st s).input = s.input := rfl
@[simp] theorem recordStatus_output (st : Status) : (recordStatus st s).output = s.output := rfl

@[simp] theorem finish_params (st : Status) (n : Nat) (d : List Byte) : (finish st n d s).params = s.params := rfl
@[simp] theorem finish_wpm (st : Status) (n : Nat) (d : List Byte) : (finish st n d s).wpm = s.wpm := rfl
@[simp] theorem finish_polarity (st : Status) (n : Nat) (d : List Byte) : (finish st n d s).polarity = s.polarity := rfl
@[simp] theorem finish_headerSent (st : Status) (n : Nat) (d : List Byte) : (finish st n d s).headerSent = s.headerSent := rfl
@[simp] theorem finish_endPending (st : Status) (n : Nat) (d : List Byte) : (finish st n d s).endPending = s.endPending := rfl
@[simp] theorem finish_bb (st : Status) (n : Nat) (d : List Byte) : (finish st n d s).bb = s.bb := rfl
@[simp] theorem finish_ex (st : Status) (n : Nat) (d : List Byte) : (finish st n d s).ex = s.ex := rfl
@[simp] theorem finish_sampleRate (st : Status) (n : Nat) (d : List Byte) : (finish st n d s).sampleRate = s.sampleRate := rfl
@[simp] theorem finish_audioOffset (st : Status) (n : Nat) (d : List Byte) : (finish st n d s).audioOffset = s.audioOffset := rfl
@[simp] theorem finish_outCapacity (st : Status) (n : Nat) (d : List Byte) : (finish st n d s).outCapacity = s.outCapacity := rfl
@[simp] theorem finish_lastStatus (st : Status) (n : Nat) (d : List Byte) : (finish st n d s).lastStatus = st := rfl
@[simp] theorem finish_errorSeen (st : Status) (n : Nat) (d : List Byte) : (finish st n d s).errorSeen = errorSeenAfter s.errorSeen st := rfl
@[simp] theorem finish_input (st : Status) (n : Nat) (d : List Byte) : (finish st n d s).input = s.input := rfl
@[simp] theorem finish_output (st : Status) (n : Nat) (d : List Byte) : (finish st n d s).output = s.output ++ (be32 (responseWord st n) ++ d) := rfl

@[simp] theorem answered_params (n : Nat) (d : List Byte) : (answered n d s).params = s.params := rfl
@[simp] theorem answered_wpm (n : Nat) (d : List Byte) : (answered n d s).wpm = s.wpm := rfl
@[simp] theorem answered_polarity (n : Nat) (d : List Byte) : (answered n d s).polarity = s.polarity := rfl
@[simp] theorem answered_headerSent (n : Nat) (d : List Byte) : (answered n d s).headerSent = s.headerSent := rfl
@[simp] theorem answered_endPending (n : Nat) (d : List Byte) : (answered n d s).endPending = s.endPending := rfl
@[simp] theorem answered_bb (n : Nat) (d : List Byte) : (answered n d s).bb = s.bb := rfl
@[simp] theorem answered_ex (n : Nat) (d : List Byte) : (answered n d s).ex = s.ex := rfl
@[simp] theorem answered_sampleRate (n : Nat) (d : List Byte) : (answered n d s).sampleRate = s.sampleRate := rfl
@[simp] theorem answered_audioOffset (n : Nat) (d : List Byte) : (answered n d s).audioOffset = s.audioOffset := rfl
@[simp] theorem answered_outCapacity (n : Nat) (d : List Byte) : (answered n d s).outCapacity = s.outCapacity := rfl
@[simp] theorem answered_lastStatus (n : Nat) (d : List Byte) : (answered n d s).lastStatus = .ok := rfl
@[simp] theorem answered_errorSeen (n : Nat) (d : List Byte) : (answered n d s).errorSeen = s.errorSeen := rfl
@[simp] theorem answered_input (n : Nat) (d : List Byte) : (answered n d s).input = s.input := rfl
@[simp] theorem answered_output (n : Nat) (d : List Byte) : (answered n d s).output = s.output ++ (be32 (0#4 ++ BitVec.ofNat 28 n) ++ d) := rfl

@[simp] theorem failed_params (e : ErrorKind) : (failed e s).params = s.params := rfl
@[simp] theorem failed_wpm (e : ErrorKind) : (failed e s).wpm = s.wpm := rfl
@[simp] theorem failed_polarity (e : ErrorKind) : (failed e s).polarity = s.polarity := rfl
@[simp] theorem failed_headerSent (e : ErrorKind) : (failed e s).headerSent = s.headerSent := rfl
@[simp] theorem failed_endPending (e : ErrorKind) : (failed e s).endPending = s.endPending := rfl
@[simp] theorem failed_bb (e : ErrorKind) : (failed e s).bb = s.bb := rfl
@[simp] theorem failed_ex (e : ErrorKind) : (failed e s).ex = s.ex := rfl
@[simp] theorem failed_sampleRate (e : ErrorKind) : (failed e s).sampleRate = s.sampleRate := rfl
@[simp] theorem failed_audioOffset (e : ErrorKind) : (failed e s).audioOffset = s.audioOffset := rfl
@[simp] theorem failed_outCapacity (e : ErrorKind) : (failed e s).outCapacity = s.outCapacity := rfl
@[simp] theorem failed_lastStatus (e : ErrorKind) : (failed e s).lastStatus = .error e := rfl
@[simp] theorem failed_errorSeen (e : ErrorKind) : (failed e s).errorSeen = true := rfl
@[simp] theorem failed_input (e : ErrorKind) : (failed e s).input = s.input := rfl
@[simp] theorem failed_output (e : ErrorKind) : (failed e s).output = s.output ++ be32 (statusCode (.error e) ++ 0#28) := rfl

@[simp] theorem consume_params (rest : List Byte) : (consume rest s).params = s.params := rfl
@[simp] theorem consume_wpm (rest : List Byte) : (consume rest s).wpm = s.wpm := rfl
@[simp] theorem consume_polarity (rest : List Byte) : (consume rest s).polarity = s.polarity := rfl
@[simp] theorem consume_headerSent (rest : List Byte) : (consume rest s).headerSent = s.headerSent := rfl
@[simp] theorem consume_endPending (rest : List Byte) : (consume rest s).endPending = s.endPending := rfl
@[simp] theorem consume_bb (rest : List Byte) : (consume rest s).bb = s.bb := rfl
@[simp] theorem consume_ex (rest : List Byte) : (consume rest s).ex = s.ex := rfl
@[simp] theorem consume_sampleRate (rest : List Byte) : (consume rest s).sampleRate = s.sampleRate := rfl
@[simp] theorem consume_audioOffset (rest : List Byte) : (consume rest s).audioOffset = s.audioOffset := rfl
@[simp] theorem consume_outCapacity (rest : List Byte) : (consume rest s).outCapacity = s.outCapacity := rfl
@[simp] theorem consume_lastStatus (rest : List Byte) : (consume rest s).lastStatus = s.lastStatus := rfl
@[simp] theorem consume_errorSeen (rest : List Byte) : (consume rest s).errorSeen = s.errorSeen := rfl
@[simp] theorem consume_input (rest : List Byte) : (consume rest s).input = rest := rfl
@[simp] theorem consume_output (rest : List Byte) : (consume rest s).output = s.output := rfl

@[simp] theorem hostSend_params (bytes : List Byte) : (hostSend bytes s).params = s.params := rfl
@[simp] theorem hostSend_wpm (bytes : List Byte) : (hostSend bytes s).wpm = s.wpm := rfl
@[simp] theorem hostSend_polarity (bytes : List Byte) : (hostSend bytes s).polarity = s.polarity := rfl
@[simp] theorem hostSend_headerSent (bytes : List Byte) : (hostSend bytes s).headerSent = s.headerSent := rfl
@[simp] theorem hostSend_endPending (bytes : List Byte) : (hostSend bytes s).endPending = s.endPending := rfl
@[simp] theorem hostSend_bb (bytes : List Byte) : (hostSend bytes s).bb = s.bb := rfl
@[simp] theorem hostSend_ex (bytes : List Byte) : (hostSend bytes s).ex = s.ex := rfl
@[simp] theorem hostSend_sampleRate (bytes : List Byte) : (hostSend bytes s).sampleRate = s.sampleRate := rfl
@[simp] theorem hostSend_audioOffset (bytes : List Byte) : (hostSend bytes s).audioOffset = s.audioOffset := rfl
@[simp] theorem hostSend_outCapacity (bytes : List Byte) : (hostSend bytes s).outCapacity = s.outCapacity := rfl
@[simp] theorem hostSend_lastStatus (bytes : List Byte) : (hostSend bytes s).lastStatus = s.lastStatus := rfl
@[simp] theorem hostSend_errorSeen (bytes : List Byte) : (hostSend bytes s).errorSeen = s.errorSeen := rfl
@[simp] theorem hostSend_input (bytes : List Byte) : (hostSend bytes s).input = s.input ++ bytes := rfl
@[simp] theorem hostSend_output (bytes : List Byte) : (hostSend bytes s).output = s.output := rfl

@[simp] theorem hostTake_params (n : Nat) : (hostTake n s).params = s.params := rfl
@[simp] theorem hostTake_wpm (n : Nat) : (hostTake n s).wpm = s.wpm := rfl
@[simp] theorem hostTake_polarity (n : Nat) : (hostTake n s).polarity = s.polarity := rfl
@[simp] theorem hostTake_headerSent (n : Nat) : (hostTake n s).headerSent = s.headerSent := rfl
@[simp] theorem hostTake_endPending (n : Nat) : (hostTake n s).endPending = s.endPending := rfl
@[simp] theorem hostTake_bb (n : Nat) : (hostTake n s).bb = s.bb := rfl
@[simp] theorem hostTake_ex (n : Nat) : (hostTake n s).ex = s.ex := rfl
@[simp] theorem hostTake_sampleRate (n : Nat) : (hostTake n s).sampleRate = s.sampleRate := rfl
@[simp] theorem hostTake_audioOffset (n : Nat) : (hostTake n s).audioOffset = s.audioOffset := rfl
@[simp] theorem hostTake_outCapacity (n : Nat) : (hostTake n s).outCapacity = s.outCapacity := rfl
@[simp] theorem hostTake_lastStatus (n : Nat) : (hostTake n s).lastStatus = s.lastStatus := rfl
@[simp] theorem hostTake_errorSeen (n : Nat) : (hostTake n s).errorSeen = s.errorSeen := rfl
@[simp] theorem hostTake_input (n : Nat) : (hostTake n s).input = s.input := rfl
@[simp] theorem hostTake_output (n : Nat) : (hostTake n s).output = s.output.drop n := rfl

@[simp] theorem resetWith_params (p : Params) : (State.resetWith p).params = p := rfl
@[simp] theorem resetWith_wpm (p : Params) : (State.resetWith p).wpm = none := rfl
@[simp] theorem resetWith_polarity (p : Params) : (State.resetWith p).polarity = true := rfl
@[simp] theorem resetWith_headerSent (p : Params) : (State.resetWith p).headerSent = false := rfl
@[simp] theorem resetWith_endPending (p : Params) : (State.resetWith p).endPending = false := rfl
@[simp] theorem resetWith_bb (p : Params) : (State.resetWith p).bb = [] := rfl
@[simp] theorem resetWith_ex (p : Params) : (State.resetWith p).ex = [] := rfl
@[simp] theorem resetWith_sampleRate (p : Params) : (State.resetWith p).sampleRate = 0 := rfl
@[simp] theorem resetWith_audioOffset (p : Params) : (State.resetWith p).audioOffset = 0 := rfl
@[simp] theorem resetWith_outCapacity (p : Params) : (State.resetWith p).outCapacity = 0 := rfl
@[simp] theorem resetWith_lastStatus (p : Params) : (State.resetWith p).lastStatus = .ok := rfl
@[simp] theorem resetWith_errorSeen (p : Params) : (State.resetWith p).errorSeen = false := rfl
@[simp] theorem resetWith_input (p : Params) : (State.resetWith p).input = [] := rfl
@[simp] theorem resetWith_output (p : Params) : (State.resetWith p).output = [] := rfl

@[simp] theorem applyReset_eq : applyReset s = State.resetWith s.params := rfl

end Sys2Proof.Machine
end

