-- ==== Sys2Proof/Laws/Ops.lean ====
section
/-! SUPPORT. What each shared operation can do, said once: the provers cite these instead of unfolding the
operations. -/

namespace Sys2Proof.Machine

variable (s : State)

/-! ## Responses -/

/-- Raising an error answers the state `failed` (R12, R333, R334). -/
@[simp] theorem raiseError_eq (e : ErrorKind) : raiseError e s = .next (failed e s) := by
  cases e <;> simp [raiseError, finish, respond, recordStatus, failed, responseWord, errorSeenAfter]

/-- Completing with status OK answers the state `answered` (R84, R333). -/
@[simp] theorem done_eq (n : Nat) (d : List Byte) : done n d s = .next (answered n d s) := by
  simp [done, finish, respond, recordStatus, answered, responseWord, errorSeenAfter, statusCode]

/-- A command that emitted blocks answers their number and records (R193). -/
theorem doneEmitting_eq (out : List BlockRecord) :
    doneEmitting out s = .next (answered out.length (records out) s) := done_eq s _ _

/-! ## The builder -/

/-- `Append` where the bits fit (R153). -/
theorem appendThen_fits {bits : Bits} {next : State → Result} (h : s.bb.length + bits.length ≤ s.params.blockBits) :
    appendThen bits s next = next { s with bb := s.bb ++ bits } := by simp [appendThen, h]

/-- Everything `Append` can do: go on with the bits appended, which then fit, or fault (R153). -/
theorem appendThen_next {bits : Bits} {next : State → Result} {t : State} (h : appendThen bits s next = .next t) :
    s.bb.length + bits.length ≤ s.params.blockBits ∧ next { s with bb := s.bb ++ bits } = .next t := by
  unfold appendThen at h
  split at h
  · exact ⟨‹_›, h⟩
  · cases h

/-- `Append(Header())` where the header fits (R190, R194). -/
theorem appendHeaderThen_fits {w : Nat} {next : State → Result} (h : s.bb.length + 11 ≤ s.params.blockBits) :
    appendHeaderThen w s next = next { s with bb := s.bb ++ headerBits w s, headerSent := true } := by
  have hl : (headerBits w s).length = 11 := by simp [headerBits, wpmPolarityFrame, frame]
  rw [appendHeaderThen, appendThen_fits s (by omega)]

/-- The raw append: the two things it can do (R151, R331). -/
theorem rawAppend_eq (bits : Bits) :
    rawAppend bits s = .next (if s.params.blockBits < s.bb.length + bits.length then failed .capacityExceeded s
      else answered (s.params.blockBits - (s.bb.length + bits.length)) [] { s with bb := s.bb ++ bits }) := by
  unfold rawAppend
  split
  · simp
  · rw [appendThen_fits s (by omega)]; simp [State.remaining]

/-- Emission of an empty builder (R191). -/
theorem emit_empty (h : s.bb = []) : emit s = ([], s) := by simp [emit, h]

/-- Emission of a builder that holds bits (R191). -/
theorem emit_nonempty (h : s.bb ≠ []) :
    emit s = ([⟨builtBlock s, s.endPending⟩], { s with bb := [], headerSent := false, endPending := false }) := by
  simp [emit, h]

/-- The record of one block (R193). -/
@[simp] theorem records_single (r : BlockRecord) : records [r] = r.block ++ [flagsByte r.isEnd] := by simp [records]

/-- No block, no bytes (R193). -/
@[simp] theorem records_nil : records [] = [] := rfl

/-- After an emission the builder is empty, whatever it held (R191). -/
@[simp] theorem emit_bb : (emit s).2.bb = [] := by
  unfold emit
  split
  · simp_all
  · rfl

/-- Emission does not touch the parameters, the WPM or the polarity (R191). -/
theorem emit_frame : (emit s).2.params = s.params ∧ (emit s).2.wpm = s.wpm ∧ (emit s).2.polarity = s.polarity := by
  unfold emit
  split <;> simp

/-- A header has 11 bits (R190). -/
@[simp] theorem length_headerBits (w : Nat) : (headerBits w s).length = 11 := by
  simp [headerBits, wpmPolarityFrame, frame]

/-- The header step of `SE_TIMED`: nothing, a header in this block, or a flush and a header in the next (R194). -/
theorem ensureHeader_eq (w : Nat) (next : List BlockRecord → State → Result) :
    ensureHeader w s next =
      if s.headerSent = true then next [] s
      else if s.remaining < 11 then appendHeaderThen w (emit s).2 (next (emit s).1)
      else appendHeaderThen w s (next []) := by
  unfold ensureHeader
  by_cases h : s.headerSent = true
  · simp [h]
  · by_cases g : s.remaining < 11 <;> simp [h, g]

/-! ## Deltas -/

/-- The widths that have a legal range are 5 to 9, and `LEGAL(b)` is below `2^b` (R138). -/
theorem legalDelta_bounds {b m : Nat} (h : legalDelta b = some m) : 5 ≤ b ∧ b ≤ 9 ∧ 0 < m ∧ m < 2 ^ b ∧ m ≤ 480 := by
  unfold legalDelta at h
  split at h <;> simp_all <;> subst h <;> decide

/-- The three things `DeltaCode` can do (R136). -/
theorem deltaCode_eq (d : Int) (b : Nat) :
    deltaCode d b = match legalDelta b with
      | none => .error .configurationError
      | some m => if d.natAbs ≤ m then .ok (if 0 ≤ d then d.toNat else (d + (2 : Int) ^ (b + 1)).toNat)
        else .error .encodingRangeError := by
  unfold deltaCode
  cases legalDelta b with
  | none => rfl
  | some m =>
    by_cases h : d.natAbs ≤ m
    · have h' : ¬(d < -(m : Int) ∨ (m : Int) < d) := by omega
      by_cases g : 0 ≤ d <;> simp [h, h', g]
    · have h' : d < -(m : Int) ∨ (m : Int) < d := by omega
      simp [h, h']

/-- A delta frame has its tag, its sign and its width (R101). -/
theorem deltaFrame_length {tag w : Nat} {d : Int} {f : Bits} (h : deltaFrame tag d w = .ok f) : f.length = 5 + w := by
  unfold deltaFrame at h
  split at h
  · cases h
  · cases h; simp [frame]; omega

/-! ## Frames, symbols and the modulator -/

/-- A frame performed alone: the two things it can do with a layout (log 3). -/
theorem placeFrame_ok (bits : Bits) : placeFrame (.ok bits) s = rawAppend bits s := rfl

/-- A frame performed alone whose delta has no code (R136). -/
theorem placeFrame_error (e : ErrorKind) : placeFrame (.error e) s = .next (failed e s) := raiseError_eq s e

/-- The five things a modulation can do (R291, R295, R365). -/
theorem modulate_eq (rd ru : Bool) (tones : List Byte) :
    modulate rd ru tones s = .next (
      if tones.isEmpty then answered 0 [] s
      else if requestRate (gfskRequest rd ru tones s) < 50 then failed .configurationError s
      else if tones.any fun t => 15 < t.toNat then failed .encodingRangeError s
      else if s.outCapacity.toNat < requestTotal (gfskRequest rd ru tones s) then failed .capacityExceeded s
      else answered (requestTotal (gfskRequest rd ru tones s))
        ((waveform s.params.gfskTol (gfskRequest rd ru tones s)).flatMap be32) s) := by
  unfold modulate
  simp only [raiseError_eq, done_eq]
  split_ifs <;> rfl

/-- As many samples as were asked for (R295). -/
@[simp] theorem length_samplesFrom (tol : Nat) (r : GfskRequest) (n k : Nat) (acc : Int) :
    (samplesFrom tol r n k acc).length = n := by
  induction n generalizing k acc with
  | zero => rfl
  | succ n ih => simp [samplesFrom, ih]

/-- A waveform holds the total of R293. -/
@[simp] theorem length_waveform (tol : Nat) (r : GfskRequest) : (waveform tol r).length = requestTotal r :=
  length_samplesFrom tol r _ _ _

/-! ## The step -/

/-- The three things a step can do (R69, R87, R342). -/
theorem step_eq : step s = match decodeCommand s.params s.input with
    | .incomplete => .next s
    | .illegal _ rest => .next (failed .illegalCommand (consume rest s))
    | .command i rest => exec i (consume rest s) := by
  unfold step fetch
  cases decodeCommand s.params s.input <;> simp

end Sys2Proof.Machine
end

