-- ==== Sys2Proof/Laws/Parity.lean ====
section
/-! SUPPORT. Scalar products over GF(2), and that the systematic parity-check matrix `[ P^T | I ]` checks the generator
`[ I | P ]` of its code (R242, R243). -/

namespace Sys2Proof

open Machine

theorem foldl_xor (l : Bits) (a : Bool) : l.foldl xor a = xor a (l.foldl xor false) := by
  induction l generalizing a with
  | nil => simp
  | cons b l ih => rw [List.foldl_cons, List.foldl_cons, ih, ih (xor false b)]; simp

@[simp] theorem gf2Dot_cons (x y : Bool) (a b : Bits) : gf2Dot (x :: a) (y :: b) = xor (x && y) (gf2Dot a b) := by
  simp only [gf2Dot, List.zipWith_cons_cons, List.foldl_cons]; rw [foldl_xor]; simp

@[simp] theorem gf2Dot_nil (a : Bits) : gf2Dot a [] = false := by simp [gf2Dot]

theorem gf2Dot_append {a c : Bits} (b d : Bits) (h : a.length = c.length) :
    gf2Dot (a ++ b) (c ++ d) = xor (gf2Dot a c) (gf2Dot b d) := by
  unfold gf2Dot
  rw [List.zipWith_append h, List.foldl_append, foldl_xor]

theorem gf2Dot_comm (a b : Bits) : gf2Dot a b = gf2Dot b a := by
  unfold gf2Dot
  rw [List.zipWith_comm]
  simp only [Bool.and_comm]

theorem gf2Dot_zeros (a : Bits) (n : Nat) : gf2Dot a (zeros n) = false := by
  induction a generalizing n with
  | nil => simp [gf2Dot]
  | cons x a ih =>
    cases n with
    | zero => exact gf2Dot_nil _
    | succ n => rw [show zeros (n + 1) = false :: zeros n from rfl, gf2Dot_cons, ih]; simp

/-- The product with a unit vector picks one element. -/
theorem gf2Dot_unit (a : Bits) (i n : Nat) (h : i < a.length) :
    gf2Dot a (zeros i ++ true :: zeros n) = a.getD i false := by
  induction i generalizing a with
  | zero =>
    cases a with
    | nil => simp at h
    | cons x a => have h0 := gf2Dot_zeros a n; simp [zeros] at h0 ⊢; simp [h0]
  | succ i ih =>
    cases a with
    | nil => simp at h
    | cons x a =>
      rw [show zeros (i + 1) = false :: zeros i from rfl, List.cons_append, gf2Dot_cons, ih a (by simpa using h)]
      simp

/-- A row of the identity matrix. -/
theorem identity_row {r c : Nat} (h : r < c) :
    ((List.range c).map fun j => j == r) = zeros r ++ true :: zeros (c - 1 - r) := by
  apply List.ext_getElem
  · simp [zeros]; omega
  · intro i h1 h2
    simp [zeros, List.getElem_append, List.getElem_cons]
    rw [Bool.eq_iff_iff]; simp; omega

/-- A parity-check matrix `[ P^T | I ]` checks its generator. -/
theorem systematicH_checks {p : Params} (hP : isMatrix p.ldpcK p.parityBits p.ldpcP = true)
    (hH : p.ldpcH = Params.systematicH p.ldpcP p.parityBits) : p.parityChecks = true := by
  simp only [isMatrix, Bool.and_eq_true, beq_iff_eq, List.all_eq_true] at hP
  obtain ⟨hl, hr⟩ := hP
  unfold Params.parityChecks Params.generatorRows
  rw [hH]
  unfold Params.systematicH
  simp only [List.all_map, List.all_eq_true, List.mem_range, Function.comp]
  intro r hc g hg
  obtain ⟨i, hi, rfl⟩ := List.mem_mapIdx.1 hg
  have hlen : p.ldpcP[i].length = p.parityBits := hr _ (List.getElem_mem hi)
  rw [gf2Dot_append _ _ (by simp [zeros]; omega), gf2Dot_unit _ _ _ (by simpa using hi), identity_row hc, gf2Dot_comm,
    gf2Dot_unit _ _ _ (by omega)]
  simp [List.getD_eq_getElem?_getD, hi]

/-- A parameter set of legal sizes with the systematic parity-check matrix is legal. -/
theorem systematicH_legal {p : Params} (hs : p.sizesLegal = true)
    (hH : p.ldpcH = Params.systematicH p.ldpcP p.parityBits) : p.legal = true := by
  have h := hs
  simp only [Params.sizesLegal, Params.matricesLegal, Bool.and_eq_true] at h
  simp only [Params.legal, hs, systematicH_checks h.1.2.1 hH, Bool.and_self]

end Sys2Proof
end

