-- ==== Sys2Proof/Laws/PerInstr.lean ====
section
/-! SUPPORT. Per instruction: a row with a header word is in the opcode map of R86 under one format and leaves the
format's reserved bits 0 (R83, R87); a row has a header, a frame layout or a symbol code, and never two of them. -/

namespace Sys2Proof.Laws

/-- The header of a row, if it has one, is legal; a row has just one of the three encodings of file 30. -/
def OpcodeByte.Statement (i : Instr) : Prop :=
  (∀ h, headerOf i = some h → ∃ f, formatOf (headerOpcode h).toNat = some f ∧ h &&& reservedMask f = 0) ∧
  ((headerOf i).isSome.toNat + (frameBits .signSelected 20 i).isSome.toNat + (symbolOf i).isSome.toNat = 1)

/-- The conclusion of the first half for one header, its opcode and its format given. -/
theorem legalHeader {h : Word} {opc : Byte} {f : Format} (ho : headerOpcode h = opc) (hf : formatOf opc.toNat = some f)
    (hm : h &&& reservedMask f = 0) : ∃ f, formatOf (headerOpcode h).toNat = some f ∧ h &&& reservedMask f = 0 :=
  ⟨f, by rw [ho]; exact hf, hm⟩

theorem OpcodeByte.seStart : OpcodeByte.Statement (.seStart) := by
  exact ⟨fun h hh => (by cases hh; exact ⟨.N, rfl, rfl⟩), rfl⟩

theorem OpcodeByte.seTimed (up : Bool) (dur : BitVec 16) : OpcodeByte.Statement (.seTimed up dur) := by
  refine ⟨fun h hh => ?_, rfl⟩
  cases hh
  refine legalHeader (opc := 0x11) (f := .T) ?_ rfl ?_
  · apply BitVec.eq_of_getLsbD_eq; intro i hi
    simp only [headerOpcode, BitVec.getLsbD_append, BitVec.getLsbD_extractLsb']
    interval_cases i <;> simp
  · apply BitVec.eq_of_getLsbD_eq; intro i hi
    simp only [BitVec.getLsbD_append, reservedMask, BitVec.getLsbD_and]
    interval_cases i <;> simp

theorem OpcodeByte.seEnd : OpcodeByte.Statement (.seEnd) := by
  exact ⟨fun h hh => (by cases hh; exact ⟨.N, rfl, rfl⟩), rfl⟩

theorem OpcodeByte.seSetSpeed (wpm : BitVec 6) : OpcodeByte.Statement (.seSetSpeed wpm) := by
  refine ⟨fun h hh => ?_, rfl⟩
  cases hh
  refine legalHeader (opc := 0x13) (f := .W) ?_ rfl ?_
  · apply BitVec.eq_of_getLsbD_eq; intro i hi
    simp only [headerOpcode, BitVec.getLsbD_append, BitVec.getLsbD_extractLsb']
    interval_cases i <;> simp
  · apply BitVec.eq_of_getLsbD_eq; intro i hi
    simp only [BitVec.getLsbD_append, reservedMask, BitVec.getLsbD_and]
    interval_cases i <;> simp

theorem OpcodeByte.seEmit : OpcodeByte.Statement (.seEmit) := by
  exact ⟨fun h hh => (by cases hh; exact ⟨.N, rfl, rfl⟩), rfl⟩

theorem OpcodeByte.keEncode (up : Bool) (dur : BitVec 16) : OpcodeByte.Statement (.keEncode up dur) := by
  refine ⟨fun h hh => ?_, rfl⟩
  cases hh
  refine legalHeader (opc := 0x18) (f := .T) ?_ rfl ?_
  · apply BitVec.eq_of_getLsbD_eq; intro i hi
    simp only [headerOpcode, BitVec.getLsbD_append, BitVec.getLsbD_extractLsb']
    interval_cases i <;> simp
  · apply BitVec.eq_of_getLsbD_eq; intro i hi
    simp only [BitVec.getLsbD_append, reservedMask, BitVec.getLsbD_and]
    interval_cases i <;> simp

theorem OpcodeByte.deltaEnc (bits : BitVec 4) (val : BitVec 16) : OpcodeByte.Statement (.deltaEnc bits val) := by
  refine ⟨fun h hh => ?_, rfl⟩
  cases hh
  refine legalHeader (opc := 0x20) (f := .D) ?_ rfl ?_
  · apply BitVec.eq_of_getLsbD_eq; intro i hi
    simp only [headerOpcode, BitVec.getLsbD_append, BitVec.getLsbD_extractLsb']
    interval_cases i <;> simp
  · apply BitVec.eq_of_getLsbD_eq; intro i hi
    simp only [BitVec.getLsbD_append, reservedMask, BitVec.getLsbD_and]
    interval_cases i <;> simp

theorem OpcodeByte.deltaDec (bits : BitVec 4) (val : BitVec 16) : OpcodeByte.Statement (.deltaDec bits val) := by
  refine ⟨fun h hh => ?_, rfl⟩
  cases hh
  refine legalHeader (opc := 0x21) (f := .D) ?_ rfl ?_
  · apply BitVec.eq_of_getLsbD_eq; intro i hi
    simp only [headerOpcode, BitVec.getLsbD_append, BitVec.getLsbD_extractLsb']
    interval_cases i <;> simp
  · apply BitVec.eq_of_getLsbD_eq; intro i hi
    simp only [BitVec.getLsbD_append, reservedMask, BitVec.getLsbD_and]
    interval_cases i <;> simp

theorem OpcodeByte.bbAdd (count : BitVec 5) (value : BitVec 16) : OpcodeByte.Statement (.bbAdd count value) := by
  refine ⟨fun h hh => ?_, rfl⟩
  cases hh
  refine legalHeader (opc := 0x28) (f := .A) ?_ rfl ?_
  · apply BitVec.eq_of_getLsbD_eq; intro i hi
    simp only [headerOpcode, BitVec.getLsbD_append, BitVec.getLsbD_extractLsb']
    interval_cases i <;> simp
  · apply BitVec.eq_of_getLsbD_eq; intro i hi
    simp only [BitVec.getLsbD_append, reservedMask, BitVec.getLsbD_and]
    interval_cases i <;> simp

theorem OpcodeByte.exLoad (payload : List Byte) : OpcodeByte.Statement (.exLoad payload) := by
  refine ⟨fun h hh => ?_, rfl⟩
  cases hh
  refine legalHeader (opc := 0x29) (f := .L) ?_ rfl ?_
  · apply BitVec.eq_of_getLsbD_eq; intro i hi
    simp only [headerOpcode, BitVec.getLsbD_append, BitVec.getLsbD_extractLsb']
    interval_cases i <;> simp
  · apply BitVec.eq_of_getLsbD_eq; intro i hi
    simp only [BitVec.getLsbD_append, reservedMask, BitVec.getLsbD_and]
    interval_cases i <;> simp

theorem OpcodeByte.exTake (count : BitVec 5) : OpcodeByte.Statement (.exTake count) := by
  refine ⟨fun h hh => ?_, rfl⟩
  cases hh
  refine legalHeader (opc := 0x2a) (f := .X) ?_ rfl ?_
  · apply BitVec.eq_of_getLsbD_eq; intro i hi
    simp only [headerOpcode, BitVec.getLsbD_append, BitVec.getLsbD_extractLsb']
    interval_cases i <;> simp
  · apply BitVec.eq_of_getLsbD_eq; intro i hi
    simp only [BitVec.getLsbD_append, reservedMask, BitVec.getLsbD_and]
    interval_cases i <;> simp

theorem OpcodeByte.crc14 (payload : List Byte) : OpcodeByte.Statement (.crc14 payload) := by
  refine ⟨fun h hh => ?_, rfl⟩
  cases hh
  refine legalHeader (opc := 0x30) (f := .L) ?_ rfl ?_
  · apply BitVec.eq_of_getLsbD_eq; intro i hi
    simp only [headerOpcode, BitVec.getLsbD_append, BitVec.getLsbD_extractLsb']
    interval_cases i <;> simp
  · apply BitVec.eq_of_getLsbD_eq; intro i hi
    simp only [BitVec.getLsbD_append, reservedMask, BitVec.getLsbD_and]
    interval_cases i <;> simp

theorem OpcodeByte.crc14Check (payload : List Byte) : OpcodeByte.Statement (.crc14Check payload) := by
  refine ⟨fun h hh => ?_, rfl⟩
  cases hh
  refine legalHeader (opc := 0x31) (f := .L) ?_ rfl ?_
  · apply BitVec.eq_of_getLsbD_eq; intro i hi
    simp only [headerOpcode, BitVec.getLsbD_append, BitVec.getLsbD_extractLsb']
    interval_cases i <;> simp
  · apply BitVec.eq_of_getLsbD_eq; intro i hi
    simp only [BitVec.getLsbD_append, reservedMask, BitVec.getLsbD_and]
    interval_cases i <;> simp

theorem OpcodeByte.ldpcPack (spare : BitVec 2) (crc : BitVec 14) (block : List Byte) : OpcodeByte.Statement (.ldpcPack spare crc block) := by
  refine ⟨fun h hh => ?_, rfl⟩
  cases hh
  refine legalHeader (opc := 0x38) (f := .P) ?_ rfl ?_
  · apply BitVec.eq_of_getLsbD_eq; intro i hi
    simp only [headerOpcode, BitVec.getLsbD_append, BitVec.getLsbD_extractLsb']
    interval_cases i <;> simp
  · apply BitVec.eq_of_getLsbD_eq; intro i hi
    simp only [BitVec.getLsbD_append, reservedMask, BitVec.getLsbD_and]
    interval_cases i <;> simp

theorem OpcodeByte.ldpcEncode (message : List Byte) : OpcodeByte.Statement (.ldpcEncode message) := by
  exact ⟨fun h hh => (by cases hh; exact ⟨.K, rfl, rfl⟩), rfl⟩

theorem OpcodeByte.grayTo (nib : BitVec 8) : OpcodeByte.Statement (.grayTo nib) := by
  refine ⟨fun h hh => ?_, rfl⟩
  cases hh
  refine legalHeader (opc := 0x40) (f := .G) ?_ rfl ?_
  · apply BitVec.eq_of_getLsbD_eq; intro i hi
    simp only [headerOpcode, BitVec.getLsbD_append, BitVec.getLsbD_extractLsb']
    interval_cases i <;> simp
  · apply BitVec.eq_of_getLsbD_eq; intro i hi
    simp only [BitVec.getLsbD_append, reservedMask, BitVec.getLsbD_and]
    interval_cases i <;> simp

theorem OpcodeByte.grayFrom (nib : BitVec 8) : OpcodeByte.Statement (.grayFrom nib) := by
  refine ⟨fun h hh => ?_, rfl⟩
  cases hh
  refine legalHeader (opc := 0x41) (f := .G) ?_ rfl ?_
  · apply BitVec.eq_of_getLsbD_eq; intro i hi
    simp only [headerOpcode, BitVec.getLsbD_append, BitVec.getLsbD_extractLsb']
    interval_cases i <;> simp
  · apply BitVec.eq_of_getLsbD_eq; intro i hi
    simp only [BitVec.getLsbD_append, reservedMask, BitVec.getLsbD_and]
    interval_cases i <;> simp

theorem OpcodeByte.chanEncode (isEnd : Bool) (block : List Byte) : OpcodeByte.Statement (.chanEncode isEnd block) := by
  refine ⟨fun h hh => ?_, rfl⟩
  cases hh
  refine legalHeader (opc := 0x48) (f := .B) ?_ rfl ?_
  · apply BitVec.eq_of_getLsbD_eq; intro i hi
    simp only [headerOpcode, BitVec.getLsbD_append, BitVec.getLsbD_extractLsb']
    interval_cases i <;> simp
  · apply BitVec.eq_of_getLsbD_eq; intro i hi
    simp only [BitVec.getLsbD_append, reservedMask, BitVec.getLsbD_and]
    interval_cases i <;> simp

theorem OpcodeByte.gfskMod (rampDown rampUp : Bool) (tones : List Byte) : OpcodeByte.Statement (.gfskMod rampDown rampUp tones) := by
  refine ⟨fun h hh => ?_, rfl⟩
  cases hh
  refine legalHeader (opc := 0x50) (f := .M) ?_ rfl ?_
  · apply BitVec.eq_of_getLsbD_eq; intro i hi
    simp only [headerOpcode, BitVec.getLsbD_append, BitVec.getLsbD_extractLsb']
    interval_cases i <;> simp
  · apply BitVec.eq_of_getLsbD_eq; intro i hi
    simp only [BitVec.getLsbD_append, reservedMask, BitVec.getLsbD_and]
    interval_cases i <;> simp

theorem OpcodeByte.csrRead (csr : BitVec 8) : OpcodeByte.Statement (.csrRead csr) := by
  refine ⟨fun h hh => ?_, rfl⟩
  cases hh
  refine legalHeader (opc := 0x70) (f := .R) ?_ rfl ?_
  · apply BitVec.eq_of_getLsbD_eq; intro i hi
    simp only [headerOpcode, BitVec.getLsbD_append, BitVec.getLsbD_extractLsb']
    interval_cases i <;> simp
  · apply BitVec.eq_of_getLsbD_eq; intro i hi
    simp only [BitVec.getLsbD_append, reservedMask, BitVec.getLsbD_and]
    interval_cases i <;> simp

theorem OpcodeByte.csrWrite (csr : BitVec 8) (value : Word) : OpcodeByte.Statement (.csrWrite csr value) := by
  refine ⟨fun h hh => ?_, rfl⟩
  cases hh
  refine legalHeader (opc := 0x71) (f := .R) ?_ rfl ?_
  · apply BitVec.eq_of_getLsbD_eq; intro i hi
    simp only [headerOpcode, BitVec.getLsbD_append, BitVec.getLsbD_extractLsb']
    interval_cases i <;> simp
  · apply BitVec.eq_of_getLsbD_eq; intro i hi
    simp only [BitVec.getLsbD_append, reservedMask, BitVec.getLsbD_and]
    interval_cases i <;> simp

theorem OpcodeByte.padding : OpcodeByte.Statement (.padding) :=
  ⟨fun _ hh => (by cases hh), rfl⟩

theorem OpcodeByte.wpmPolarity (wpm : BitVec 6) (polarity : Bool) : OpcodeByte.Statement (.wpmPolarity wpm polarity) :=
  ⟨fun _ hh => (by cases hh), rfl⟩

theorem OpcodeByte.callsignMetadata : OpcodeByte.Statement (.callsignMetadata) :=
  ⟨fun _ hh => (by cases hh), rfl⟩

theorem OpcodeByte.callsignHashMetadata : OpcodeByte.Statement (.callsignHashMetadata) :=
  ⟨fun _ hh => (by cases hh), rfl⟩

theorem OpcodeByte.locatorMetadata : OpcodeByte.Statement (.locatorMetadata) :=
  ⟨fun _ hh => (by cases hh), rfl⟩

theorem OpcodeByte.powerMetadata : OpcodeByte.Statement (.powerMetadata) :=
  ⟨fun _ hh => (by cases hh), rfl⟩

theorem OpcodeByte.keyingPerfectDit : OpcodeByte.Statement (.keyingPerfectDit) :=
  ⟨fun _ hh => (by cases hh), rfl⟩

theorem OpcodeByte.keyingPerfectDah : OpcodeByte.Statement (.keyingPerfectDah) :=
  ⟨fun _ hh => (by cases hh), rfl⟩

theorem OpcodeByte.keyingPerfectWordgap : OpcodeByte.Statement (.keyingPerfectWordgap) :=
  ⟨fun _ hh => (by cases hh), rfl⟩

theorem OpcodeByte.keyingEnd : OpcodeByte.Statement (.keyingEnd) :=
  ⟨fun _ hh => (by cases hh), rfl⟩

theorem OpcodeByte.keyingDeltaDit (delta : Int) : OpcodeByte.Statement (.keyingDeltaDit delta) :=
  ⟨fun _ hh => (by cases hh), rfl⟩

theorem OpcodeByte.keyingDeltaDah (delta : Int) : OpcodeByte.Statement (.keyingDeltaDah delta) :=
  ⟨fun _ hh => (by cases hh), rfl⟩

theorem OpcodeByte.keyingDeltaWordgap (delta : Int) : OpcodeByte.Statement (.keyingDeltaWordgap delta) :=
  ⟨fun _ hh => (by cases hh), rfl⟩

theorem OpcodeByte.keyingNaive (duration : BitVec 11) : OpcodeByte.Statement (.keyingNaive duration) :=
  ⟨fun _ hh => (by cases hh), rfl⟩

theorem OpcodeByte.unused : OpcodeByte.Statement (.unused) :=
  ⟨fun _ hh => (by cases hh), rfl⟩

theorem OpcodeByte.extension : OpcodeByte.Statement (.extension) :=
  ⟨fun _ hh => (by cases hh), rfl⟩

theorem OpcodeByte.tone0 : OpcodeByte.Statement (.tone0) :=
  ⟨fun _ hh => (by cases hh), rfl⟩

theorem OpcodeByte.tone1 : OpcodeByte.Statement (.tone1) :=
  ⟨fun _ hh => (by cases hh), rfl⟩

theorem OpcodeByte.tone2 : OpcodeByte.Statement (.tone2) :=
  ⟨fun _ hh => (by cases hh), rfl⟩

theorem OpcodeByte.tone3 : OpcodeByte.Statement (.tone3) :=
  ⟨fun _ hh => (by cases hh), rfl⟩

theorem OpcodeByte.tone4 : OpcodeByte.Statement (.tone4) :=
  ⟨fun _ hh => (by cases hh), rfl⟩

theorem OpcodeByte.tone5 : OpcodeByte.Statement (.tone5) :=
  ⟨fun _ hh => (by cases hh), rfl⟩

theorem OpcodeByte.tone6 : OpcodeByte.Statement (.tone6) :=
  ⟨fun _ hh => (by cases hh), rfl⟩

theorem OpcodeByte.tone7 : OpcodeByte.Statement (.tone7) :=
  ⟨fun _ hh => (by cases hh), rfl⟩

theorem OpcodeByte.tone8 : OpcodeByte.Statement (.tone8) :=
  ⟨fun _ hh => (by cases hh), rfl⟩

theorem OpcodeByte.tone9 : OpcodeByte.Statement (.tone9) :=
  ⟨fun _ hh => (by cases hh), rfl⟩

theorem OpcodeByte.tone10 : OpcodeByte.Statement (.tone10) :=
  ⟨fun _ hh => (by cases hh), rfl⟩

theorem OpcodeByte.tone11 : OpcodeByte.Statement (.tone11) :=
  ⟨fun _ hh => (by cases hh), rfl⟩

theorem OpcodeByte.tone12 : OpcodeByte.Statement (.tone12) :=
  ⟨fun _ hh => (by cases hh), rfl⟩

theorem OpcodeByte.tone13 : OpcodeByte.Statement (.tone13) :=
  ⟨fun _ hh => (by cases hh), rfl⟩

theorem OpcodeByte.tone14 : OpcodeByte.Statement (.tone14) :=
  ⟨fun _ hh => (by cases hh), rfl⟩

theorem OpcodeByte.tone15 : OpcodeByte.Statement (.tone15) :=
  ⟨fun _ hh => (by cases hh), rfl⟩

theorem OpcodeByte.rampUp : OpcodeByte.Statement (.rampUp) :=
  ⟨fun _ hh => (by cases hh), rfl⟩

theorem OpcodeByte.rampDown : OpcodeByte.Statement (.rampDown) :=
  ⟨fun _ hh => (by cases hh), rfl⟩

end Sys2Proof.Laws
end

