-- ==== Sys2Proof/Laws/WaveReal.lean ====
section
/-! SUPPORT. The waveform of Machine/Gfsk.lean against the real one of Machine/Reference.lean: pulse, phase, envelope and
sample (`approximateSample_error`), and with them the comparison that decides what a sample rounds to, which is that of
the real numbers (`compareSample_eq`, log 7). -/

namespace Sys2Proof.Machine
open Real

/-! ## The pulse -/

theorem gaussEdge_error {b sps : ℕ} (hb : 1536 ≤ b) (hs : 0 < sps) {d : ℤ} (hd : |(d : ℝ)| ≤ 2 * sps) :
    |(gaussEdge b sps d : ℝ) - fixOne b * realErf (realK * gfskBT * ((d : ℝ) / sps))| ≤ 2 ^ 708 * loss b + 2 ^ 17 * loss b := by
  have hF := fixOne_real_pos b
  have hs' : (0 : ℝ) < sps := by exact_mod_cast hs
  have hL := one_le_loss b
  obtain ⟨hG, hG2⟩ := fixGauss_error hb
  have h3 : |(d : ℝ) / sps| ≤ 2 := by rw [abs_div, abs_of_pos hs', div_le_iff₀ hs']; exact hd
  unfold gaussEdge
  have h0 := intDiv_near ((fixGauss b : ℤ) * d) sps hs
  generalize ((fixGauss b : ℤ) * d / (sps : ℤ)) = a at h0 ⊢
  have ha : a.natAbs ≤ 22 * fixOne b := by
    have h1F : (2 : ℝ) ^ 10 ≤ fixOne b := by
      have h : (loss b : ℝ) * 2 ^ 10 ≤ fixOne b := by exact_mod_cast loss_small hb (k := 10) (by norm_num)
      linarith
    have h5 : |(((fixGauss b : ℤ) * d : ℤ) : ℝ) / sps| ≤ 10.9 * fixOne b * 2 := by
      push_cast
      rw [mul_div_assoc, abs_mul, abs_of_nonneg (by positivity : (0 : ℝ) ≤ fixGauss b)]
      exact mul_le_mul hG2 h3 (abs_nonneg _) (by positivity)
    have h6 : |(a : ℝ)| ≤ 22 * fixOne b := by
      have h7 := abs_add_le ((a : ℝ) - (((fixGauss b : ℤ) * d : ℤ) : ℝ) / sps) ((((fixGauss b : ℤ) * d : ℤ) : ℝ) / sps)
      rw [sub_add_cancel] at h7
      linarith
    rw [← Int.cast_abs, Int.abs_eq_natAbs] at h6
    exact_mod_cast h6
  have h1 := fixErfSigned_error hb ha
  have h2 : |(a : ℝ) - fixOne b * (realK * gfskBT * ((d : ℝ) / sps))| ≤ 1 + 2 ^ 15 * loss b := by
    have e : (a : ℝ) - fixOne b * (realK * gfskBT * ((d : ℝ) / sps)) =
        ((a : ℝ) - (((fixGauss b : ℤ) * d : ℤ) : ℝ) / sps)
          + ((fixGauss b : ℝ) - fixOne b * (realK * gfskBT)) * ((d : ℝ) / sps) := by push_cast; field_simp; ring
    have h4 := mul_le_mul hG h3 (abs_nonneg _) (by positivity)
    rw [e]
    refine (abs_add_le _ _).trans ?_
    rw [abs_mul]
    linarith
  have h3 := (realErf_lipschitz _ _).trans (mul_le_mul_of_nonneg_left (div_fixOne_near h2) (by norm_num))
  have e : (fixErfSigned b a : ℝ) - fixOne b * realErf (realK * gfskBT * ((d : ℝ) / sps)) =
      ((fixErfSigned b a : ℝ) - fixOne b * realErf ((a : ℝ) / fixOne b))
        + fixOne b * (realErf ((a : ℝ) / fixOne b) - realErf (realK * gfskBT * ((d : ℝ) / sps))) := by ring
  rw [e]
  refine (abs_add_le _ _).trans ?_
  rw [abs_mul, abs_of_pos hF]
  refine add_le_add h1 ((mul_le_mul_of_nonneg_left h3 hF.le).trans ?_)
  rw [show (fixOne b : ℝ) * (2 * ((1 + 2 ^ 15 * loss b) / fixOne b)) = 2 * (1 + 2 ^ 15 * loss b) by field_simp]
  linarith

theorem pulse_error {b sps : ℕ} (hb : 1536 ≤ b) (hs : 0 < sps) (j : ℤ) :
    |(pulse b sps j : ℝ) - fixOne b * realPulse sps j| ≤ 2 ^ 709 * loss b := by
  have hs' : (0 : ℝ) < sps := by exact_mod_cast hs
  unfold pulse realPulse
  split
  · rename_i hj
    have hj0 : (0 : ℝ) ≤ j := by exact_mod_cast hj.1
    have hj1 : (j : ℝ) < 3 * sps := by exact_mod_cast hj.2
    have h1 := gaussEdge_error hb hs (d := j - sps) (by push_cast; rw [abs_le]; constructor <;> linarith)
    have h2 := gaussEdge_error hb hs (d := j - 2 * sps) (by push_cast; rw [abs_le]; constructor <;> linarith)
    have e1 : ((j - sps : ℤ) : ℝ) / sps = ((j : ℝ) / sps - 3 / 2) + 1 / 2 := by push_cast; field_simp; ring
    have e2 : ((j - 2 * sps : ℤ) : ℝ) / sps = ((j : ℝ) / sps - 3 / 2) - 1 / 2 := by push_cast; field_simp; ring
    rw [e1] at h1
    rw [e2] at h2
    generalize gaussEdge b sps (j - sps) = A1 at *
    generalize gaussEdge b sps (j - 2 * sps) = A2 at *
    have h3 : |(((A1 - A2) / 2 : ℤ) : ℝ) - ((A1 : ℝ) - A2) / 2| ≤ 1 := by
      have h := intDiv_near (A1 - A2) 2 (by norm_num)
      push_cast at h
      exact h
    have hL := one_le_loss b
    have hB : (2 : ℝ) ^ 709 = 2 ^ 708 * 2 := pow_succ _ _
    have hB' : (2 : ℝ) ^ 18 ≤ 2 ^ 708 := pow_le_pow_right₀ (by norm_num) (by norm_num)
    have hBL := mul_le_mul_of_nonneg_right hB' (zero_le_one.trans hL)
    rw [hB]
    generalize (((A1 - A2) / 2 : ℤ) : ℝ) = Z at *
    generalize (2 : ℝ) ^ 708 = B at *
    generalize realErf _ = E1 at *
    generalize realErf _ = E2 at *
    clear hB hB'
    rw [abs_le] at h1 h2 h3 ⊢
    constructor <;> linarith [h1.1, h1.2, h2.1, h2.2, h3.1, h3.2]
  · simp only [Int.cast_zero, mul_zero, sub_zero, abs_zero]; positivity

/-! ## Sums -/

theorem sum_error {b : ℕ} {α : Type} {f : α → ℤ} {g : α → ℝ} {c : ℝ} :
    ∀ l : List α, (∀ x ∈ l, |(f x : ℝ) - fixOne b * g x| ≤ c) →
      |(((l.map f).sum : ℤ) : ℝ) - fixOne b * (l.map g).sum| ≤ l.length * c
  | [], _ => by simp
  | x :: l, h => by
    have h1 := h x (by simp)
    have h2 := sum_error l fun y hy => h y (by simp [hy])
    have e : ((((x :: l).map f).sum : ℤ) : ℝ) - fixOne b * ((x :: l).map g).sum =
        ((f x : ℝ) - fixOne b * g x) + ((((l.map f).sum : ℤ) : ℝ) - fixOne b * (l.map g).sum) := by
      rw [List.map_cons, List.map_cons, List.sum_cons, List.sum_cons, Int.cast_add]; ring
    rw [e]
    refine (abs_add_le _ _).trans ((add_le_add h1 h2).trans (le_of_eq ?_))
    rw [List.length_cons, Nat.cast_succ]; ring

theorem shapedSymbols_length (r : GfskRequest) : (shapedSymbols r).length ≤ r.tones.length + 2 := by
  unfold shapedSymbols; simp only [List.length_append]; split <;> split <;> simp <;> omega

theorem headD_toNat_lt (l : List Byte) : (l.map BitVec.toNat).headD 0 < 256 := by
  cases l with
  | nil => simp
  | cons a l => exact a.isLt

theorem getLastD_toNat_lt (l : List Byte) : (l.map BitVec.toNat).getLastD 0 < 256 := by
  rw [List.getLastD_eq_getLast?, List.getLast?_map]
  cases l.getLast? with
  | none => simp
  | some a => exact a.isLt

theorem shapedSymbols_tone {r : GfskRequest} {x : ℤ × ℕ} (h : x ∈ shapedSymbols r) : x.2 < 256 := by
  unfold shapedSymbols at h
  simp only [List.mem_append] at h
  rcases h with (h | h) | h
  · split at h
    · rw [List.mem_singleton] at h; rw [h]; exact headD_toNat_lt _
    · simp at h
  · obtain ⟨y, hy, rfl⟩ := List.mem_map.1 h
    obtain ⟨b, hb, he⟩ := List.mem_map.1 (List.mem_of_getElem? (List.mem_zipIdx_iff_getElem?.1 hy))
    show y.1 < 256
    rw [← he]; exact b.isLt
  · split at h
    · rw [List.mem_singleton] at h; rw [h]; exact getLastD_toNat_lt _
    · simp at h

theorem toneSum_error {b : ℕ} (hb : 1536 ≤ b) {r : GfskRequest} (hs : 0 < requestSps r) (k : ℕ) :
    |(toneSum b r k : ℝ) - fixOne b * realToneSum r k| ≤ (r.tones.length + 2) * (256 * (2 ^ 709 * loss b)) := by
  unfold toneSum realToneSum
  refine (sum_error (c := 256 * (2 ^ 709 * loss b)) _ fun x hx => ?_).trans ?_
  · have h := pulse_error hb hs ((k : ℤ) - firstSlot r - x.1 * requestSps r + requestSps r)
    have hx : (x.2 : ℝ) ≤ 256 := by exact_mod_cast (shapedSymbols_tone hx).le
    have e : (((x.2 : ℤ) * pulse b (requestSps r) ((k : ℤ) - firstSlot r - x.1 * requestSps r + requestSps r) : ℤ) : ℝ)
        - fixOne b * ((x.2 : ℝ) * realPulse (requestSps r) ((k : ℤ) - firstSlot r - x.1 * requestSps r + requestSps r)) =
        x.2 * ((pulse b (requestSps r) ((k : ℤ) - firstSlot r - x.1 * requestSps r + requestSps r) : ℝ)
          - fixOne b * realPulse (requestSps r) ((k : ℤ) - firstSlot r - x.1 * requestSps r + requestSps r)) := by
      push_cast; ring
    rw [e, abs_mul, abs_of_nonneg (by positivity : (0 : ℝ) ≤ x.2)]
    gcongr
  · gcongr
    exact_mod_cast shapedSymbols_length r

theorem toneSumBefore_error {b : ℕ} (hb : 1536 ≤ b) {r : GfskRequest} (hs : 0 < requestSps r) (k : ℕ) :
    |(toneSumBefore b r k : ℝ) - fixOne b * ((List.range k).map (realToneSum r)).sum|
      ≤ k * ((r.tones.length + 2) * (256 * (2 ^ 709 * loss b))) := by
  have h := sum_error (List.range k) fun i _ => toneSum_error hb hs i
  rwa [List.length_range] at h

/-! ## The sine of a phase in turns -/

theorem sinTurn_quadrant {b : ℕ} (hb : 1536 ≤ b) {w : ℕ} (hw : w ≤ fixOne b / 4) :
    2 * fixPi b * w / fixOne b ≤ 2 * fixOne b ∧
    |((2 * fixPi b * w / fixOne b : ℕ) : ℝ) - fixOne b * (2 * π * ((w : ℝ) / fixOne b))| ≤ 31 * loss b := by
  have hF := fixOne_real_pos b
  have hw4 : (w : ℝ) * 4 ≤ fixOne b := by exact_mod_cast (by omega : w * 4 ≤ fixOne b)
  have hw' : (w : ℝ) / fixOne b ≤ 1 / 4 := by rw [div_le_iff₀ hF]; linarith
  constructor
  · have h : (2 * fixPi b * w : ℝ) ≤ 2 * fixOne b * fixOne b := by
      have h1 := mul_le_mul (fixPi_bounds hb).2 hw4 (by positivity) (by positivity)
      nlinarith
    exact Nat.div_le_of_le_mul (by rw [Nat.mul_comm (fixOne b)]; exact_mod_cast h)
  · have h1 := natDiv_near (2 * fixPi b * w) (fixOne b)
    have e : ((2 * fixPi b * w / fixOne b : ℕ) : ℝ) - fixOne b * (2 * π * ((w : ℝ) / fixOne b)) =
        (((2 * fixPi b * w / fixOne b : ℕ) : ℝ) - ((2 * fixPi b * w : ℕ) : ℝ) / fixOne b)
          + 2 * ((w : ℝ) / fixOne b) * ((fixPi b : ℝ) - fixOne b * π) := by push_cast; field_simp; ring
    have h2 := mul_le_mul hw' (fixPi_error b) (abs_nonneg _) (by norm_num)
    have hL := one_le_loss b
    rw [e]
    refine (abs_add_le _ _).trans ?_
    rw [abs_mul, abs_of_nonneg (by positivity : (0 : ℝ) ≤ 2 * ((w : ℝ) / fixOne b))]
    linarith

theorem fixSin_near {b x : ℕ} {θ e : ℝ} (hx : x ≤ 2 * fixOne b) (h : |(x : ℝ) - fixOne b * θ| ≤ e) :
    |(fixSin b x : ℝ) - fixOne b * Real.sin θ| ≤ 9 * loss b + e ∧
    |(fixCos b x : ℝ) - fixOne b * Real.cos θ| ≤ 9 * loss b + e := by
  have hF := fixOne_real_pos b
  have h0 := div_fixOne_near h
  have key : ∀ {u v c : ℝ}, |u - fixOne b * v| ≤ 9 * loss b → |v - c| ≤ |(x : ℝ) / fixOne b - θ| →
      |u - fixOne b * c| ≤ 9 * loss b + e := by
    intro u v c h1 h2
    have e1 : u - fixOne b * c = (u - fixOne b * v) + fixOne b * (v - c) := by ring
    rw [e1]
    refine (abs_add_le _ _).trans (add_le_add h1 ?_)
    rw [abs_mul, abs_of_pos hF]
    calc _ ≤ (fixOne b : ℝ) * (e / fixOne b) := by gcongr; exact h2.trans h0
      _ = e := by field_simp
  exact ⟨key (fixSin_error hx) (Real.abs_sin_sub_sin_le _ _), key (fixCos_error hx) (Real.abs_cos_sub_cos_le _ _)⟩

theorem fixOne_quarter {b : ℕ} (hb : 1536 ≤ b) : fixOne b = 4 * (fixOne b / 4) := by
  obtain ⟨m, rfl⟩ := Nat.exists_eq_add_of_le hb
  rw [Nat.mul_div_cancel']
  unfold fixOne
  rw [show 1536 + m = 2 + (1534 + m) by omega, pow_add]
  exact Dvd.intro _ rfl

theorem sinTurn_error {b : ℕ} (hb : 1536 ≤ b) (u : ℤ) : |(sinTurn b u : ℝ) - fixOne b * Real.sin (2 * π * ((u : ℝ) / fixOne b))| ≤ 40 * loss b := by
  have hF := fixOne_real_pos b
  have hFz : (0 : ℤ) < fixOne b := by exact_mod_cast (fixOne_pos b)
  have h4 := fixOne_quarter hb
  have hv : ((u % fixOne b).toNat : ℤ) = u % fixOne b := Int.toNat_of_nonneg (Int.emod_nonneg _ hFz.ne')
  have hvlt : (u % fixOne b).toNat < fixOne b := by
    have := Int.emod_lt_of_pos u hFz; omega
  have hu : u = fixOne b * (u / fixOne b) + (u % fixOne b).toNat := by rw [hv]; exact (Int.mul_ediv_add_emod u (fixOne b)).symm
  have hsin : Real.sin (2 * π * ((u : ℝ) / fixOne b)) = Real.sin (2 * π * (((u % fixOne b).toNat : ℝ) / fixOne b)) := by
    have hu' : (u : ℝ) = fixOne b * ((u / fixOne b : ℤ) : ℝ) + ((u % fixOne b).toNat : ℝ) := by exact_mod_cast hu
    have e : 2 * π * ((u : ℝ) / fixOne b) =
        2 * π * (((u % fixOne b).toNat : ℝ) / fixOne b) + ((u / fixOne b : ℤ) : ℝ) * (2 * π) := by
      rw [hu']; field_simp; ring
    rw [e, Real.sin_add_int_mul_two_pi]
  rw [hsin]
  unfold sinTurn
  simp only
  generalize (u % fixOne b).toNat = v at hvlt
  have hq : v / (fixOne b / 4) < 4 := by
    rw [Nat.div_lt_iff_lt_mul (by omega)]; omega
  have hw : v % (fixOne b / 4) ≤ fixOne b / 4 := (Nat.mod_lt _ (by omega)).le
  have hsplit : (v : ℝ) / fixOne b = ((v / (fixOne b / 4) : ℕ) : ℝ) / 4 + ((v % (fixOne b / 4) : ℕ) : ℝ) / fixOne b := by
    have h1 : (v : ℝ) * 4 = fixOne b * ((v / (fixOne b / 4) : ℕ) : ℝ) + 4 * ((v % (fixOne b / 4) : ℕ) : ℝ) := by
      have h2 := Nat.div_add_mod v (fixOne b / 4)
      have h3 : v * 4 = fixOne b * (v / (fixOne b / 4)) + 4 * (v % (fixOne b / 4)) := by
        have h5 : fixOne b * (v / (fixOne b / 4)) = 4 * (fixOne b / 4 * (v / (fixOne b / 4))) := by
          rw [← mul_assoc, ← h4]
        omega
      exact_mod_cast h3
    field_simp; linarith
  obtain ⟨hx, he⟩ := sinTurn_quadrant hb hw
  obtain ⟨hs, hc⟩ := fixSin_near hx he
  have e : 2 * π * ((v : ℝ) / fixOne b) =
      2 * π * (((v % (fixOne b / 4) : ℕ) : ℝ) / fixOne b) + ((v / (fixOne b / 4) : ℕ) : ℝ) * (π / 2) := by
    rw [hsplit]; ring
  rw [e]
  generalize 2 * π * (((v % (fixOne b / 4) : ℕ) : ℝ) / fixOne b) = θ at hs hc ⊢
  generalize 2 * fixPi b * (v % (fixOne b / 4)) / fixOne b = x at hs hc ⊢
  have hnum : 9 * (loss b : ℝ) + 31 * loss b ≤ 40 * loss b := by linarith
  generalize v / (fixOne b / 4) = a at hq ⊢
  match a, hq with
  | 0, _ => simpa using hs.trans hnum
  | 1, _ =>
    rw [show θ + ((1 : ℕ) : ℝ) * (π / 2) = θ + π / 2 by push_cast; ring, Real.sin_add_pi_div_two]
    exact hc.trans hnum
  | 2, _ =>
    rw [show θ + ((2 : ℕ) : ℝ) * (π / 2) = θ + π by push_cast; ring, Real.sin_add_pi, ← abs_neg]
    refine le_trans (le_of_eq ?_) (hs.trans hnum)
    congr 1; push_cast; ring
  | 3, _ =>
    rw [show θ + ((3 : ℕ) : ℝ) * (π / 2) = θ + π / 2 + π by push_cast; ring, Real.sin_add_pi,
      Real.sin_add_pi_div_two, ← abs_neg]
    refine le_trans (le_of_eq ?_) (hc.trans hnum)
    congr 1; push_cast; ring

/-! ## The phase -/

/-- The phase over the reals before it is reduced, in turns (R297, R298). -/
noncomputable def realTurns (r : GfskRequest) (k : ℕ) : ℝ :=
  k * (realOffset r / requestRate r) + hmod / requestSps r * ((List.range k).map (realToneSum r)).sum

theorem realPhase_turns (r : GfskRequest) (k : ℕ) : ∃ m : ℤ, realPhase r k = 2 * π * realTurns r k - m * (2 * π) := by
  induction k with
  | zero => exact ⟨0, by simp [realPhase, realTurns]⟩
  | succ k ih =>
    obtain ⟨m, hm⟩ := ih
    refine ⟨m + ⌊(realPhase r k + realIncrement r k) / (2 * π)⌋, ?_⟩
    have e : 2 * π * realTurns r (k + 1) = 2 * π * realTurns r k + realIncrement r k := by
      unfold realTurns realIncrement
      rw [List.range_succ, List.map_append, List.sum_append, List.map_singleton, List.sum_singleton]
      push_cast; ring
    rw [e]
    show fmod2pi _ = _
    unfold fmod2pi
    push_cast
    generalize (⌊(realPhase r k + realIncrement r k) / (2 * π)⌋ : ℝ) = q
    rw [hm]; ring

theorem offsetTurns_error {b : ℕ} {r : GfskRequest} (hr : 0 < requestRate r) (k : ℕ) :
    ∃ z : ℤ, |(offsetTurns b r k : ℝ) - fixOne b * (k * (realOffset r / requestRate r) - z)| ≤ 1 := by
  have hr' : (0 : ℝ) < requestRate r := by exact_mod_cast hr
  unfold offsetTurns realOffset
  simp only
  generalize requestRate r = U at *
  generalize binary32Units r.audioOffset = A
  refine ⟨((k * A / (U * 2 ^ 149) : ℕ) : ℤ), ?_⟩
  have h := natDiv_near (k * A % (U * 2 ^ 149) * fixOne b) (U * 2 ^ 149)
  have h2 : ((k * A % (U * 2 ^ 149) : ℕ) : ℝ) =
      k * A - U * 2 ^ 149 * ((k * A / (U * 2 ^ 149) : ℕ) : ℝ) := by
    have h3 := Nat.div_add_mod (k * A) (U * 2 ^ 149)
    have h4 : (U : ℝ) * 2 ^ 149 * ((k * A / (U * 2 ^ 149) : ℕ) : ℝ) + ((k * A % (U * 2 ^ 149) : ℕ) : ℝ) = k * A := by
      exact_mod_cast h3
    linarith only [h4]
  rw [Nat.cast_mul (k * A % (U * 2 ^ 149)), h2] at h
  rw [Int.cast_natCast, Int.cast_natCast]
  generalize k * A % (U * 2 ^ 149) * fixOne b / (U * 2 ^ 149) = Z at *
  generalize k * A / (U * 2 ^ 149) = q at *
  convert h using 2
  rw [Nat.cast_mul, Nat.cast_pow, Nat.cast_ofNat]
  have hB : (2 : ℝ) ^ 149 ≠ 0 := by positivity
  generalize (2 : ℝ) ^ 149 = B at *
  field_simp

theorem phaseTurns_error {b : ℕ} {r : GfskRequest} (hr : 0 < requestRate r) (hs : 8 ≤ requestSps r) {k : ℕ} {acc : ℤ} {e : ℝ}
    (ha : |(acc : ℝ) - fixOne b * ((List.range k).map (realToneSum r)).sum| ≤ e) :
    ∃ z : ℤ, |(phaseTurns b r k acc : ℝ) - fixOne b * (realTurns r k - z)| ≤ 2 + e / 8 := by
  obtain ⟨z, hz⟩ := offsetTurns_error hr k
  have hs' : (8 : ℝ) ≤ requestSps r := by exact_mod_cast hs
  have h1 := intDiv_near ((hmod : ℤ) * acc) (requestSps r) (by omega)
  refine ⟨z, ?_⟩
  unfold phaseTurns realTurns
  have h2 : |((acc : ℝ) - fixOne b * ((List.range k).map (realToneSum r)).sum) / requestSps r| ≤ e / 8 := by
    rw [abs_div, abs_of_pos (by linarith only [hs'] : (0 : ℝ) < requestSps r)]
    exact div_le_div₀ ((abs_nonneg _).trans ha) ha (by norm_num) hs'
  have e1 : ((offsetTurns b r k + (hmod : ℤ) * acc / (requestSps r : ℤ) : ℤ) : ℝ) - fixOne b *
      (k * (realOffset r / requestRate r) + hmod / requestSps r * ((List.range k).map (realToneSum r)).sum - z) =
      ((offsetTurns b r k : ℝ) - fixOne b * (k * (realOffset r / requestRate r) - z))
        + (((((hmod : ℤ) * acc / (requestSps r : ℤ) : ℤ) : ℝ)) - (((hmod : ℤ) * acc : ℤ) : ℝ) / requestSps r)
        + ((acc : ℝ) - fixOne b * ((List.range k).map (realToneSum r)).sum) / requestSps r := by
    have : (hmod : ℝ) = 1 := by norm_num [hmod]
    push_cast; rw [this]; field_simp; ring
  rw [e1]
  exact (abs_add_three _ _ _).trans ((add_le_add_three hz h1 h2).trans (le_of_eq (by ring)))

/-- The sine of a phase in turns that is near the real one, a whole number of turns apart. -/
theorem sinTurn_near {b : ℕ} (hb : 1536 ≤ b) {u : ℤ} {t e : ℝ} {z : ℤ} (h : |(u : ℝ) - fixOne b * (t - z)| ≤ e) :
    |(sinTurn b u : ℝ) - fixOne b * Real.sin (2 * π * t)| ≤ 40 * loss b + 8 * e := by
  have hF := fixOne_real_pos b
  have h1 := sinTurn_error hb u
  have h2 := div_fixOne_near h
  have e1 : Real.sin (2 * π * t) = Real.sin (2 * π * (t - z)) := by
    rw [show 2 * π * (t - z) = 2 * π * t - z * (2 * π) by ring, Real.sin_sub_int_mul_two_pi]
  rw [e1]
  have h3 : |Real.sin (2 * π * ((u : ℝ) / fixOne b)) - Real.sin (2 * π * (t - z))| ≤ 8 * (e / fixOne b) := by
    refine (Real.abs_sin_sub_sin_le _ _).trans ?_
    rw [← mul_sub, abs_mul, abs_of_pos (by positivity : (0 : ℝ) < 2 * π)]
    have := Real.pi_le_four
    gcongr; linarith only [this]
  have e2 : (sinTurn b u : ℝ) - fixOne b * Real.sin (2 * π * (t - z)) =
      ((sinTurn b u : ℝ) - fixOne b * Real.sin (2 * π * ((u : ℝ) / fixOne b)))
        + fixOne b * (Real.sin (2 * π * ((u : ℝ) / fixOne b)) - Real.sin (2 * π * (t - z))) := by ring
  rw [e2]
  refine (abs_add_le _ _).trans (add_le_add h1 ?_)
  rw [abs_mul, abs_of_pos hF]
  calc _ ≤ (fixOne b : ℝ) * (8 * (e / fixOne b)) := by gcongr
    _ = 8 * e := by field_simp

theorem sinPhase_error {b : ℕ} (hb : 1536 ≤ b) {r : GfskRequest} (hr : 0 < requestRate r) (hs : 8 ≤ requestSps r) {k : ℕ} {acc : ℤ} {e : ℝ}
    (ha : |(acc : ℝ) - fixOne b * ((List.range k).map (realToneSum r)).sum| ≤ e) :
    |(sinTurn b (phaseTurns b r k acc) : ℝ) - fixOne b * Real.sin (realPhase r k)| ≤ 56 * loss b + e := by
  obtain ⟨z, hz⟩ := phaseTurns_error hr hs ha
  obtain ⟨m, hm⟩ := realPhase_turns r k
  rw [hm, Real.sin_sub_int_mul_two_pi]
  refine (sinTurn_near hb hz).trans ?_
  have hL := one_le_loss b
  linarith

/-! ## The envelope -/

theorem realEnvelope_abs (nr i : ℕ) : |realEnvelope nr i| ≤ 1 := by
  unfold realEnvelope
  have h := Real.abs_cos_le_one (π * i / nr)
  rw [abs_le] at h ⊢
  constructor <;> linarith [h.1, h.2]

theorem envelope_error {b : ℕ} (hb : 1536 ≤ b) {nr : ℕ} (hn : 0 < nr) (i : ℕ) :
    |(envelope b nr i : ℝ) - fixOne b * realEnvelope nr i| ≤ 25 * loss b := by
  have hF := fixOne_real_pos b
  have hn' : (0 : ℝ) < nr := by exact_mod_cast hn
  unfold envelope realEnvelope cosTurn
  have h0 := natDiv_near (fixOne b * i) (2 * nr)
  generalize (fixOne b * i / (2 * nr) : ℕ) = t at h0 ⊢
  have h4 : ((fixOne b / 4 : ℕ) : ℝ) * 4 = fixOne b := by
    have := fixOne_quarter hb
    exact_mod_cast (by omega : fixOne b / 4 * 4 = fixOne b)
  have hz : |(((t : ℤ) + (fixOne b : ℤ) / 4 : ℤ) : ℝ) - fixOne b * ((i / (2 * nr) + 1 / 4 : ℝ) - (0 : ℤ))| ≤ 1 := by
    convert h0 using 2
    have : (((fixOne b : ℤ) / 4 : ℤ) : ℝ) = fixOne b / 4 := by
      rw [eq_div_iff (by norm_num), ← h4]; rfl
    push_cast at this ⊢
    rw [this]; field_simp; ring
  have hL := one_le_loss b
  have h1 := sinTurn_near hb hz
  have e1 : 2 * π * ((i : ℝ) / (2 * nr) + 1 / 4) = π * i / nr + π / 2 := by field_simp; ring
  rw [e1, Real.sin_add_pi_div_two] at h1
  generalize Real.cos (π * i / nr) = c at *
  generalize sinTurn b _ = s at *
  have h3 : |((((fixOne b : ℤ) - s) / 2 : ℤ) : ℝ) - ((fixOne b : ℝ) - s) / 2| ≤ 1 := by
    have h := intDiv_near ((fixOne b : ℤ) - s) 2 (by norm_num)
    push_cast at h
    exact h
  generalize ((((fixOne b : ℤ) - s) / 2 : ℤ) : ℝ) = q at *
  rw [abs_le] at h1 h3 ⊢
  constructor <;> linarith [h1.1, h1.2, h3.1, h3.2]

/-- Applying an envelope at most doubles the error. -/
theorem mul_envelope_error {b : ℕ} (hb : 1536 ≤ b) {y E : ℤ} {Y R e : ℝ} (hy : |(y : ℝ) - fixOne b * Y| ≤ e)
    (hE : |(E : ℝ) - fixOne b * R| ≤ 25 * loss b) (hY : |Y| ≤ 1) (hR : |R| ≤ 1) :
    |((y * E / (fixOne b : ℤ) : ℤ) : ℝ) - fixOne b * (Y * R)| ≤ 2 * e + 26 * loss b := by
  have hF := fixOne_real_pos b
  have hL := one_le_loss b
  have h0 := intDiv_near (y * E) (fixOne b) (fixOne_pos b)
  have hE2 : |(E : ℝ) / fixOne b| ≤ 2 := by
    have h1 := (div_fixOne_near hE).trans (loss_div_small hb (by norm_num))
    rw [abs_le] at h1 hR ⊢
    constructor <;> linarith [h1.1, h1.2, hR.1, hR.2]
  have e1 : ((y * E / (fixOne b : ℤ) : ℤ) : ℝ) - fixOne b * (Y * R) =
      (((y * E / (fixOne b : ℤ) : ℤ) : ℝ) - ((y * E : ℤ) : ℝ) / fixOne b)
        + ((y : ℝ) - fixOne b * Y) * ((E : ℝ) / fixOne b) + Y * ((E : ℝ) - fixOne b * R) := by push_cast; field_simp; ring
  rw [e1]
  refine (abs_add_three _ _ _).trans ?_
  have h1 := mul_le_mul hy hE2 (abs_nonneg _) ((abs_nonneg _).trans hy)
  have h2 := mul_le_mul hY hE (abs_nonneg _) (by norm_num)
  rw [abs_mul, abs_mul]
  linarith

theorem with_envelope_error {b : ℕ} (hb : 1536 ≤ b) {y E : ℤ} {Y R e : ℝ} (p : Prop) [Decidable p]
    (hy : |(y : ℝ) - fixOne b * Y| ≤ e) (hE : |(E : ℝ) - fixOne b * R| ≤ 25 * loss b) (hY : |Y| ≤ 1) (hR : |R| ≤ 1) :
    |((if p then y * E / (fixOne b : ℤ) else y : ℤ) : ℝ) - fixOne b * (Y * if p then R else 1)| ≤ 2 * e + 26 * loss b := by
  split
  · exact mul_envelope_error hb hy hE hY hR
  · rw [mul_one]; linarith [(abs_nonneg _).trans hy, one_le_loss b]

/-! ## The sample -/

theorem precision_ge (n : ℕ) : 1536 ≤ precision n := by unfold precision; omega

/-- The error that the proofs allow for stays below the radius. -/
theorem loss_radius (n : ℕ) : 2 ^ 782 * (loss (precision n) : ℝ) < radius n := by
  have h1 : loss (precision n) ≤ 2 ^ 14 * 2 ^ n := by
    have := Nat.lt_two_pow_self (n := n)
    unfold loss precision; omega
  have h2 : 2 ^ 782 * loss (precision n) < radius n := by
    calc 2 ^ 782 * loss (precision n) ≤ 2 ^ 782 * (2 ^ 14 * 2 ^ n) := Nat.mul_le_mul_left _ h1
      _ = 2 ^ (782 + (14 + n)) := by rw [← pow_add, ← pow_add]
      _ < radius n := Nat.pow_lt_pow_right (by norm_num) (by omega)
  have h3 := (Nat.cast_lt (α := ℝ)).2 h2
  rwa [Nat.cast_mul, Nat.cast_pow, Nat.cast_ofNat] at h3

/-- The modulations that `GFSK_MOD` performs (R291) have a sample rate of at least 50 and a count that fits a CSR. -/
structure Performed (r : GfskRequest) (k : ℕ) : Prop where
  rate : 50 ≤ requestRate r
  total : requestTotal r ≤ 2 ^ 32
  sample : k < requestTotal r

/-- The `n`-th approximation is less than `radius n` from the real `y(k)` of R298 and R299. -/
theorem approximateSample_error {r : GfskRequest} {k : ℕ} (h : Performed r k) (n : ℕ) :
    |(approximateSample (precision n) r k (toneSumBefore (precision n) r k) : ℝ) - fixOne (precision n) * realSample r k|
      < radius n := by
  obtain ⟨hr, ht, hk⟩ := h
  have hb := precision_ge n
  have hrad := loss_radius n
  generalize precision n = b at *
  have hs : 8 ≤ requestSps r := by unfold requestSps samplesPerSymbol; omega
  have hlen : r.tones.length * 8 ≤ 2 ^ 32 := by
    refine le_trans ?_ ht
    unfold requestTotal totalSamples
    split
    · omega
    · have : r.tones.length * 8 ≤ r.tones.length * samplesPerSymbol (requestRate r) := Nat.mul_le_mul_left _ hs
      omega
  have hL := one_le_loss b
  have hacc : |(toneSumBefore b r k : ℝ) - fixOne b * ((List.range k).map (realToneSum r)).sum| ≤ 2 ^ 779 * loss b := by
    clear hrad
    refine (toneSumBefore_error hb (by omega) k).trans ?_
    have h1 : (k : ℝ) ≤ 2 ^ 32 := by exact_mod_cast (by omega : k ≤ 2 ^ 32)
    have h2 : (r.tones.length : ℝ) + 2 ≤ 2 ^ 30 := by exact_mod_cast (by omega : r.tones.length + 2 ≤ 2 ^ 30)
    calc _ ≤ (2 : ℝ) ^ 32 * (2 ^ 30 * (2 ^ 8 * (2 ^ 709 * (loss b : ℝ)))) := by
          rw [show (256 : ℝ) = 2 ^ 8 by norm_num]; gcongr
      _ = (2 : ℝ) ^ 779 * (loss b : ℝ) := by rw [← mul_assoc, ← mul_assoc, ← mul_assoc, ← pow_add, ← pow_add, ← pow_add]
  have hn : 0 < envelopeLength r := by unfold envelopeLength; omega
  have h0 := sinPhase_error hb (by omega) hs hacc
  have h1 := with_envelope_error hb (r.rampUp ∧ k < envelopeLength r) h0 (envelope_error hb hn k)
    (Real.abs_sin_le_one _) (realEnvelope_abs _ _)
  have hY : |Real.sin (realPhase r k) * if r.rampUp ∧ k < envelopeLength r then realEnvelope (envelopeLength r) k else 1|
      ≤ 1 := by
    rw [abs_mul]
    refine mul_le_one₀ (Real.abs_sin_le_one _) (abs_nonneg _) ?_
    split
    · exact realEnvelope_abs _ _
    · simp
  have h2 := with_envelope_error hb (r.rampDown ∧ requestTotal r - 1 - k < envelopeLength r) h1
    (envelope_error hb hn (requestTotal r - 1 - k)) hY (realEnvelope_abs _ _)
  refine lt_of_le_of_lt h2 (lt_of_le_of_lt ?_ hrad)
  have hB : (2 : ℝ) ^ 782 = 2 ^ 779 * 8 := by rw [show (8 : ℝ) = 2 ^ 3 by norm_num, ← pow_add]
  have hB' : (2 : ℝ) ^ 10 ≤ 2 ^ 779 := pow_le_pow_right₀ (by norm_num) (by norm_num)
  have hBL := mul_le_mul_of_nonneg_right hB' (zero_le_one.trans hL)
  rw [hB]
  clear hB hB' hacc h0 h1 h2 hrad
  generalize (2 : ℝ) ^ 779 = B at *
  linarith

/-! ## Comparing a sample -/

/-- The real number that `c` units of `2^-512` are. -/
noncomputable def unitsReal (c : ℤ) : ℝ := (c : ℝ) / 2 ^ fixBits

theorem target_real (n : ℕ) (c : ℤ) :
    ((c * 2 ^ (precision n - fixBits) : ℤ) : ℝ) = fixOne (precision n) * unitsReal c := by
  have h : precision n = fixBits + (precision n - fixBits) := by unfold precision fixBits; omega
  unfold unitsReal fixOne
  conv_rhs => rw [h]
  rw [Nat.cast_pow, pow_add, Int.cast_mul, Int.cast_pow]
  have : (2 : ℝ) ^ fixBits ≠ 0 := by positivity
  push_cast
  generalize (2 : ℝ) ^ fixBits = B at *
  field_simp

/-- An approximation that can tell tells right. -/
theorem compareApproximation_sound {n : ℕ} {y c : ℤ} {Y : ℝ} {o : Ordering}
    (hy : |(y : ℝ) - fixOne (precision n) * Y| < radius n) (h : compareApproximation n y c = some o) :
    o = cmp Y (unitsReal c) ∧ o ≠ .eq := by
  have hF := fixOne_real_pos (precision n)
  have ht := target_real n c
  unfold compareApproximation at h
  simp only at h
  rw [abs_lt] at hy
  generalize c * 2 ^ (precision n - fixBits) = t at *
  split at h
  · rename_i h1
    have h1' : (y : ℝ) + radius n ≤ t := by exact_mod_cast h1
    cases h
    refine ⟨(cmp_eq_lt_iff _ _).2 (lt_of_mul_lt_mul_left (a := (fixOne (precision n) : ℝ)) ?_ hF.le) |>.symm, by decide⟩
    rw [← ht]; linarith [hy.1, hy.2]
  · split at h
    · rename_i h1
      have h1' : (t : ℝ) ≤ y - radius n := by exact_mod_cast h1
      cases h
      refine ⟨(cmp_eq_gt_iff _ _).2 (lt_of_mul_lt_mul_left (a := (fixOne (precision n) : ℝ)) ?_ hF.le) |>.symm, by decide⟩
      rw [← ht]; linarith [hy.1, hy.2]
    · cases h

/-- An approximation that cannot tell is close. -/
theorem compareApproximation_none {n : ℕ} {y c : ℤ} {Y : ℝ}
    (hy : |(y : ℝ) - fixOne (precision n) * Y| < radius n) (h : compareApproximation n y c = none) :
    |Y - unitsReal c| ≤ 2 * (1 / 2) ^ n := by
  have hF := fixOne_real_pos (precision n)
  have ht := target_real n c
  unfold compareApproximation at h
  simp only at h
  rw [abs_lt] at hy
  generalize c * 2 ^ (precision n - fixBits) = t at *
  split at h
  · cases h
  · split at h
    · cases h
    · rename_i h1 h2
      have h1' : (t : ℝ) < y + radius n := by exact_mod_cast not_le.1 h1
      have h2' : (y : ℝ) - radius n < t := by exact_mod_cast not_le.1 h2
      have h3 : |(fixOne (precision n) : ℝ) * (Y - unitsReal c)| ≤ 2 * radius n := by
        rw [mul_sub, ← ht, abs_le]; constructor <;> linarith [hy.1, hy.2]
      rw [abs_mul, abs_of_pos hF] at h3
      have h4 : (radius n : ℝ) * 2 ^ n ≤ fixOne (precision n) := by
        have : radius n * 2 ^ n ≤ fixOne (precision n) := by
          unfold radius fixOne precision
          rw [← pow_add]
          exact Nat.pow_le_pow_right (by norm_num) (by omega)
        exact_mod_cast this
      have h5 : (0 : ℝ) < 2 ^ n := by positivity
      rw [one_div, inv_pow, ← div_eq_mul_inv, le_div_iff₀ h5]
      refine le_of_mul_le_mul_left (a := (fixOne (precision n) : ℝ)) ?_ hF
      calc (fixOne (precision n) : ℝ) * (|Y - unitsReal c| * 2 ^ n)
          = fixOne (precision n) * |Y - unitsReal c| * 2 ^ n := by ring
        _ ≤ 2 * radius n * 2 ^ n := by gcongr
        _ = 2 * (radius n * 2 ^ n) := by ring
        _ ≤ 2 * fixOne (precision n) := by gcongr
        _ = fixOne (precision n) * 2 := mul_comm _ _

/-- What the search finds is right. -/
theorem searchComparison_sound {r : GfskRequest} {k : ℕ} (h : Performed r k) (c : ℤ) (n : ℕ) (o : Ordering)
    (hs : searchComparison r k c n = some o) : o = cmp (realSample r k) (unitsReal c) ∧ o ≠ .eq :=
  searchComparison.partial_correctness r k c (fun _ o => o = cmp (realSample r k) (unitsReal c) ∧ o ≠ .eq)
    (fun _ ih n o ho => by
      cases hp : compareApproximation n (approximateSample (precision n) r k (toneSumBefore (precision n) r k)) c with
      | some o' =>
        rw [hp] at ho
        cases ho
        exact compareApproximation_sound (approximateSample_error h n) hp
      | none =>
        rw [hp] at ho
        exact ih _ _ ho) n o hs

/-- The search ends where some approximation from its start on can tell. -/
theorem searchComparison_ends {r : GfskRequest} {k : ℕ} {c : ℤ} (d : ℕ) : ∀ n : ℕ,
    compareApproximation (n + d) (approximateSample (precision (n + d)) r k (toneSumBefore (precision (n + d)) r k)) c
      ≠ none → searchComparison r k c n ≠ none := by
  induction d with
  | zero =>
    intro n h
    rw [searchComparison]
    rw [Nat.add_zero] at h
    split
    · simp
    · contradiction
  | succ d ih =>
    intro n h
    rw [searchComparison]
    split
    · simp
    · exact ih (n + 1) (by rwa [Nat.add_right_comm])

/-- The comparison of a sample with a number is that of the real `y(k)`, exactly (R13, R298 to R300). -/
theorem compareSample_eq {r : GfskRequest} {k : ℕ} (h : Performed r k) (c : ℤ) :
    compareSample r k (approximateSample (precision 0) r k (toneSumBefore (precision 0) r k)) c =
      cmp (realSample r k) (unitsReal c) := by
  unfold compareSample
  split
  · rename_i o ho
    exact (compareApproximation_sound (approximateSample_error h 0) ho).1
  · cases hs : searchComparison r k c 1 with
    | some o => exact (searchComparison_sound h c 1 o hs).1
    | none =>
      have hall : ∀ m : ℕ, |realSample r k - unitsReal c| ≤ 2 * (1 / 2) ^ (1 + m) := by
        intro m
        apply compareApproximation_none (approximateSample_error h (1 + m))
        by_contra hne
        exact searchComparison_ends m 1 hne hs
      have hz : |realSample r k - unitsReal c| ≤ 0 := by
        apply le_of_forall_pos_le_add
        intro ε hε
        obtain ⟨m, hm⟩ := exists_pow_lt_of_lt_one hε (by norm_num : (1 / 2 : ℝ) < 1)
        have h2 := hall m
        rw [pow_add] at h2
        linarith
      have he : realSample r k = unitsReal c := sub_eq_zero.1 (abs_nonpos_iff.1 hz)
      rw [he, cmp_self_eq_eq]; rfl

/-- A pattern passes the test against `GFSK_TOL` iff it is a finite number within it of the real `y(k)` (R300). -/
theorem withinTolerance_iff {r : GfskRequest} {k : ℕ} (h : Performed r k) (tol : ℕ) (w : Word) :
    withinTolerance tol r k (approximateSample (precision 0) r k (toneSumBefore (precision 0) r k)) w = true ↔
      binary32Finite w = true ∧ |binary32Value w - realSample r k| ≤ (tol : ℝ) / 2 ^ fixBits := by
  have e1 : unitsReal (binary32Fix w - tol) = binary32Value w - (tol : ℝ) / 2 ^ fixBits := by
    unfold unitsReal binary32Value; push_cast; ring
  have e2 : unitsReal (binary32Fix w + tol) = binary32Value w + (tol : ℝ) / 2 ^ fixBits := by
    unfold unitsReal binary32Value; push_cast; ring
  unfold withinTolerance
  rw [compareSample_eq h, compareSample_eq h, e1, e2]
  simp only [Bool.and_eq_true, bne_iff_ne, ne_eq, cmp_eq_lt_iff, cmp_eq_gt_iff, not_lt, and_assoc]
  rw [abs_le]
  generalize (tol : ℝ) / 2 ^ fixBits = T
  constructor
  · rintro ⟨h1, h2, h3⟩; exact ⟨h1, by linarith, by linarith⟩
  · rintro ⟨h1, h2, h3⟩; exact ⟨h1, by linarith, by linarith⟩

/-- The samples from `k` on, one by one. -/
theorem getElem?_samplesFrom (tol : ℕ) (r : GfskRequest) : ∀ n k j : ℕ, j < n →
    (samplesFrom tol r n k (toneSumBefore (precision 0) r k))[j]? =
      some (outputSample tol r (k + j)
        (approximateSample (precision 0) r (k + j) (toneSumBefore (precision 0) r (k + j))))
  | 0, _, _, h => absurd h (Nat.not_lt_zero _)
  | n + 1, k, 0, _ => rfl
  | n + 1, k, j + 1, h => by
    have e : toneSumBefore (precision 0) r k + toneSum (precision 0) r k = toneSumBefore (precision 0) r (k + 1) := by
      unfold toneSumBefore
      rw [List.range_succ, List.map_append, List.sum_append, List.map_singleton, List.sum_singleton]
    rw [samplesFrom, List.getElem?_cons_succ, e, getElem?_samplesFrom tol r n (k + 1) j (by omega)]
    rw [Nat.add_right_comm, Nat.add_assoc]

/-- A waveform, sample by sample (R295). -/
theorem getElem?_waveform (tol : ℕ) (r : GfskRequest) {k : ℕ} (h : k < requestTotal r) :
    (waveform tol r)[k]? =
      some (outputSample tol r k (approximateSample (precision 0) r k (toneSumBefore (precision 0) r k))) := by
  have h1 := getElem?_samplesFrom tol r (requestTotal r) 0 k h
  rwa [Nat.zero_add] at h1

end Sys2Proof.Machine
end

