-- ==== Sys2Proof/Machine/Assembly.lean ====
section
/-! DEFINITION. The assembler syntax of commands (R90) and the pseudo-instructions (R91). -/

namespace Sys2Proof.Machine

/-- The number of a CSR (R30). -/
def csrNumber : Csr → BitVec 8
  | .id => 0x00
  | .blockBits => 0x01
  | .ldpcK => 0x02
  | .ldpcN => 0x03
  | .speed => 0x04
  | .seFlags => 0x05
  | .bbFill => 0x06
  | .bbRemaining => 0x07
  | .exRemaining => 0x08
  | .ditMs => 0x09
  | .dahMs => 0x0A
  | .wordgapMs => 0x0B
  | .ditRange => 0x0C
  | .dahRange => 0x0D
  | .wordgapRange => 0x0E
  | .widths => 0x0F
  | .sampleRate => 0x10
  | .audioOffset => 0x11
  | .outCapacity => 0x12
  | .status => 0x13

/-- The pseudo-instructions of R91; the audio offset is given as its binary32 pattern. -/
inductive Pseudo where
  | seBegin (wpm : BitVec 6)
  | flush
  | setGfsk (rate offset cap : Word)
  | read (csr : Csr)
deriving DecidableEq, Repr

/-- The commands a pseudo-instruction stands for (R91). -/
def expand : Pseudo → List Instr
  | .seBegin wpm => [.seSetSpeed wpm, .seStart]
  | .flush => [.seEmit]
  | .setGfsk rate offset cap => [.csrWrite 0x10 rate, .csrWrite 0x11 offset, .csrWrite 0x12 cap]
  | .read csr => [.csrRead (csrNumber csr)]

/-- A hexadecimal digit. -/
def hexDigit (n : BitVec 4) : Char := (['0', '1', '2', '3', '4', '5', '6', '7', '8', '9', 'A', 'B', 'C', 'D', 'E', 'F'] : List Char).getD n.toNat '0'

/-- A byte as a hexadecimal pair (R90). -/
def hexPair (b : Byte) : String := String.ofList [hexDigit (b.extractLsb' 4 4), hexDigit (b.extractLsb' 0 4)]

/-- A field `name=value`, decimal (R90). -/
def fieldText (name : String) (value : Int) : String := name ++ "=" ++ toString value

/-- A CSR number, hexadecimal as in the examples of R90. -/
def csrText (csr : BitVec 8) : String := "csr=0x" ++ hexPair csr

/-- A mnemonic, its fields and its payload (R90). -/
def commandText (mnemonic : String) (fields : List String) (payload : List Byte) : String :=
  mnemonic ++ (if fields.isEmpty then "" else " " ++ String.intercalate ", " fields)
    ++ (if payload.isEmpty then "" else " : " ++ String.intercalate " " (payload.map hexPair))

/-- The length field of a format `L` or `M` payload. -/
def lengthText (name : String) (payload : List Byte) : String := fieldText name payload.length

/-- A command in the assembler syntax of R90; frames and symbols are no commands. -/
def assemblerText (i : Instr) : Option String :=
  let flag (name : String) (b : Bool) := fieldText name b.toNat
  match i with
  | .seStart => some (commandText "SE_START" [] [])
  | .seTimed up dur => some (commandText "SE_TIMED" [flag "up" up, fieldText "dur" dur.toNat] [])
  | .seEnd => some (commandText "SE_END" [] [])
  | .seSetSpeed wpm => some (commandText "SE_SET_SPEED" [fieldText "wpm" wpm.toNat] [])
  | .seEmit => some (commandText "SE_EMIT" [] [])
  | .keEncode up dur => some (commandText "KE_ENCODE" [flag "up" up, fieldText "dur" dur.toNat] [])
  | .deltaEnc bits val => some (commandText "DELTA_ENC" [fieldText "bits" bits.toNat, fieldText "val" val.toInt] [])
  | .deltaDec bits val => some (commandText "DELTA_DEC" [fieldText "bits" bits.toNat, fieldText "val" val.toNat] [])
  | .bbAdd count value =>
    some (commandText "BB_ADD" [fieldText "count" count.toNat, fieldText "value" value.toNat] [])
  | .exLoad payload => some (commandText "EX_LOAD" [lengthText "len" payload] payload)
  | .exTake count => some (commandText "EX_TAKE" [fieldText "count" count.toNat] [])
  | .crc14 payload => some (commandText "CRC14" [lengthText "len" payload] payload)
  | .crc14Check payload => some (commandText "CRC14_CHECK" [lengthText "len" payload] payload)
  | .ldpcPack spare crc block =>
    some (commandText "LDPC_PACK" [fieldText "spare" spare.toNat, fieldText "crc" crc.toNat] block)
  | .ldpcEncode message => some (commandText "LDPC_ENCODE" [] message)
  | .grayTo nib => some (commandText "GRAY_TO" [fieldText "nib" nib.toNat] [])
  | .grayFrom nib => some (commandText "GRAY_FROM" [fieldText "nib" nib.toNat] [])
  | .chanEncode isEnd block => some (commandText "CHAN_ENCODE" [flag "is_end" isEnd] block)
  | .gfskMod rd ru tones =>
    some (commandText "GFSK_MOD" [lengthText "nsym" tones, flag "rd" rd, flag "ru" ru] tones)
  | .csrRead csr => some (commandText "CSR_READ" [csrText csr] [])
  | .csrWrite csr value => some (commandText "CSR_WRITE" [csrText csr] (be32 value))
  | .padding | .wpmPolarity _ _ | .callsignMetadata | .callsignHashMetadata | .locatorMetadata | .powerMetadata
  | .keyingPerfectDit | .keyingPerfectDah | .keyingPerfectWordgap | .keyingEnd | .keyingDeltaDit _ | .keyingDeltaDah _
  | .keyingDeltaWordgap _ | .keyingNaive _ | .unused | .extension
  | .tone0 | .tone1 | .tone2 | .tone3 | .tone4 | .tone5 | .tone6 | .tone7 | .tone8 | .tone9 | .tone10 | .tone11
  | .tone12 | .tone13 | .tone14 | .tone15 | .rampUp | .rampDown => none

end Sys2Proof.Machine
end

