-- ==== Sys2Proof/Tests/Slice0.lean ====
section
/-! SUPPORT. The model's own tests. Expected values are those of spec/95_test_vectors.md (W, V and P numbers), of the
encodings of file 30, or hand calculation from the rules. The last section has one witness for each obligation that has
hypotheses. -/

namespace Sys2Proof.Tests

set_option Elab.async false

open Sys2Proof Sys2Proof.Machine

/-! ## Helpers -/

/-- Parameters with `BLOCK_BITS = 64`, for the vectors that use that block size. -/
def params64 : Params := { Params.default with blockBits := 64 }

/-- A core with `BLOCK_BITS = 64` at a WPM, with builder bits. -/
def at64 (wpm : Nat) (bb : Bits) (sent : Bool) : State :=
  { State.resetWith params64 with wpm := some wpm, bb := bb, headerSent := sent }

/-- A core with `BLOCK_BITS = 32` at 20 WPM, with builder bits. -/
def at32 (bb : Bits) (sent : Bool) : State := { State.reset with wpm := some 20, bb := bb, headerSent := sent }

/-- A core whose modulator is configured. -/
def tuned (fs offset capacity : Word) : State :=
  { State.reset with sampleRate := fs, audioOffset := offset, outCapacity := capacity }

/-- Something about the next state. -/
def next (r : Result) (f : State → α) : Option α :=
  match r with
  | .next t => some (f t)
  | _ => none

/-- The first response word, with its length in bytes. -/
def answer (t : State) : Word × Nat := (wordOf t.output, t.output.length)

/-! ## Parameters and well-formedness: what is refused -/

theorem default_sizes : Params.default.sizesLegal = true := by decide +kernel
theorem test_default_legal : Params.default.legal = true := systematicH_legal default_sizes rfl
theorem test_refuses_blockBits_not_bytes : Params.blockBitsLegal { Params.default with blockBits := 36 } = false := by
  decide
theorem test_refuses_blockBits_small : Params.blockBitsLegal { Params.default with blockBits := 24 } = false := by decide
theorem test_refuses_blockBits_large : Params.blockBitsLegal { Params.default with blockBits := 65536 } = false := by
  decide
theorem test_refuses_ldpcN_not_bytes : Params.ldpcNLegal { Params.default with ldpcN := 97 } = false := by decide
theorem test_refuses_ldpcN_small : Params.ldpcNLegal { Params.default with ldpcN := 48 } = false := by decide
theorem test_refuses_ldpcN_large : Params.ldpcNLegal { Params.default with ldpcN := 262136 } = false := by decide
theorem test_refuses_ldpcP_rows : Params.matricesLegal { Params.default with ldpcP := [] } = false := by decide +kernel
theorem test_refuses_ldpcP_columns :
    Params.matricesLegal { Params.default with ldpcP := List.replicate 48 [true] } = false := by decide +kernel
theorem test_refuses_ldpcH_rows : Params.matricesLegal { Params.default with ldpcH := [] } = false := by decide +kernel
theorem test_refuses_ldpcH_columns :
    Params.matricesLegal { Params.default with ldpcH := List.replicate 48 [true] } = false := by decide +kernel
/-- Sizes that fit and a matrix that checks nothing. -/
def paramsUnchecked : Params := { Params.default with ldpcH := List.replicate 48 (List.replicate 96 true) }
/-- R243, log 13. -/
theorem test_refuses_ldpcH_that_fails : paramsUnchecked.sizesLegal = true ∧ paramsUnchecked.legal = false := by
  decide +kernel
theorem test_construct_refuses_ldpcH : construct paramsUnchecked = .refused .illegalParameters := by
  unfold construct; rw [test_refuses_ldpcH_that_fails.2]; rfl
theorem test_refuses_gray_short : Params.grayLegal { Params.default with grayTable := [0, 1] } = false := by
  decide +kernel
theorem test_refuses_gray_repeat :
    Params.grayLegal { Params.default with grayTable := 0 :: Params.reflectedGray.dropLast } = false := by
  decide +kernel
theorem test_refuses_gray_jump :
    Params.grayLegal { Params.default with grayTable := (List.range 16).map (BitVec.ofNat 4) } = false := by
  decide +kernel
theorem test_construct_refuses :
    construct { Params.default with blockBits := 36 } = .refused .illegalParameters := rfl

theorem test_refuses_long_load : (Instr.exLoad (List.replicate (2 ^ 16) 0)).wellFormed Params.default 20 = false := by
  rw [Instr.wellFormed, List.length_replicate]; decide
theorem test_refuses_long_crc : (Instr.crc14 (List.replicate (2 ^ 16) 0)).wellFormed Params.default 20 = false := by
  rw [Instr.wellFormed, List.length_replicate]; decide
theorem test_refuses_long_check :
    (Instr.crc14Check (List.replicate (2 ^ 16) 0)).wellFormed Params.default 20 = false := by
  rw [Instr.wellFormed, List.length_replicate]; decide
theorem test_refuses_long_tones :
    (Instr.gfskMod false false (List.replicate (2 ^ 16) 0)).wellFormed Params.default 20 = false := by
  rw [Instr.wellFormed, List.length_replicate]; decide
theorem test_refuses_pack_block : (Instr.ldpcPack 0 0 [1, 2, 3]).wellFormed Params.default 20 = false := by decide
theorem test_refuses_message : (Instr.ldpcEncode [1, 2, 3, 4]).wellFormed Params.default 20 = false := by decide
theorem test_refuses_channel_block :
    (Instr.chanEncode true [1, 2, 3, 4, 5]).wellFormed Params.default 20 = false := by decide
theorem test_refuses_dit_delta : (Instr.keyingDeltaDit 64).wellFormed Params.default 20 = false := by decide
theorem test_refuses_dah_delta : (Instr.keyingDeltaDah (-64)).wellFormed Params.default 20 = false := by decide
theorem test_refuses_wordgap_delta : (Instr.keyingDeltaWordgap 128).wellFormed Params.default 20 = false := by decide
theorem test_accepts_positive_dah_delta : (Instr.keyingDeltaDah 127).wellFormed Params.default 20 = true := by decide

/-! ## Decoding: every row, from a word written out from its encoding -/

/-- Formats N, W, T, A, X, D and G: opcode, reserved zeros, fields (R83, R86). -/
theorem test_decode_fields :
    decodeTableWord 32 0b00010000_000000000000000000000000 = some .seStart ∧
    decodeTableWord 32 0b00010001_0000000_1_0000000000111100 = some (.seTimed true 60) ∧
    decodeTableWord 32 0b00010010_000000000000000000000000 = some .seEnd ∧
    decodeTableWord 32 0b00010011_000000000000000000_010100 = some (.seSetSpeed 20) ∧
    decodeTableWord 32 0b00010100_000000000000000000000000 = some .seEmit ∧
    decodeTableWord 32 0b00011000_0000000_0_1000000000000001 = some (.keEncode false 0x8001) ∧
    decodeTableWord 32 0b00100000_0000_1001_1111111000100000 = some (.deltaEnc 9 0xFE20) ∧
    decodeTableWord 32 0b00100001_0000_0101_0000000000111111 = some (.deltaDec 5 0x3F) ∧
    decodeTableWord 32 0b00101000_000_10000_0001001000110100 = some (.bbAdd 16 0x1234) ∧
    decodeTableWord 32 0b00101010_0000000000000000000_10001 = some (.exTake 17) ∧
    decodeTableWord 32 0b01000000_0000000000000000_10000001 = some (.grayTo 0x81) ∧
    decodeTableWord 32 0b01000001_0000000000000000_00001101 = some (.grayFrom 0x0D) := by decide +kernel

/-- Formats L, P, K, B, M and R, with payloads (R83, R86); the payload ends where the length rule says (R89). -/
theorem test_decode_payloads :
    decodeCommand Params.default [0x29, 0, 0, 2, 0x15, 0x2C, 0xFF] = .command (.exLoad [0x15, 0x2C]) [0xFF] ∧
    decodeCommand Params.default [0x30, 0, 0, 1, 0x41] = .command (.crc14 [0x41]) [] ∧
    decodeCommand Params.default [0x31, 0, 0, 3, 0x01, 0x9D, 0x5C] = .command (.crc14Check [0x01, 0x9D, 0x5C]) [] ∧
    decodeCommand Params.default [0x38, 0, 0xFF, 0xFE, 1, 2, 3, 4] = .command (.ldpcPack 3 0x3FFE [1, 2, 3, 4]) [] ∧
    decodeCommand Params.default [0x39, 0, 0, 0, 1, 2, 3, 4, 5, 6, 7] = .command (.ldpcEncode [1, 2, 3, 4, 5, 6]) [7] ∧
    decodeCommand Params.default [0x48, 0, 0, 1, 1, 2, 3, 4] = .command (.chanEncode true [1, 2, 3, 4]) [] ∧
    decodeCommand Params.default [0x50, 0, 2, 2, 3, 5] = .command (.gfskMod true false [3, 5]) [] ∧
    decodeCommand Params.default [0x70, 0, 0, 0x13, 9] = .command (.csrRead 0x13) [9] ∧
    decodeCommand Params.default [0x71, 0, 0, 0x10, 0, 0, 0x1F, 0x40] = .command (.csrWrite 0x10 8000) [] := by
  decide +kernel

/-- Every frame row, from its bits at 20 WPM (R100, R101, V3). -/
theorem test_decode_frames :
    decode Params.default 20 (.frame (bitsN 4 0b0000)) = some .padding ∧
    decode Params.default 20 (.frame (bitsN 11 0b0001_010100_1)) = some (.wpmPolarity 20 true) ∧
    decode Params.default 20 (.frame (bitsN 4 0b0010)) = some .callsignMetadata ∧
    decode Params.default 20 (.frame (bitsN 4 0b0011)) = some .callsignHashMetadata ∧
    decode Params.default 20 (.frame (bitsN 4 0b0100)) = some .locatorMetadata ∧
    decode Params.default 20 (.frame (bitsN 4 0b0101)) = some .powerMetadata ∧
    decode Params.default 20 (.frame (bitsN 4 0b0110)) = some .keyingPerfectDit ∧
    decode Params.default 20 (.frame (bitsN 4 0b0111)) = some .keyingPerfectDah ∧
    decode Params.default 20 (.frame (bitsN 4 0b1000)) = some .keyingPerfectWordgap ∧
    decode Params.default 20 (.frame (bitsN 4 0b1001)) = some .keyingEnd ∧
    decode Params.default 20 (.frame (bitsN 11 0b1010_1000100)) = some (.keyingDeltaDit (-60)) ∧
    decode Params.default 20 (.frame (bitsN 11 0b1011_1000101)) = some (.keyingDeltaDah (-59)) ∧
    decode Params.default 20 (.frame (bitsN 12 0b1011_01110111)) = some (.keyingDeltaDah 119) ∧
    decode Params.default 20 (.frame (bitsN 12 0b1100_10001000)) = some (.keyingDeltaWordgap (-120)) ∧
    decode Params.default 20 (.frame (bitsN 15 0b1101_01000011101)) = some (.keyingNaive 541) ∧
    decode Params.default 20 (.frame (bitsN 4 0b1110)) = some .unused ∧
    decode Params.default 20 (.frame (bitsN 4 0b1111)) = some .extension := by decide +kernel

/-- The tag of each frame row, as the opcode table's 4-bit word. -/
theorem test_decode_tags :
    (List.range 16).map (decodeTableWord 4) =
      [some .padding, some (.wpmPolarity 0 false), some .callsignMetadata, some .callsignHashMetadata,
        some .locatorMetadata, some .powerMetadata, some .keyingPerfectDit, some .keyingPerfectDah,
        some .keyingPerfectWordgap, some .keyingEnd, some (.keyingDeltaDit 0), some (.keyingDeltaDah 0),
        some (.keyingDeltaWordgap 0), some (.keyingNaive 0), some .unused, some .extension] := by decide +kernel

/-- Every symbol row, from its byte (R104). -/
theorem test_decode_symbols :
    (List.range 18).map (decodeTableWord 8) =
      [some .tone0, some .tone1, some .tone2, some .tone3, some .tone4, some .tone5, some .tone6, some .tone7,
        some .tone8, some .tone9, some .tone10, some .tone11, some .tone12, some .tone13, some .tone14, some .tone15,
        some .rampUp, some .rampDown] := by decide +kernel
theorem test_reserved_symbol_bytes : (List.range 238).all (fun n => decodeSymbol (BitVec.ofNat 8 (0x12 + n)) = none) := by
  decide +kernel

/-- R87: one reserved bit of each format; the payload is still consumed. -/
theorem test_reserved_bits :
    decodeCommand Params.default [0x10, 0, 0, 1] = .illegal .reservedBits [] ∧
    decodeCommand Params.default [0x13, 0, 0, 0x40] = .illegal .reservedBits [] ∧
    decodeCommand Params.default [0x18, 3, 0, 0x3C] = .illegal .reservedBits [] ∧
    decodeCommand Params.default [0x20, 0x15, 0, 0] = .illegal .reservedBits [] ∧
    decodeCommand Params.default [0x28, 0x20, 0, 0] = .illegal .reservedBits [] ∧
    decodeCommand Params.default [0x2A, 0, 0, 0x20] = .illegal .reservedBits [] ∧
    decodeCommand Params.default [0x30, 1, 0, 1, 7, 8] = .illegal .reservedBits [8] ∧
    decodeCommand Params.default [0x38, 1, 0, 0, 1, 2, 3, 4, 5] = .illegal .reservedBits [5] ∧
    decodeCommand Params.default [0x39, 0, 0, 1, 1, 2, 3, 4, 5, 6] = .illegal .reservedBits [] ∧
    decodeCommand Params.default [0x40, 0, 1, 0] = .illegal .reservedBits [] ∧
    decodeCommand Params.default [0x48, 0, 0, 2, 1, 2, 3, 4] = .illegal .reservedBits [] ∧
    decodeCommand Params.default [0x50, 0, 1, 4, 9] = .illegal .reservedBits [] ∧
    decodeCommand Params.default [0x71, 0, 1, 0, 1, 2, 3, 4] = .illegal .reservedBits [] := by decide +kernel

/-- R88 and R65: an unassigned opcode takes four bytes; part of a command is no command. -/
theorem test_unassigned_and_incomplete :
    decodeCommand Params.default [0xFF, 0x12, 0x34, 0x56, 0x10] = .illegal .unassignedOpcode [0x10] ∧
    decodeCommand Params.default [0, 0, 0, 0] = .illegal .unassignedOpcode [] ∧
    decodeCommand Params.default [0x10, 0, 0] = .incomplete ∧
    decodeCommand Params.default [0x71, 0, 0, 0x10, 0, 0, 0] = .incomplete := by decide +kernel

/-- R90 and R91: the assembler syntax and two pseudo-instructions. -/
theorem test_assembler :
    assemblerText (.deltaEnc 5 0xFFFF) = some "DELTA_ENC bits=5, val=-1" ∧
    assemblerText (.crc14 [1, 0]) = some "CRC14 len=2 : 01 00" ∧
    assemblerText (.csrWrite 0x10 8000) = some "CSR_WRITE csr=0x10 : 00 00 1F 40" ∧
    expand (.seBegin 20) = [.seSetSpeed 20, .seStart] ∧ expand (.read .status) = [.csrRead 0x13] := by decide +kernel

/-! ## The source encoder (V5, V1) -/

/-- S11: the polarity is 1 again, the header flag and the builder stay. -/
theorem test_seStart :
    next (exec .seStart { at64 20 (bitsN 15 0b0001_010100_1_0110) true with polarity := false })
      (fun t => (t.polarity, t.headerSent, t.bb.length)) = some (true, true, 15) := by decide +kernel
/-- W4: header, dit. -/
theorem test_seTimed_header :
    next (exec (.seTimed true 60) (at64 20 [] false)) (fun t => (t.bb, t.polarity, answer t)) =
      some (bitsN 15 0b0001_010100_1_0110, false, (0, 4)) := by decide +kernel
/-- S6: the header fits 19 bits of 32, the naive frame does not. -/
theorem test_seTimed_flush :
    next (exec (.seTimed true 1000) (at32 (bitsN 19 0b0001_010100_1_0110_0110) false)) (fun t => (t.bb, t.output)) =
      some (bitsN 26 0b0001_010100_1_1101_01111101000, [0, 0, 0, 1, 0x15, 0x2C, 0xC2, 0xA4, 0]) := by decide +kernel
/-- S4: no room for `KeyingEnd`. -/
theorem test_seEnd_flush :
    next (exec .seEnd (at32 (bitsN 31 (0x152CCCCC / 2)) true)) (fun t => (t.bb, t.endPending, t.output)) =
      some (bitsN 4 0b1001, true, [0, 0, 0, 1, 0x15, 0x2C, 0xCC, 0xCC, 0]) := by decide +kernel
/-- S8: `SE_END` needs no WPM. -/
theorem test_seEnd_no_speed :
    next (exec .seEnd State.reset) (fun t => (t.bb, t.output)) = some (bitsN 4 0b1001, [0, 0, 0, 0]) := by
  decide +kernel
/-- V1: 20 WPM is set and a header is due. -/
theorem test_seSetSpeed :
    next (exec (.seSetSpeed 20) (at64 12 [] true)) (fun t => (t.wpm, t.headerSent, t.output)) =
      some (some 20, false, [0, 0, 0, 0]) := by decide +kernel
/-- V1: 61 WPM is a configuration error, and the WPM stays. -/
theorem test_seSetSpeed_range :
    next (exec (.seSetSpeed 61) (at64 12 [] true)) (fun t => (t.wpm, t.output)) = some (some 12, [0x10, 0, 0, 0]) := by
  decide +kernel
/-- W4: the emitted block. -/
theorem test_seEmit :
    next (exec .seEmit (at64 20 (bitsN 15 0b0001_010100_1_0110) true)) (fun t => (t.bb, t.headerSent, t.output)) =
      some ([], false, [0, 0, 0, 1, 0x15, 0x2C, 0, 0, 0, 0, 0, 0, 0]) := by decide +kernel
/-- W7: nothing to emit. -/
theorem test_seEmit_empty : next (exec .seEmit State.reset) State.output = some [0, 0, 0, 0] := by decide +kernel

/-! ## The keying encoder and the timing model (V3, V4, V1) -/

/-- V4: with 50 bits in the builder, a 15-bit frame does not fit. -/
theorem test_keEncode_no_room :
    next (exec (.keEncode true 1000) (at64 20 (zeros 50) false)) (fun t => (t.bb.length, t.output)) =
      some (50, [0, 0, 0, 0]) := by decide +kernel
/-- V4: without a WPM. -/
theorem test_keEncode_no_speed : next (exec (.keEncode true 60) State.reset) State.output = some [0x10, 0, 0, 0] := by
  decide +kernel
/-- V3: classification at 20 WPM, at the ends of every range. -/
theorem test_classify_20 :
    [0, 59, 60, 61, 120, 121, 179, 180, 181, 299, 300, 419, 420, 421, 540, 541, 2047].map (classify .signSelected 20) =
      [.ok (bitsN 11 0b1010_1000100), .ok (bitsN 11 0b1010_1111111), .ok (bitsN 4 0b0110),
        .ok (bitsN 11 0b1010_0000001), .ok (bitsN 11 0b1010_0111100), .ok (bitsN 11 0b1011_1000101),
        .ok (bitsN 11 0b1011_1111111), .ok (bitsN 4 0b0111), .ok (bitsN 12 0b1011_00000001),
        .ok (bitsN 12 0b1011_01110111), .ok (bitsN 12 0b1100_10001000), .ok (bitsN 12 0b1100_11111111),
        .ok (bitsN 4 0b1000), .ok (bitsN 12 0b1100_00000001), .ok (bitsN 12 0b1100_01111000),
        .ok (bitsN 15 0b1101_01000011101), .ok (bitsN 15 0b1101_11111111111)] := by decide +kernel
/-- V3: classification at 5 and at 60 WPM. -/
theorem test_classify_5_60 :
    [0, 240, 1200, 2047].map (classify .signSelected 5) =
      [.ok (bitsN 13 0b1010_100010000), .ok (bitsN 4 0b0110), .ok (bitsN 14 0b1100_1000100000),
        .ok (bitsN 14 0b1100_0101101111)] ∧
    [0, 59, 60, 139, 140, 180, 181].map (classify .signSelected 60) =
      [.ok (bitsN 10 0b1010_101100), .ok (bitsN 10 0b1011_111111), .ok (bitsN 4 0b0111), .ok (bitsN 11 0b1100_1111111),
        .ok (bitsN 4 0b1000), .ok (bitsN 11 0b1100_0101000), .ok (bitsN 15 0b1101_00010110101)] := by decide +kernel
/-- V1: the timing CSRs at 5, 37 and 60 WPM. -/
theorem test_timing_csrs :
    [5, 37, 60].map (fun w => [Csr.speed, .ditMs, .dahMs, .wordgapMs, .ditRange, .dahRange, .wordgapRange, .widths].map
      (csrValue (at64 w [] false))) =
    [[0x105, 240, 720, 1680, 0xFF1000F0, 0xFF1101DF, 0xFE20016F, 0x9988],
      [0x125, 32, 96, 224, 0xFFE00020, 0xFFE1003F, 0xFFC00040, 0x7766],
      [0x13C, 20, 60, 140, 0xFFEC0014, 0xFFED0027, 0xFFD80028, 0x6655]] := by decide +kernel

/-! ## Delta arithmetic (V2) -/

theorem test_deltaEnc :
    [(9, 0xFE20), (8, 241), (10, 0x8000), (5, 0xFFE1)].map
        (fun x : BitVec 4 × BitVec 16 => next (exec (.deltaEnc x.1 x.2) State.reset) (fun t => wordOf t.output)) =
      [some 0x220, some 0x30000000, some 0x10000000, some 0x21] := by decide +kernel
theorem test_deltaDec :
    [(5, 0x20), (9, 0x200), (9, 0x1FF), (9, 0x400), (4, 0)].map
        (fun x : BitVec 4 × BitVec 16 => next (exec (.deltaDec x.1 x.2) State.reset) (fun t => wordOf t.output)) =
      [some 0xFFE0, some 0xFE20, some 0x1E0, some 0x30000000, some 0x10000000] := by decide +kernel

/-! ## Builder and extractor (V6) -/

theorem test_bbAdd :
    next (exec (.bbAdd 3 5) (at64 20 (bitsN 20 0xF1234) false)) (fun t => (t.bb, t.output)) =
      some (bitsN 23 0b11110001001000110100101, [0, 0, 0, 41]) := by decide +kernel
theorem test_bbAdd_full :
    next (exec (.bbAdd 5 0) (at64 20 (zeros 60) false)) (fun t => (t.bb.length, t.output)) =
      some (60, [0x20, 0, 0, 0]) := by decide +kernel
theorem test_exLoad :
    next (exec (.exLoad [0x15, 0x2C]) State.reset) (fun t => (t.ex, t.output)) =
      some (bitsN 16 0x152C, [0, 0, 0, 16]) := by decide +kernel
theorem test_exLoad_long :
    next (exec (.exLoad [1, 2, 3, 4, 5]) State.reset) (fun t => (t.ex, t.output)) = some ([], [0x20, 0, 0, 0]) := by
  decide +kernel
theorem test_exTake :
    next (exec (.exTake 6) { State.reset with ex := bitsN 12 0x52C }) (fun t => (t.ex, t.output)) =
      some (bitsN 6 0x2C, [0, 0, 0, 0x14]) := by decide +kernel
theorem test_exTake_short :
    next (exec (.exTake 2) { State.reset with ex := [true] }) (fun t => (t.ex, t.output)) =
      some ([true], [0x20, 0, 0, 0]) := by decide +kernel

/-! ## CRC-14, LDPC, Gray and channel (V7 to V10) -/

theorem test_crc14 :
    [[], [0x01], [0x80], [0xFF], [0x01, 0x00], [0x31, 0x32, 0x33, 0x34, 0x35, 0x36, 0x37, 0x38, 0x39]].map crc14 =
      [0, 0x2757, 0x2F7E, 0x2899, 0x39AB, 0x0F31] := by decide +kernel
/-- W3, "This is a test of the emergency broadcast system. Do not be alarmed!". -/
theorem test_crc14_known :
    next (exec (.crc14 [0x54, 0x68, 0x69, 0x73, 0x20, 0x69, 0x73, 0x20, 0x61, 0x20, 0x74, 0x65, 0x73, 0x74, 0x20, 0x6F,
      0x66, 0x20, 0x74, 0x68, 0x65, 0x20, 0x65, 0x6D, 0x65, 0x72, 0x67, 0x65, 0x6E, 0x63, 0x79, 0x20, 0x62, 0x72, 0x6F,
      0x61, 0x64, 0x63, 0x61, 0x73, 0x74, 0x20, 0x73, 0x79, 0x73, 0x74, 0x65, 0x6D, 0x2E, 0x20, 0x44, 0x6F, 0x20, 0x6E,
      0x6F, 0x74, 0x20, 0x62, 0x65, 0x20, 0x61, 0x6C, 0x61, 0x72, 0x6D, 0x65, 0x64, 0x21]) State.reset) State.output =
      some [0, 0, 0x06, 0xA9] := by decide +kernel
theorem test_crc14Check :
    [[], [0x01, 0x9D, 0x5C], [0x01, 0x9D, 0x5D]].map
        (fun d => next (exec (.crc14Check d) State.reset) (fun t => wordOf t.output)) = [some 1, some 1, some 0] := by
  decide +kernel
theorem test_ldpcPack :
    next (exec (.ldpcPack 3 0x3FFF [0, 0, 0, 0]) State.reset) State.output =
      some [0, 0, 0, 48, 0, 0, 0, 0, 0xFF, 0xFF] := by decide +kernel
theorem test_ldpcEncode :
    next (exec (.ldpcEncode [0x15, 0x2C, 0xCC, 0xD2, 0x01, 0xB9]) State.reset) State.output =
      some [0, 0, 0, 96, 0x15, 0x2C, 0xCC, 0xD2, 0x01, 0xB9, 0x9F, 0xBA, 0xAA, 0xBB, 0x01, 0x65] := by decide +kernel
/-- Toy code 1 of V8: the GF(2) arithmetic alone. -/
theorem test_ldpc_toy1 :
    [0x80, 0x01, 0xA5, 0xFF, 0x00].map (fun b => ldpcCodeword { Params.default with
      blockBits := 0, ldpcN := 24
      ldpcP := (List.range 8).map fun i => (List.range 8).map fun j => j == i || j == (i + 1) % 8 || j == (i + 3) % 8 }
      [b]) = [[0x80, 0xD0], [0x01, 0xA1], [0xA5, 0xC3], [0xFF, 0xFF], [0x00, 0x00]] := by decide +kernel
theorem test_grayTo :
    [0, 5, 9, 15, 16].map (fun n => next (exec (.grayTo n) State.reset) (fun t => wordOf t.output)) =
      [some 0, some 7, some 13, some 8, some 0x30000000] := by decide +kernel
theorem test_grayFrom :
    [7, 8, 0x0D, 0xFF].map (fun n => next (exec (.grayFrom n) State.reset) (fun t => wordOf t.output)) =
      [some 5, some 15, some 9, some 0x30000000] := by decide +kernel
theorem test_chanEncode :
    next (exec (.chanEncode true [0x15, 0x2C, 0xCC, 0xD2]) State.reset) State.output =
      some [0, 1, 0, 26, 0x10, 1, 7, 3, 10, 10, 10, 11, 3, 0, 1, 14, 13, 13, 8, 14, 15, 15, 15, 14, 14, 0, 1, 5, 7,
        0x11] := by decide +kernel
theorem test_chanEncode_last_bit :
    next (exec (.chanEncode false [0, 0, 0, 1]) State.reset) State.output =
      some [0, 0, 0, 26, 0x10, 0, 0, 0, 0, 0, 0, 0, 1, 3, 4, 7, 4, 12, 0, 0, 0, 0, 0, 0, 1, 14, 6, 8, 10, 0x11] := by
  decide +kernel

/-! ## The modulator (V11) -/

/-- The counts for three tones at 8000 Hz. -/
theorem test_gfsk_counts :
    totalSamples 8000 3 false false = 3840 ∧ totalSamples 8000 3 false true = 4000 ∧
      totalSamples 8000 3 true true = 4160 ∧ totalSamples 8000 0 true true = 0 ∧ samplesPerSymbol 11025 = 1764 ∧
      samplesPerRamp 11025 = 220 := by decide
/-- The errors, the first of R291 that applies. -/
theorem test_gfskMod_errors :
    next (exec (.gfskMod false false [0]) State.reset) State.output = some [0x10, 0, 0, 0] ∧
    next (exec (.gfskMod true true [0x10, 5]) (tuned 8000 0x447A0000 2879)) State.output = some [0x30, 0, 0, 0] ∧
    next (exec (.gfskMod true true [3, 5]) (tuned 8000 0x447A0000 2879)) State.output = some [0x20, 0, 0, 0] ∧
    next (exec (.gfskMod true true []) (tuned 8000 0x447A0000 0)) State.output = some [0, 0, 0, 0] := by decide +kernel
/-- R365: with the reset values, no tone answers 0 samples. -/
theorem test_gfskMod_after_reset :
    next (exec (.gfskMod true true []) State.reset) State.output = some [0, 0, 0, 0] := by decide +kernel
/-- Modulation B of V11 at a small rate: a carrier of a quarter of the sample rate. Samples 1, 3, 5 and 7 are 1, -1, 1
and -1; the others are zeros of free sign. -/
theorem test_gfskMod_carrier :
    next (exec (.gfskMod false false [0]) (tuned 50 0x41480000 8))
      (fun t => (answer t, [1, 3, 5, 7].map fun k => wordOf (t.output.drop (4 + 4 * k)))) =
      some ((8, 36), [0x3F800000, 0xBF800000, 0x3F800000, 0xBF800000]) := by decide +kernel

/-- Modulation A of V11. -/
def modulationA : GfskRequest := gfskRequest true true [3, 5] (tuned 8000 0x447A0000 2880)

/-- The first approximation of a sample, which a waveform carries along. -/
def firstApproximation (r : GfskRequest) (k : Nat) : Int :=
  approximateSample (precision 0) r k (toneSumBefore (precision 0) r k)

/-- Samples 1 and 2 of modulation A. -/
theorem test_gfsk_sample_1_2 :
    [1, 2].map (fun k => roundSample modulationA k (firstApproximation modulationA k)) =
      [0x389102FE, 0x39CA0410] := by decide +kernel
/-- A sample just above half of the smallest binary32: at 103283 Hz with an offset of 0x201B units of `2^-149`, sample 1
is `sin(2 * pi * 0x201B / 103283 * 2^-149)`, by hand `(0.5 + 4e-10) * 2^-149`. It rounds up (R13). -/
theorem test_gfsk_near_midpoint :
    let r := gfskRequest false false [0] (tuned 103283 0x0000201B 0xFFFFFFF)
    roundSample r 1 (firstApproximation r 1) = 0x00000001 := by decide +kernel
/-- Sample 0 is `sin(0)`: it compares with 0, which no approximation tells, and with `2^-512` and its negative. -/
theorem test_gfsk_comparison :
    [1, -1].map (compareSample modulationA 0 (firstApproximation modulationA 0)) = [.lt, .gt] ∧
    compareApproximation 0 (firstApproximation modulationA 0) 0 = none := by decide +kernel

/-! ## CSRs, status and reset (V12, V13, V14) -/

theorem test_csrRead :
    [0x00, 0x01, 0x05, 0x07].map (fun n => next (exec (.csrRead n) (State.resetWith params64)) State.output) =
      [some [0, 0, 0, 0, 0x44, 0x4D, 0x54, 0x37], some [0, 0, 0, 0, 0, 0, 0, 0x40], some [0, 0, 0, 0, 0, 0, 0, 1],
        some [0, 0, 0, 0, 0, 0, 0, 0x40]] := by decide +kernel
/-- V13, rows 2 and 6 and V12: a successful read keeps `STATUS`, a read of a reserved number does not. -/
theorem test_csrRead_status :
    next (exec (.csrRead 0x13) { State.reset with lastStatus := .error .illegalCommand, errorSeen := true })
      (fun t => (t.output, t.lastStatus)) = some ([0, 0, 0, 0, 0, 0, 1, 4], .error .illegalCommand) ∧
    next (exec (.csrRead 0x14) State.reset) (fun t => (t.output, t.lastStatus)) =
      some ([0x40, 0, 0, 0], .error .illegalCommand) := by decide +kernel
theorem test_csrWrite :
    next (exec (.csrWrite 0x10 50) State.reset) State.sampleRate = some 50 ∧
    next (exec (.csrWrite 0x11 1) State.reset) State.audioOffset = some 1 ∧
    next (exec (.csrWrite 0x12 0x0FFFFFFF) State.reset) State.outCapacity = some 0x0FFFFFFF := by decide +kernel
theorem test_csrWrite_errors :
    [((0x10, 49) : BitVec 8 × Word), (0x11, 0x80000000), (0x11, 0x7F800000), (0x12, 0x10000000), (0x04, 20), (0xFF, 0)].map
        (fun x => next (exec (.csrWrite x.1 x.2) State.reset) (fun t => wordOf t.output)) =
      [some 0x10000000, some 0x10000000, some 0x10000000, some 0x10000000, some 0x40000000, some 0x40000000] := by
  decide +kernel
/-- V13: the second command of `80000000 10000000` is still framed. -/
theorem test_step_unassigned :
    next (step (hostSend [0x80, 0, 0, 0, 0x10, 0, 0, 0] State.reset)) (fun t => (t.output, t.input)) =
      some ([0x40, 0, 0, 0], [0x10, 0, 0, 0]) := by decide +kernel
/-- R342: part of a command waits. -/
theorem test_step_waits :
    next (step (hostSend [0x10, 0, 0] State.reset)) id = some (hostSend [0x10, 0, 0] State.reset) := by
  decide +kernel
/-- V14: reset drops the builder. -/
theorem test_reset : next (exec .seEmit (applyReset (at64 20 (zeros 9) false))) State.output = some [0, 0, 0, 0] := by
  decide +kernel

/-! ## Frame rows and symbol rows, as steps of `withFetchWord` (log 3, log 4, log 8) -/

/-- A step that runs a table word after reset. -/
def runWord (s : State) (nbits w : Nat) : Result := step (s.withFetchWord nbits w)

/-- The thirteen frame rows that need no WPM, from their 4-bit words: the builder holds their layout (R101). -/
theorem test_frame_words :
    [0, 1, 2, 3, 4, 5, 6, 7, 8, 9, 13, 14, 15].map (fun tag => next (runWord State.reset 4 tag) State.bb) =
      [some (bitsN 4 0), some (bitsN 11 0b0001_000000_0), some (bitsN 4 2), some (bitsN 4 3), some (bitsN 4 4),
        some (bitsN 4 5), some (bitsN 4 6), some (bitsN 4 7), some (bitsN 4 8), some (bitsN 4 9),
        some (bitsN 15 0b1101_00000000000), some (bitsN 4 14), some (bitsN 4 15)] := by decide +kernel
/-- The delta rows need a WPM (R23); at 20 WPM their widths are 7, 7 or 8, and 8 bits. -/
theorem test_delta_frames :
    [10, 11, 12].map (fun tag => next (runWord State.reset 4 tag) State.output) =
      [some [0x10, 0, 0, 0], some [0x10, 0, 0, 0], some [0x10, 0, 0, 0]] ∧
    next (exec (.keyingDeltaDit (-60)) (at64 20 [] false)) State.bb = some (bitsN 11 0b1010_1000100) ∧
    next (exec (.keyingDeltaDah 119) (at64 20 [] false)) State.bb = some (bitsN 12 0b1011_01110111) ∧
    next (exec (.keyingDeltaWordgap (-120)) (at64 20 [] false)) State.bb = some (bitsN 12 0b1100_10001000) := by
  decide +kernel
/-- A frame that does not fit, and one whose delta has no code. -/
theorem test_frame_errors :
    next (exec .keyingEnd (at64 20 (zeros 61) false)) State.output = some [0x20, 0, 0, 0] ∧
    next (exec (.keyingDeltaDit 64) (at64 20 [] false)) State.output = some [0x30, 0, 0, 0] := by decide +kernel
/-- A step of a frame word does what the row does. -/
theorem test_frame_word_is_row :
    next (runWord (at32 [] false) 4 11) id = next (exec (.keyingDeltaDah 0) (at32 [] false)) id := by
  decide +kernel
/-- Every tone row answers the samples of one symbol; the ramp rows none (R293). -/
theorem test_symbol_words :
    ((List.range 16).all fun t => decide (next (runWord (tuned 50 0 8) 8 t) answer = some (8, 36))) = true ∧
    next (runWord (tuned 50 0 8) 8 0x10) answer = some (0, 4) ∧
    next (runWord (tuned 50 0 8) 8 0x11) answer = some (0, 4) := by decide +kernel
/-- After reset there is no sample rate (R37, R291), which only a tone needs (R365). -/
theorem test_symbol_after_reset :
    next (runWord State.reset 8 0x0D) State.output = some [0x10, 0, 0, 0] ∧
    next (runWord State.reset 8 0x10) State.output = some [0, 0, 0, 0] := by decide +kernel

/-! ## Witnesses: concrete states and operands that meet the hypotheses of each obligation, clause by clause -/

/-- The settings of reset satisfy the invariants over any legal parameters. -/
theorem inv_of_builder {bb : Bits} {sent : Bool} (h : bb.length ≤ 32) (hs : sent = true → 11 ≤ bb.length) :
    (at32 bb sent).Inv where
  paramsLegal := test_default_legal
  builderFits := h
  wpmLegal := fun w hw => by cases hw; decide
  headerHeld := fun h => ⟨by simp [at32], hs h⟩
  extractorFits := Nat.zero_le _
  rateLegal := .inl rfl
  offsetLegal := (by decide : audioOffsetLegal 0 = true)
  capacityLegal := (by decide : outCapacityLegal 0 = true)

theorem inv_of_reset : State.reset.Inv where
  paramsLegal := test_default_legal
  builderFits := by decide
  wpmLegal := fun w hw => by cases hw
  headerHeld := fun h => by cases h
  extractorFits := by decide
  rateLegal := .inl rfl
  offsetLegal := by decide
  capacityLegal := by decide

/-- A legal parameter set with few parity bits, whose parity-check matrix checks its generator. -/
def paramsShort : Params :=
  { Params.default with
    ldpcN := 56
    ldpcP := (List.range 48).map fun i => (List.range 8).map fun j => j == i % 8
    ldpcH := Params.systematicH ((List.range 48).map fun i => (List.range 8).map fun j => j == i % 8) 8 }

theorem paramsShort_legal : paramsShort.legal = true := systematicH_legal (by decide +kernel) rfl

/-- The outcome is a next state. -/
theorem next_of_some {r : Result} {f : State → α} {x : α} (h : next r f = some x) : ∃ t, r = .next t ∧ f t = x := by
  cases r with
  | next t => exact ⟨t, rfl, by simpa [next] using h⟩
  | fault _ => cases h
  | refused _ => cases h

theorem witness_DecodeEncodeEveryRow :
    Params.default.sizesLegal = true ∧ (5 ≤ 5 ∧ 5 ≤ 60) ∧ (5 ≤ 60 ∧ 60 ≤ 60) ∧
    (Instr.keyingDeltaDit (-240)).wellFormed Params.default 5 = true ∧
    (Instr.keyingDeltaWordgap 63).wellFormed Params.default 60 = true ∧
    (Instr.csrWrite 0x10 8000).wellFormed Params.default 5 = true ∧
    Instr.tone15.wellFormed Params.default 60 = true :=
  ⟨default_sizes, by decide, by decide, by decide, by decide, by decide, by decide⟩

theorem witness_EncodeDecodeCommandStream :
    decodeCommand Params.default [0x29, 0, 0, 1, 0xAA, 0x14] = .command (.exLoad [0xAA]) [0x14] := by decide +kernel

theorem witness_UnassignedOpcodeIsIllegal :
    ((0 : Byte) ∉ ([0x10, 0x11, 0x12, 0x13, 0x14, 0x18, 0x20, 0x21, 0x28, 0x29, 0x2A, 0x30, 0x31, 0x38, 0x39, 0x40, 0x41, 0x48,
      0x50, 0x70, 0x71] : List Byte)) ∧ (hostSend [0, 1, 2, 3] State.reset).input = 0 :: 1 :: 2 :: 3 :: [] := by decide

theorem witness_ReservedBitsAreIllegal :
    headerOpcode 0x50000104 = 0x50#8 ∧ (0x50000104#32 &&& 0x000000FC#32 ≠ 0) ∧
    payloadLength State.reset.params 0x50000104 ≤ ([9] : List Byte).length ∧
    (hostSend [0x50, 0, 1, 4, 9] State.reset).input = be32 0x50000104 ++ [9] := by decide +kernel

theorem witness_PayloadLengthByOpcode :
    decodeCommand Params.default (be32 0x30000001 ++ [7, 8]) = .command (.crc14 [7]) [8] ∧
    decodeCommand Params.default (be32 0x48000002 ++ [1, 2, 3, 4, 5]) = .illegal .reservedBits [5] := by decide +kernel

theorem witness_IncompleteCommandWaits :
    (hostSend [0x10, 0, 0] State.reset).input.length < 4 ∧
    (hostSend [0x71, 0, 0, 0x10, 0, 0, 0] State.reset).input = be32 0x71000010 ++ [0, 0, 0] ∧
    ([0, 0, 0] : List Byte).length < payloadLength State.reset.params 0x71000010 := by decide +kernel

theorem witness_StepRunsDecodedCommand :
    decodeCommand (hostSend [0x14, 0, 0, 0, 9] State.reset).params (hostSend [0x14, 0, 0, 0, 9] State.reset).input =
      .command .seEmit [9] := by decide +kernel

/-- `StepKeepsInvariants`, `StepIsSafe`, `StepKeepsParameters` and `ErrorSeenIsSticky`: invariants and a next state. -/
theorem witness_StepKeepsInvariants : State.reset.Inv ∧ step State.reset = .next State.reset := ⟨inv_of_reset, rfl⟩

theorem witness_StepIsSafe : (at32 (zeros 32) true).Inv := inv_of_builder (by decide) (by decide)

theorem witness_StepKeepsParameters : ∃ t, step (hostSend [0x13, 0, 0, 20] State.reset) = .next t ∧ t.wpm = some 20 :=
  next_of_some (by decide +kernel)

theorem witness_ErrorSeenIsSticky :
    let s := { hostSend [0x10, 0, 0, 0] State.reset with errorSeen := true }
    s.errorSeen = true ∧ ∃ t, step s = .next t ∧ t.input = [] :=
  ⟨rfl, next_of_some (by decide +kernel)⟩

theorem witness_ConstructionSatisfiesInvariants :
    Params.default.legal = true ∧ Params.legal { Params.default with blockBits := 36 } = false :=
  ⟨test_default_legal, by decide +kernel⟩

theorem witness_ReachableStatesAreSafe :
    Params.default.legal = true ∧ ∃ t, Reachable Params.default t ∧ t.wpm = some 20 := by
  obtain ⟨t, ht, hw⟩ := witness_StepKeepsParameters
  exact ⟨test_default_legal, t, .step (.send _ .reset) ht, hw⟩

theorem witness_EveryCommandAnswersOnce :
    (∃ t, exec (.csrRead 0x13) State.reset = .next t ∧ t.output.length = 8) ∧
    (∃ t, exec (.bbAdd 17 0) State.reset = .next t ∧ t.output.length = 4) :=
  ⟨next_of_some (by decide +kernel), next_of_some (by decide +kernel)⟩

theorem witness_ErrorsArePrecise :
    let s := hostSend [0x28, 0x11, 0, 0] State.reset
    decodeCommand s.params s.input = .command (.bbAdd 17 0) [] ∧ ∃ t, step s = .next t ∧ t.errorSeen = true :=
  ⟨by decide +kernel, next_of_some (by decide +kernel)⟩

theorem witness_PureCommandsKeepState :
    (∃ d, Instr.crc14 [1] = .crc14 d) ∧ (∃ t, exec (.crc14 [1]) State.reset = .next t ∧ t.output = [0, 0, 0x27, 0x57]) ∧
    symbolOf .rampUp ≠ none ∧ ∃ t, exec .rampUp (tuned 50 0 0) = .next t ∧ t.output = [0, 0, 0, 0] :=
  ⟨⟨_, rfl⟩, next_of_some (by decide +kernel), by decide, next_of_some (by decide +kernel)⟩

theorem witness_OnlySetSpeedWritesWpm :
    ∃ t, exec (.seSetSpeed 20) State.reset = .next t ∧ decide (t.wpm ≠ State.reset.wpm) = true :=
  next_of_some (by decide +kernel)

theorem witness_SetSpeedResult :
    (5 ≤ (5#6).toNat ∧ (5#6).toNat ≤ 60) ∧ (5 ≤ (60#6).toNat ∧ (60#6).toNat ≤ 60) ∧ (4#6).toNat < 5 ∧ 60 < (61#6).toNat := by
  decide

theorem witness_EmitResult : State.reset.bb = [] ∧ (at32 [true] false).bb ≠ [] := by decide

theorem witness_BuiltBlockHoldsBuilder : State.reset.Inv ∧ (at32 (zeros 32) true).Inv :=
  ⟨inv_of_reset, witness_StepIsSafe⟩

theorem witness_EndResult :
    ((at32 (zeros 28) true).Inv ∧ (at32 (zeros 28) true).bb.length + 4 ≤ 32) ∧
    ((at32 (zeros 29) true).Inv ∧ 32 < (at32 (zeros 29) true).bb.length + 4) :=
  ⟨⟨inv_of_builder (by decide) (by decide), by decide⟩, ⟨inv_of_builder (by decide) (by decide), by decide⟩⟩

/-- `TimedRaises`, and the error clauses of `KeyEncodeResult`. -/
theorem witness_TimedRaises :
    (State.reset.Inv ∧ State.reset.wpm = none) ∧
    ((at32 [] false).Inv ∧ (at32 [] false).wpm ≠ none ∧ 2047 < (2048#16).toNat) :=
  ⟨⟨inv_of_reset, rfl⟩, ⟨inv_of_builder (by decide) (by decide), by decide, by decide⟩⟩

/-- The classification that the builder witnesses use: the perfect dit at 20 WPM. -/
theorem dit_at_20 : classify .signSelected 20 (60#16).toNat = .ok (bitsN 4 6) := by decide +kernel

theorem witness_TimedWithinBlock :
    ((at32 (zeros 28) true).Inv ∧ (at32 (zeros 28) true).wpm = some 20 ∧
      classify (at32 (zeros 28) true).params.dahPolicy 20 (60#16).toNat = .ok (bitsN 4 6) ∧
      (at32 (zeros 28) true).bb.length + (bitsN 4 6).length ≤ 32) ∧
    ((at32 (zeros 17) false).Inv ∧ (at32 (zeros 17) false).wpm = some 20 ∧
      (at32 (zeros 17) false).bb.length + 11 + (bitsN 4 6).length ≤ 32) :=
  ⟨⟨inv_of_builder (by decide) (by decide), rfl, dit_at_20, by decide⟩,
    ⟨inv_of_builder (by decide) (by decide), rfl, by decide⟩⟩

theorem witness_TimedFlushesOneBlock :
    ((at32 (zeros 29) true).Inv ∧ 32 < (at32 (zeros 29) true).bb.length + (bitsN 4 6).length) ∧
    ((at32 (zeros 22) false).Inv ∧ 32 < (at32 (zeros 22) false).bb.length + 11) ∧
    ((at32 (zeros 18) false).Inv ∧ (at32 (zeros 18) false).bb.length + 11 ≤ 32 ∧
      32 < (at32 (zeros 18) false).bb.length + 11 + (bitsN 4 6).length) ∧
    ((at32 (zeros 21) false).Inv ∧ (at32 (zeros 21) false).bb.length + 11 ≤ 32) ∧
    classify Params.default.dahPolicy 20 (60#16).toNat = .ok (bitsN 4 6) :=
  ⟨⟨inv_of_builder (by decide) (by decide), by decide⟩, ⟨inv_of_builder (by decide) (by decide), by decide⟩,
    ⟨inv_of_builder (by decide) (by decide), by decide, by decide⟩,
    ⟨inv_of_builder (by decide) (by decide), by decide⟩, dit_at_20⟩

theorem witness_KeyEncodeResult :
    ((at32 (zeros 29) true).Inv ∧ 32 < (at32 (zeros 29) true).bb.length + (bitsN 4 6).length) ∧
    ((at32 (zeros 28) false).Inv ∧ (at32 (zeros 28) false).bb.length + (bitsN 4 6).length ≤ 32) ∧
    classify Params.default.dahPolicy 20 (60#16).toNat = .ok (bitsN 4 6) :=
  ⟨⟨inv_of_builder (by decide) (by decide), by decide⟩, ⟨inv_of_builder (by decide) (by decide), by decide⟩, dit_at_20⟩

/-- One duration at each end of each interval of R172, at 20 WPM (`t = 60`). -/
theorem witness_ClassificationByIntervals :
    let t := 1200 / 20
    t = 60 ∧ (0 ≤ 2 * t ∧ 0 ≠ t) ∧ (120 ≤ 2 * t ∧ 120 ≠ t) ∧ (2 * t + 1 ≤ 121 ∧ 179 < 3 * t) ∧
    (3 * t < 181 ∧ 299 ≤ 5 * t - 1) ∧ (5 * t ≤ 300 ∧ 540 ≤ 7 * t + min 367 (2 * t) ∧ 300 ≠ 7 * t) ∧
    (7 * t + min 367 (2 * t) < 541 ∧ 2047 ≤ 2047) ∧ (2048 ≤ 2048 ∧ 65535 < 65536) := by decide

theorem witness_FrameLengthsByBand :
    classify .signSelected 5 1200 = .ok (bitsN 14 0b1100_1000100000) ∧
    classify .signSelected 60 181 = .ok (bitsN 15 0b1101_00010110101) := by decide +kernel

theorem witness_DeltaRangesFitWidths :
    (negDit 5 ≤ -240 ∧ (-240 : Int) ≤ posDit 5) ∧ (negDah 20 ≤ 119 ∧ (119 : Int) ≤ posDah 20) ∧
    (negWordgap 5 ≤ 367 ∧ (367 : Int) ≤ posWordgap 5) := by decide

theorem witness_DeltaEncodeResult :
    (4#4).toNat < 5 ∧ 9 < (10#4).toNat ∧
    ((8#4).toNat, 240) ∈ [(5, 31), (6, 63), (7, 127), (8, 240), (9, 480)] ∧
    240 < (241#16).toInt.natAbs ∧ (0xFF10#16).toInt.natAbs ≤ 240 := by decide

theorem witness_DeltaDecodeResult :
    (4#4).toNat < 5 ∧ 9 < (15#4).toNat ∧ (5 ≤ (9#4).toNat ∧ (9#4).toNat ≤ 9) ∧
    2 ^ ((9#4).toNat + 1) ≤ (0x400#16).toNat ∧ (0x3FF#16).toNat < 2 ^ ((9#4).toNat + 1) := by decide

theorem witness_DeltaRoundTrip :
    ((9#4).toNat, 480) ∈ [(5, 31), (6, 63), (7, 127), (8, 240), (9, 480)] ∧ (-480 : Int).natAbs ≤ 480 := by decide

theorem witness_BuilderAddResult :
    16 < (17#5).toNat ∧ (16#5).toNat ≤ 16 ∧ 32 < (at32 (zeros 17) false).bb.length + (16#5).toNat ∧
    (at32 (zeros 16) false).bb.length + (16#5).toNat ≤ 32 := by decide

theorem witness_ExtractorLoadResult :
    ([1, 2, 3, 4] : List Byte).length ≤ State.reset.params.blockBits / 8 ∧
    State.reset.params.blockBits / 8 < ([1, 2, 3, 4, 5] : List Byte).length := by decide

theorem witness_ExtractorTakeResult :
    16 < (17#5).toNat ∧ (16#5).toNat ≤ 16 ∧ State.reset.ex.length < (16#5).toNat ∧
    ([true, false, true] : Bits) = [true, false] ++ [true] ∧ ([true, false] : Bits).length = (2#5).toNat := by decide

/-- The values of the last row of V6, and enough to fill 32 bits. -/
def roundTripItems : List (BitVec 5 × BitVec 16) := [(4, 0xF), (16, 0x1234), (0, 0xFFFF), (12, 5)]

theorem witness_ExtractorRoundTrip :
    State.reset.Inv ∧ State.reset.bb = [] ∧ (∀ x ∈ roundTripItems, x.1.toNat ≤ 16) ∧
    0 < (roundTripItems.map fun x => x.1.toNat).sum ∧
    (roundTripItems.map fun x => x.1.toNat).sum ≤ State.reset.params.blockBits ∧
    (at32 [] false).params = State.reset.params :=
  ⟨inv_of_reset, rfl, by simp [roundTripItems], by decide, by decide, rfl⟩

theorem witness_CrcCheckResult : crc14 [0x01, 0x9D, 0x5C] = 0 ∧ crc14 [0x01, 0x9D, 0x5D] ≠ 0 := by decide +kernel

theorem witness_CrcDetectsSingleBitFlips :
    crc14 [0x01, 0x9D, 0x5C] = 0 ∧ 0 < 8 * ([0x01, 0x9D, 0x5C] : List Byte).length ∧
    23 < 8 * ([0x01, 0x9D, 0x5C] : List Byte).length := by decide +kernel

/-- `LdpcEncodeResult` and `LdpcEncodingIsLinear`. -/
theorem witness_LdpcEncodeResult :
    State.reset.params.sizesLegal = true ∧ ([1, 2, 3, 4, 5, 6] : List Byte).length = State.reset.params.messageBytes ∧
    0 < State.reset.params.parityBits ∧ 47 < State.reset.params.parityBits :=
  ⟨default_sizes, by decide, by decide, by decide⟩

/-- `CodewordsSatisfyParityChecks` and `ChannelCodewordVerifies`. -/
theorem witness_CodewordsSatisfyParityChecks :
    paramsShort.legal = true ∧
    ([1, 2, 3, 4, 5, 6] : List Byte).length = paramsShort.messageBytes ∧
    ([1, 2, 3, 4] : List Byte).length = paramsShort.blockBytes ∧ paramsShort.ldpcH ≠ [] :=
  ⟨paramsShort_legal, by decide, by decide, by decide⟩

theorem witness_ChannelEncodeResult :
    State.reset.params.sizesLegal = true ∧ ([1, 2, 3, 4] : List Byte).length = State.reset.params.blockBytes :=
  ⟨default_sizes, by decide⟩

/-- `GrayResults` and `GrayRoundTrip`. -/
theorem witness_GrayResults : State.reset.params.sizesLegal = true ∧ 15 < (16#8).toNat ∧ (15#8).toNat ≤ 15 :=
  ⟨default_sizes, by decide, by decide⟩

theorem witness_ModulatorRaises :
    ([15] : List Byte) ≠ [] ∧ ([0, 16] : List Byte) ≠ [] ∧ (tuned 49 0 0).sampleRate.toNat < 50 ∧ 50 ≤ (tuned 50 0 7).sampleRate.toNat ∧
    (∃ t ∈ ([0, 16] : List Byte), 15 < t.toNat) ∧ (∀ t ∈ ([15] : List Byte), t.toNat ≤ 15) ∧
    (tuned 50 0 7).outCapacity.toNat < ([15] : List Byte).length * (4 * (tuned 50 0 7).sampleRate.toNat / 25) := by
  decide

theorem witness_ModulatorResult :
    ([] : List Byte) = [] ∧ ([15] : List Byte) ≠ [] ∧ 50 ≤ (tuned 50 0 8).sampleRate.toNat ∧ (∀ t ∈ ([15] : List Byte), t.toNat ≤ 15) ∧
    ([15] : List Byte).length * (4 * (tuned 50 0 8).sampleRate.toNat / 25) ≤ (tuned 50 0 8).outCapacity.toNat := by
  decide

/-- One silent symbol at the smallest rate. -/
def silence : GfskRequest := gfskRequest false false [0] (tuned 50 0 8)

theorem witness_SilenceIsAllZeros :
    50 ≤ silence.sampleRate.toNat ∧ silence.audioOffset = 0 ∧ (∀ t ∈ silence.tones, t = 0) ∧
    ∃ w, w ∈ waveform 0 silence ∧ (waveform 0 silence)[0]? = some w :=
  ⟨by decide, by decide, by decide, _, List.mem_cons_self .., rfl⟩

theorem binary32Value_zero : binary32Value 0 = 0 := by
  unfold binary32Value
  rw [show binary32Fix 0 = 0 by decide +kernel, Int.cast_zero, zero_div]

/-- Numbers near 0 round to 0. -/
theorem roundsTo_zero {y : ℝ} (h : |y| ≤ 1 / 2 ^ 174) : RoundsTo y 0 := by
  refine ⟨by decide, fun c _ => ?_⟩
  rw [binary32Value_zero, zero_sub, abs_neg]
  have key : binary32Value c = 0 ∨ 2 * |y| < |binary32Value c| := by
    have hb : |(binary32Fix c : ℝ)| = (binary32Units c : ℝ) * 2 ^ 363 := by
      have e : ((binary32Units c * 2 ^ (fixBits - 149) : ℕ) : ℝ) = (binary32Units c : ℝ) * 2 ^ 363 := by
        have e1 : fixBits - 149 = 363 := by decide
        rw [e1, Nat.cast_mul, Nat.cast_pow, Nat.cast_ofNat]
      have e0 : (0 : ℝ) ≤ (binary32Units c : ℝ) * 2 ^ 363 :=
        mul_nonneg (Nat.cast_nonneg _) (pow_nonneg (by norm_num) _)
      unfold binary32Fix
      simp only
      split
      · rw [Int.cast_neg, abs_neg, Int.cast_natCast, e, abs_of_nonneg e0]
      · rw [Int.cast_natCast, e, abs_of_nonneg e0]
    rcases Nat.eq_zero_or_pos (binary32Units c) with hu | hu
    · left
      rw [hu, Nat.cast_zero, zero_mul, abs_eq_zero] at hb
      unfold binary32Value; rw [hb, zero_div]
    · right
      unfold binary32Value
      rw [abs_div, hb, show fixBits = 512 from rfl, abs_of_pos (pow_pos (by norm_num) _ : (0 : ℝ) < 2 ^ 512)]
      have h1 : (1 : ℝ) ≤ binary32Units c := by exact_mod_cast hu
      have h2 : (1 : ℝ) / 2 ^ 149 ≤ binary32Units c * 2 ^ 363 / 2 ^ 512 := by
        rw [div_le_div_iff₀ (by positivity) (by positivity), mul_assoc, ← pow_add]
        exact mul_le_mul_of_nonneg_right h1 (pow_nonneg (by norm_num) _)
      have h3 : 2 * (1 / 2 ^ 174 : ℝ) < 1 / 2 ^ 149 := by norm_num
      linarith
  rcases key with hc | hc
  · rw [hc]; simp
  · have h4 : |binary32Value c| ≤ |binary32Value c - y| + |y| := by
      have := abs_add_le (binary32Value c - y) y
      rwa [sub_add_cancel] at this
    exact ⟨by linarith, fun h5 => by linarith⟩

/-- A request and a sample that meet the premises, a choice within a tolerance of it, and one that is not. -/
theorem witness_SamplesConformToReference :
    50 ≤ silence.sampleRate.toNat ∧ requestTotal silence ≤ 2 ^ 32 ∧ (∃ w, (waveform 0 silence)[0]? = some w) ∧
    (∃ w, (waveform 7 silence)[0]? = some w) ∧
    (0 < 7 ∧ binary32Finite 0 = true ∧ |binary32Value 0 - realSample silence 0| ≤ ((7 : Nat) : ℝ) / 2 ^ 512) ∧
    binary32Finite 0x7F800000 = false ∧ RoundsTo (realSample silence 0) 0 := by
  have h0 : realSample silence 0 = 0 := by unfold realSample; simp [realPhase]
  rw [h0]
  refine ⟨by decide, by decide, ⟨_, rfl⟩, ⟨_, rfl⟩, ⟨by decide, by decide, ?_⟩, by decide, roundsTo_zero (by simp)⟩
  rw [binary32Value_zero, sub_zero, abs_zero]
  positivity

theorem witness_RoundingIsNearestEven :
    (-(2 ^ 513 : Int)).natAbs ≤ 2 ^ 513 ∧ binary32Finite 0x7F7FFFFF = true ∧ binary32Finite 0x00000001 = true := by
  decide +kernel

theorem witness_CsrReadResult :
    State.reset.Inv ∧
    (∀ others : List (BitVec 8 × Word), (0x00#8, 0x444D5437#32) ∈ (0x00#8, 0x444D5437#32) :: others) ∧
    0x13 < (0x14#8).toNat := ⟨inv_of_reset, fun _ => List.mem_cons_self .., by decide⟩

theorem witness_CsrWriteResult :
    50 ≤ (50#32).toNat ∧ (49#32).toNat < 50 ∧ (0x7F7FFFFF#32).toNat < 0x7F800000 ∧
    0x7F800000 ≤ (0x7F800000#32).toNat ∧ (0x0FFFFFFF#32).toNat < 2 ^ 28 ∧ 2 ^ 28 ≤ (0x10000000#32).toNat ∧
    (0x0F#8 ∉ ([0x10, 0x11, 0x12] : List (BitVec 8))) ∧ (0x13#8 ∉ ([0x10, 0x11, 0x12] : List (BitVec 8))) := by decide

theorem witness_FrameRowsAppendTheirLayout :
    (at32 (zeros 28) true).bb.length + 4 ≤ 32 ∧ 32 < (at32 (zeros 29) true).bb.length + 4 ∧
    (at32 [] false).wpm = some 20 ∧ deltaFits (-63) (ditWidth 20) = true ∧ deltaFits 127 (dahWidth .signSelected 20 127) = true ∧
    deltaFits (-127) (wordgapWidth 20) = true := by decide

theorem witness_SymbolRowsAreModulated :
    50 ≤ (tuned 50 0 8).sampleRate.toNat ∧ symbolOf .tone9 = some (.tone 9) ∧
    4 * (tuned 50 0 8).sampleRate.toNat / 25 ≤ (tuned 50 0 8).outCapacity.toNat := by decide

end Sys2Proof.Tests
end

section
/-! PROOFS. Building a core (R150, R360): reset satisfies the invariants under every legal parameter set. -/

namespace Sys2Proof.Machine

/-- Reset meets the invariants: every field of R44 is empty, `NONE` or 0, so only the parameters are left to check. -/
theorem resetWith_inv {p : Params} (h : p.legal = true) : (State.resetWith p).Inv where
  paramsLegal := h
  builderFits := Nat.zero_le _
  wpmLegal := by simp
  headerHeld := by simp
  extractorFits := Nat.zero_le _
  rateLegal := .inl rfl
  offsetLegal := (by decide : audioOffsetLegal 0 = true)
  capacityLegal := (by decide : outCapacityLegal 0 = true)

theorem construct_of_legal {p : Params} (h : p.legal = true) : construct p = .next (State.resetWith p) := if_pos h

theorem construct_of_not_legal {p : Params} (h : p.legal = false) : construct p = .refused .illegalParameters :=
  if_neg (by simp [h])

/-- Settles O10: `construct` tests `legal` alone, and reset satisfies the invariants. -/
theorem constructionSatisfiesInvariants : Obligations.ConstructionSatisfiesInvariants := fun _ =>
  ⟨fun h => ⟨construct_of_legal h, resetWith_inv h⟩, construct_of_not_legal⟩

end Sys2Proof.Machine
end

section
/-! PROOFS. Rounding to binary32 (R13, R108). The low 31 bits of a pattern number the finite magnitudes in order, and in
the binade of a number the magnitudes are the multiples of one power of two. -/

namespace Sys2Proof.Machine

/-! ## The magnitudes in the order of their codes -/

/-- The exponent and the fraction bits of a pattern, as one number. -/
def magnitudeCode (w : Word) : Nat := w.toNat % 2 ^ 31

/-- The magnitude of a code in units of `2^-149`: `binary32Units` of every pattern with that code. -/
def codeUnits (n : Nat) : Nat :=
  if n / 2 ^ 23 = 0 then n % 2 ^ 23 else (2 ^ 23 + n % 2 ^ 23) * 2 ^ (n / 2 ^ 23 - 1)

theorem exponentField_toNat (w : Word) : (w.extractLsb' 23 8).toNat = magnitudeCode w / 2 ^ 23 := by
  simp [magnitudeCode, BitVec.extractLsb'_toNat, Nat.shiftRight_eq_div_pow]; omega

theorem fractionField_toNat (w : Word) : (w.extractLsb' 0 23).toNat = magnitudeCode w % 2 ^ 23 := by
  simp [magnitudeCode, BitVec.extractLsb'_toNat]

theorem binary32Units_eq (w : Word) : binary32Units w = codeUnits (magnitudeCode w) := by
  simp only [binary32Units, exponentField_toNat, fractionField_toNat, codeUnits]

theorem binary32Finite_iff (w : Word) : binary32Finite w = true ↔ magnitudeCode w / 2 ^ 23 ≠ 255 := by
  rw [← exponentField_toNat]
  simp [binary32Finite, bne_iff_ne, ← BitVec.toNat_inj]

theorem getElem_zero_eq (w : Word) : w[0] = decide (magnitudeCode w % 2 = 1) := by
  rw [BitVec.getElem_eq_testBit_toNat, Nat.testBit_zero, magnitudeCode, Nat.mod_mod_of_dvd _ (by decide)]

theorem codeUnits_zero : codeUnits 0 = 0 := rfl

/-- A code in the `d`-th binade above the subnormals, or its upper end. -/
theorem codeUnits_binade {d q : Nat} (hq : q ≤ 2 ^ 24) (hd : d = 0 ∨ 2 ^ 23 ≤ q) :
    codeUnits (d * 2 ^ 23 + q) = q * 2 ^ d := by
  unfold codeUnits
  rcases lt_or_ge q (2 ^ 23) with h1 | h1
  · obtain rfl : d = 0 := by omega
    rw [if_pos (by omega)]; omega
  · rw [if_neg (by omega)]
    rcases lt_or_eq_of_le hq with h2 | rfl
    · rw [show (d * 2 ^ 23 + q) / 2 ^ 23 - 1 = d by omega, show 2 ^ 23 + (d * 2 ^ 23 + q) % 2 ^ 23 = q by omega]
    · rw [show (d * 2 ^ 23 + 2 ^ 24) / 2 ^ 23 - 1 = d + 1 by omega,
        show 2 ^ 23 + (d * 2 ^ 23 + 2 ^ 24) % 2 ^ 23 = 2 ^ 23 by omega]
      ring

/-- Every magnitude above a binade's lower end `2^(23+d)` is a multiple of the binade's last place. -/
theorem codeUnits_lt_or_multiple (n d : Nat) : codeUnits n < 2 ^ 23 * 2 ^ d ∨ ∃ j, codeUnits n = j * 2 ^ d := by
  have hm : n % 2 ^ 23 < 2 ^ 23 := Nat.mod_lt _ (by norm_num)
  unfold codeUnits
  split
  · exact .inl (lt_of_lt_of_le hm (Nat.le_mul_of_pos_right _ (Nat.two_pow_pos d)))
  · rename_i he
    obtain ⟨e, he⟩ := Nat.exists_eq_succ_of_ne_zero he
    rw [he, Nat.succ_sub_one]
    rcases lt_or_ge e d with h | h
    · left
      calc (2 ^ 23 + n % 2 ^ 23) * 2 ^ e < 2 ^ 24 * 2 ^ e := by gcongr; omega
        _ = 2 ^ 23 * 2 ^ (e + 1) := by ring
        _ ≤ 2 ^ 23 * 2 ^ d := by gcongr <;> omega
    · right
      exact ⟨(2 ^ 23 + n % 2 ^ 23) * 2 ^ (e - d), by rw [mul_assoc, ← pow_add, Nat.sub_add_cancel h]⟩

theorem codeUnits_strictMono : StrictMono codeUnits := by
  refine strictMono_nat_of_lt_succ fun n => ?_
  obtain ⟨e, m, hm, rfl⟩ : ∃ e m, m < 2 ^ 23 ∧ n = e * 2 ^ 23 + m := ⟨n / 2 ^ 23, n % 2 ^ 23, by omega, by omega⟩
  cases e with
  | zero =>
    have h1 := codeUnits_binade (d := 0) (q := m) (by omega) (.inl rfl)
    have h2 := codeUnits_binade (d := 0) (q := m + 1) (by omega) (.inl rfl)
    rw [Nat.add_assoc, h1, h2]; omega
  | succ d =>
    have h1 := codeUnits_binade (d := d) (q := 2 ^ 23 + m) (by omega) (.inr (by omega))
    have h2 := codeUnits_binade (d := d) (q := 2 ^ 23 + m + 1) (by omega) (.inr (by omega))
    rw [show (d + 1) * 2 ^ 23 + m = d * 2 ^ 23 + (2 ^ 23 + m) by ring,
      show d * 2 ^ 23 + (2 ^ 23 + m) + 1 = d * 2 ^ 23 + (2 ^ 23 + m + 1) by ring, h1, h2]
    exact Nat.mul_lt_mul_of_pos_right (Nat.lt_succ_self _) (Nat.two_pow_pos d)

/-! ## Rounding a magnitude -/

/-- The smallest positive binary32 in units of `2^-512`. -/
def smallestUnit : Nat := 2 ^ (fixBits - 149)

theorem smallestUnit_pos : 0 < smallestUnit := Nat.two_pow_pos _

theorem two_pow_mul_smallestUnit {s : Nat} (h : 363 ≤ s) : 2 ^ (s - 363) * smallestUnit = 2 ^ s := by
  have e : s - 363 + (fixBits - 149) = s := by unfold fixBits; omega
  unfold smallestUnit
  rw [← pow_add, e]

/-- The distance of two numbers. -/
def gap (a b : Nat) : Nat := ((a : Int) - b).natAbs

/-- The exponent of the last place of a magnitude in units of `2^-512`: 23 below its leading bit, or that of a
subnormal. -/
def lastPlace (m : Nat) : Nat := max m.log2 (fixBits - 126) - 23

theorem lastPlace_ge (m : Nat) : 363 ≤ lastPlace m := by unfold lastPlace fixBits; omega

theorem lt_two_pow_lastPlace (m : Nat) : m < 2 ^ 24 * 2 ^ lastPlace m := by
  rw [← pow_add]
  exact Nat.lt_log2_self.trans_le (Nat.pow_le_pow_right (by norm_num) (by unfold lastPlace fixBits; omega))

theorem two_pow_lastPlace_le {m : Nat} (h : lastPlace m ≠ 363) : 2 ^ 23 * 2 ^ lastPlace m ≤ m := by
  have hl : 23 + lastPlace m = m.log2 := by unfold lastPlace fixBits at *; omega
  have hm : m ≠ 0 := by rintro rfl; exact h (by decide)
  rw [← pow_add, hl]
  exact Nat.log2_self_le hm

theorem roundEven_zero (s : Nat) : roundEven 0 s = 0 := by simp [roundEven]

theorem roundMagnitude_eq (m : Nat) :
    roundMagnitude m = (lastPlace m - 363) * 2 ^ 23 + roundEven m (lastPlace m) := by
  unfold roundMagnitude
  split
  · subst m; simp [roundEven_zero, lastPlace, fixBits]
  · simp only
    rw [show max m.log2 (fixBits - 126) - (fixBits - 126) = lastPlace m - 363 by unfold lastPlace fixBits; omega]
    rfl

/-- `roundEven` takes the nearest multiple of `2^s`, and of two equally near ones the even one. -/
theorem roundEven_nearest (m s j : Nat) :
    gap (roundEven m s * 2 ^ s) m ≤ gap (j * 2 ^ s) m ∧
    (gap (roundEven m s * 2 ^ s) m = gap (j * 2 ^ s) m → j ≠ roundEven m s → roundEven m s % 2 = 0) := by
  have hm := Nat.div_add_mod m (2 ^ s)
  have hr := Nat.mod_lt m (Nat.two_pow_pos s)
  unfold roundEven gap
  simp only
  generalize m / 2 ^ s = q at *
  generalize m % 2 ^ s = r at *
  generalize 2 ^ s = b at *
  subst hm
  have key : j * b + b ≤ q * b ∨ j = q ∨ j = q + 1 ∨ q * b + 2 * b ≤ j * b := by
    rcases Nat.lt_trichotomy j q with h | h | h
    · left; nlinarith
    · exact .inr (.inl h)
    · rcases Nat.lt_or_ge (q + 1) j with h' | h'
      · right; right; right; nlinarith
      · right; right; left; omega
  have e : (q + 1) * b = q * b + b := by ring
  rw [Nat.mul_comm b q]
  rcases key with h | rfl | rfl | h
  all_goals split <;> omega

theorem roundEven_le {m s q : Nat} (h : m < q * 2 ^ s) : roundEven m s ≤ q := by
  have : m / 2 ^ s < q := Nat.div_lt_of_lt_mul (by rwa [Nat.mul_comm])
  unfold roundEven; simp only; split <;> omega

theorem le_roundEven {m s q : Nat} (h : q * 2 ^ s ≤ m) : q ≤ roundEven m s := by
  have : q ≤ m / 2 ^ s := (Nat.le_div_iff_mul_le (Nat.two_pow_pos s)).2 h
  unfold roundEven; simp only; split <;> omega

/-- The magnitude of the rounded code is the rounded multiple of the last place. -/
theorem codeUnits_roundMagnitude (m : Nat) :
    codeUnits (roundMagnitude m) * smallestUnit = roundEven m (lastPlace m) * 2 ^ lastPlace m := by
  have hs := lastPlace_ge m
  rw [roundMagnitude_eq, codeUnits_binade (roundEven_le (lt_two_pow_lastPlace m)), mul_assoc,
    two_pow_mul_smallestUnit hs]
  rcases eq_or_ne (lastPlace m) 363 with h | h
  · exact .inl (by omega)
  · exact .inr (le_roundEven (two_pow_lastPlace_le h))

theorem roundMagnitude_mod_two (m : Nat) : roundMagnitude m % 2 = roundEven m (lastPlace m) % 2 := by
  rw [roundMagnitude_eq]; omega

/-- The magnitude of code `a` is at least as near to `m` as that of code `n`, and `a` is even where two different ones are
equally near. -/
def NearerEven (m a n : Nat) : Prop :=
  gap (codeUnits a * smallestUnit) m ≤ gap (codeUnits n * smallestUnit) m ∧
  (gap (codeUnits a * smallestUnit) m = gap (codeUnits n * smallestUnit) m →
    codeUnits n * smallestUnit ≠ codeUnits a * smallestUnit → a % 2 = 0)

theorem roundMagnitude_nearest_multiple {m n j : Nat} (hj : codeUnits n * smallestUnit = j * 2 ^ lastPlace m) :
    NearerEven m (roundMagnitude m) n := by
  obtain ⟨hle, htie⟩ := roundEven_nearest m (lastPlace m) j
  rw [NearerEven, codeUnits_roundMagnitude, hj, roundMagnitude_mod_two]
  exact ⟨hle, fun heq hne => htie heq fun h => hne (by rw [h])⟩

/-- A number at or above `2^23` last places is nearer to its rounding than to any magnitude below that. -/
theorem roundMagnitude_nearest_below {m n : Nat} (hm : 2 ^ 23 * 2 ^ lastPlace m ≤ m)
    (hn : codeUnits n * smallestUnit < 2 ^ 23 * 2 ^ lastPlace m) : NearerEven m (roundMagnitude m) n := by
  have hend := (roundEven_nearest m (lastPlace m) (2 ^ 23)).1
  rw [← codeUnits_roundMagnitude] at hend
  have hfar : gap (codeUnits (roundMagnitude m) * smallestUnit) m < gap (codeUnits n * smallestUnit) m := by
    refine hend.trans_lt ?_
    unfold gap; omega
  exact ⟨hfar.le, fun heq => absurd heq hfar.ne⟩

/-- Of all magnitudes the rounded one is nearest, ties to even: in the binade of the number the magnitudes are multiples
of the last place, and those below the binade are farther than its lower end. -/
theorem roundMagnitude_nearest (m n : Nat) : NearerEven m (roundMagnitude m) n := by
  have hpow := two_pow_mul_smallestUnit (lastPlace_ge m)
  rcases codeUnits_lt_or_multiple n (lastPlace m - 363) with hlt | ⟨j, hj⟩
  · rcases eq_or_ne (lastPlace m) 363 with h | h
    · exact roundMagnitude_nearest_multiple (j := codeUnits n) (by rw [← hpow, h, Nat.sub_self, pow_zero, one_mul])
    · refine roundMagnitude_nearest_below (two_pow_lastPlace_le h) ?_
      rw [← hpow, ← mul_assoc]
      exact Nat.mul_lt_mul_of_pos_right hlt smallestUnit_pos
  · exact roundMagnitude_nearest_multiple (by rw [hj, mul_assoc, hpow])

theorem roundMagnitude_lt {m : Nat} (h : m ≤ 2 ^ 513) : roundMagnitude m < 255 * 2 ^ 23 := by
  have hq := roundEven_le (lt_two_pow_lastPlace m)
  have hl : lastPlace m ≤ 490 := by
    by_contra hl
    have hend := (two_pow_lastPlace_le (by omega)).trans h
    rw [← pow_add, pow_le_pow_iff_right₀ (by norm_num)] at hend
    omega
  rw [roundMagnitude_eq]; omega

/-! ## Rounding a number -/

theorem binary32Fix_eq (w : Word) :
    binary32Fix w = if w[31] then -((codeUnits (magnitudeCode w) * smallestUnit : Nat) : Int)
      else (codeUnits (magnitudeCode w) * smallestUnit : Nat) := by
  rw [← binary32Units_eq]; rfl

theorem magnitudeCode_roundBinary32 {y : Int} (h : y.natAbs ≤ 2 ^ 513) :
    magnitudeCode (roundBinary32 y) = roundMagnitude y.natAbs := by
  have hlt := roundMagnitude_lt h
  rw [magnitudeCode, roundBinary32, BitVec.toNat_append, Nat.or_mod_two_pow, Nat.shiftLeft_eq, Nat.mul_mod_left,
    Nat.zero_or, BitVec.toNat_ofNat, Nat.mod_mod, Nat.mod_eq_of_lt (by omega)]

theorem roundBinary32_sign (y : Int) : (roundBinary32 y)[31] = decide (y < 0) := by
  rw [roundBinary32, BitVec.getElem_append]
  simp

/-- Settles O54: a number of the other sign is no nearer than its magnitude is, and magnitudes are
`roundMagnitude_nearest`. -/
theorem roundingIsNearestEven : Obligations.RoundingIsNearestEven := by
  intro y hy
  have hcode := magnitudeCode_roundBinary32 hy
  have hlt := roundMagnitude_lt hy
  refine ⟨(binary32Finite_iff _).2 (by rw [hcode]; omega), fun c _ => ?_⟩
  obtain ⟨hzero, -⟩ := roundMagnitude_nearest y.natAbs 0
  obtain ⟨hle, htie⟩ := roundMagnitude_nearest y.natAbs (magnitudeCode c)
  rw [getElem_zero_eq, binary32Fix_eq, binary32Fix_eq c, roundBinary32_sign, hcode, decide_eq_false_iff_not,
    Nat.mod_two_not_eq_one]
  rw [codeUnits_zero, Nat.zero_mul] at hzero
  unfold gap at *
  generalize codeUnits (magnitudeCode c) * smallestUnit = v at *
  generalize codeUnits (roundMagnitude y.natAbs) * smallestUnit = a at *
  generalize roundMagnitude y.natAbs % 2 = parity at *
  clear hy hcode hlt
  rcases lt_or_ge y 0 with hy | hy
  · rw [if_pos (by simpa using hy)]
    split <;> omega
  · rw [if_neg (by simpa using hy)]
    split <;> omega

end Sys2Proof.Machine
end

section
/-! PROOFS. The samples of R300 against the real waveform: `roundSample` is `f32` of the real `y(k)`. -/

namespace Sys2Proof.Machine

/-! ## Rounding a real number, by midpoints -/

/-- Of two numbers the upper one is at most as far from `y` iff their midpoint is not above `y`. -/
theorem upper_nearer_iff {a b y : ℝ} (h : a < b) : |b - y| ≤ |a - y| ↔ a + b ≤ 2 * y := by
  rw [← sq_le_sq]; constructor <;> intro <;> nlinarith

/-- Of two numbers the lower one is at most as far from `y` iff their midpoint is not below `y`. -/
theorem lower_nearer_iff {a b y : ℝ} (h : a < b) : |a - y| ≤ |b - y| ↔ 2 * y ≤ a + b := by
  rw [← sq_le_sq]; constructor <;> intro <;> nlinarith

/-- `w` is `f32(y)` iff no midpoint of `w` and another number lies between `w` and `y`, and one lies on `y` only if the
last place of `w` is even. -/
theorem roundsTo_iff_midpoints {y : ℝ} {w : Word} :
    RoundsTo y w ↔ binary32Finite w = true ∧ ∀ c : Word, binary32Finite c = true →
      (binary32Value c < binary32Value w → binary32Value c + binary32Value w ≤ 2 * y ∧
        (binary32Value c + binary32Value w = 2 * y → w[0] = false)) ∧
      (binary32Value w < binary32Value c → 2 * y ≤ binary32Value w + binary32Value c ∧
        (2 * y = binary32Value w + binary32Value c → w[0] = false)) := by
  refine and_congr_right fun _ => forall₂_congr fun c _ => ?_
  generalize binary32Value c = a
  generalize binary32Value w = b
  rcases lt_trichotomy a b with h | rfl | h
  · simp [upper_nearer_iff h, le_antisymm_iff, lower_nearer_iff h, h, h.not_gt]
  · simp
  · simp [upper_nearer_iff h, le_antisymm_iff, lower_nearer_iff h, h, h.not_gt]

theorem RoundsTo.midpoint_le {y : ℝ} {w c : Word} (hw : RoundsTo y w) (hc : binary32Finite c = true)
    (h : binary32Value c < binary32Value w) : binary32Value c + binary32Value w ≤ 2 * y :=
  (upper_nearer_iff h).1 (hw.2 c hc).1

theorem RoundsTo.le_midpoint {y : ℝ} {w c : Word} (hw : RoundsTo y w) (hc : binary32Finite c = true)
    (h : binary32Value w < binary32Value c) : 2 * y ≤ binary32Value w + binary32Value c :=
  (lower_nearer_iff h).1 (hw.2 c hc).1

/-- Rounding is monotone. -/
theorem RoundsTo.value_mono {a b : ℝ} {l u : Word} (hl : RoundsTo a l) (hu : RoundsTo b u) (h : a < b) :
    binary32Value l ≤ binary32Value u := by
  by_contra hlt
  have hla := hl.midpoint_le hu.1 (not_le.1 hlt)
  have hub := hu.le_midpoint hl.1 (not_le.1 hlt)
  linarith

/-- Where two numbers round to the same value, so does every number between them. -/
theorem RoundsTo.of_between {a b y : ℝ} {l u : Word} (hl : RoundsTo a l) (hu : RoundsTo b u) (ha : a < y) (hb : y < b)
    (he : binary32Value l = binary32Value u) : RoundsTo y l := by
  refine roundsTo_iff_midpoints.2 ⟨hl.1, fun c hc => ⟨fun h => ?_, fun h => ?_⟩⟩
  · have := hl.midpoint_le hc h
    exact ⟨by linarith, fun _ => by linarith⟩
  · have := hu.le_midpoint hc (he ▸ h)
    exact ⟨by linarith, fun _ => by linarith⟩

/-- No finite binary32 lies between `l` and the greater `u`. -/
structure Neighbours (l u : Word) : Prop where
  lower_finite : binary32Finite l = true
  upper_finite : binary32Finite u = true
  lt : binary32Value l < binary32Value u
  none_between : ∀ c : Word, binary32Finite c = true →
    binary32Value c ≤ binary32Value l ∨ binary32Value u ≤ binary32Value c

/-- A number not above the midpoint of two neighbours, and above one that rounds to the lower neighbour, rounds to it
too. On the midpoint the lower neighbour must be even. -/
theorem Neighbours.roundsTo_lower {a y : ℝ} {l u : Word} (hn : Neighbours l u) (hl : RoundsTo a l) (ha : a < y)
    (hy : 2 * y ≤ binary32Value l + binary32Value u)
    (htie : 2 * y = binary32Value l + binary32Value u → l[0] = false) : RoundsTo y l := by
  refine roundsTo_iff_midpoints.2 ⟨hl.1, fun c hc => ⟨fun h => ?_, fun h => ?_⟩⟩
  · have := hl.midpoint_le hc h
    exact ⟨by linarith, fun _ => by linarith⟩
  · have := (hn.none_between c hc).resolve_left h.not_ge
    exact ⟨by linarith, fun _ => htie (by linarith)⟩

/-- The same above the midpoint, for the upper neighbour. -/
theorem Neighbours.roundsTo_upper {b y : ℝ} {l u : Word} (hn : Neighbours l u) (hu : RoundsTo b u) (hb : y < b)
    (hy : binary32Value l + binary32Value u ≤ 2 * y)
    (htie : binary32Value l + binary32Value u = 2 * y → u[0] = false) : RoundsTo y u := by
  refine roundsTo_iff_midpoints.2 ⟨hu.1, fun c hc => ⟨fun h => ?_, fun h => ?_⟩⟩
  · have := (hn.none_between c hc).resolve_right h.not_ge
    exact ⟨by linarith, fun _ => htie (by linarith)⟩
  · have := hu.le_midpoint hc h
    exact ⟨by linarith, fun _ => by linarith⟩

/-! ## Finite binary32 numbers as whole numbers of units -/

theorem unitsReal_lt {a b : ℤ} : unitsReal a < unitsReal b ↔ a < b := by
  unfold unitsReal
  rw [div_lt_div_iff_of_pos_right (by positivity), Int.cast_lt]

theorem unitsReal_add (a b : ℤ) : unitsReal (a + b) = unitsReal a + unitsReal b := by
  unfold unitsReal; rw [Int.cast_add, add_div]

theorem unitsReal_le {a b : ℤ} : unitsReal a ≤ unitsReal b ↔ a ≤ b := by
  rw [← not_lt, unitsReal_lt, not_lt]

theorem unitsReal_inj {a b : ℤ} : unitsReal a = unitsReal b ↔ a = b := by
  simp only [le_antisymm_iff, unitsReal_le]

theorem binary32Value_eq (w : Word) : binary32Value w = unitsReal (binary32Fix w) := rfl

theorem smallestUnit_dvd_binary32Fix (w : Word) : (smallestUnit : ℤ) ∣ binary32Fix w := by
  rw [binary32Fix_eq, Nat.cast_mul]
  split
  · exact (Dvd.intro_left _ rfl).neg_right
  · exact Dvd.intro_left _ rfl

/-- The whole number that is a finite binary32 in units of `2^-512` is even. -/
theorem two_dvd_binary32Fix (w : Word) : 2 ∣ binary32Fix w := by
  refine Dvd.dvd.trans ?_ (smallestUnit_dvd_binary32Fix w)
  exact_mod_cast (dvd_pow_self 2 (by decide) : 2 ∣ smallestUnit)

/-- Two binary32 numbers are equal or `2^-149` apart. -/
theorem binary32Fix_add_smallestUnit_le {c d : Word} (h : binary32Fix c < binary32Fix d) :
    binary32Fix c + smallestUnit ≤ binary32Fix d := by
  have := Int.le_of_dvd (by omega) ((smallestUnit_dvd_binary32Fix d).sub (smallestUnit_dvd_binary32Fix c))
  omega

theorem four_lt_smallestUnit : 4 < smallestUnit := by
  have : 2 ^ 2 < 2 ^ (fixBits - 149) := Nat.pow_lt_pow_right (by norm_num) (by decide)
  exact this

/-- Patterns of one value have one code, but for the sign of a zero. -/
theorem magnitudeCode_eq_of_value_eq {v w : Word} (h : binary32Value v = binary32Value w) :
    magnitudeCode v = magnitudeCode w := by
  rw [binary32Value_eq, binary32Value_eq, unitsReal_inj, binary32Fix_eq, binary32Fix_eq] at h
  refine codeUnits_strictMono.injective (Nat.eq_of_mul_eq_mul_right smallestUnit_pos ?_)
  split at h <;> split at h <;> omega

theorem getElem_zero_eq_of_value_eq {v w : Word} (h : binary32Value v = binary32Value w) : v[0] = w[0] := by
  rw [getElem_zero_eq, getElem_zero_eq, magnitudeCode_eq_of_value_eq h]

theorem binary32Value_eq_zero_iff (w : Word) : binary32Value w = 0 ↔ magnitudeCode w = 0 := by
  have h0 : binary32Value 0 = 0 := by
    rw [binary32Value_eq, binary32Fix_eq, show magnitudeCode 0 = 0 from rfl, codeUnits_zero]; simp [unitsReal]
  refine ⟨fun h => magnitudeCode_eq_of_value_eq (h.trans h0.symm), fun h => ?_⟩
  rw [binary32Value_eq, binary32Fix_eq, h, codeUnits_zero]; simp [unitsReal]

/-- `f32` of a whole number of units is `f32` of the real number (`roundingIsNearestEven`). -/
theorem roundBinary32_roundsTo {y : ℤ} (h : y.natAbs ≤ 2 ^ 513) : RoundsTo (unitsReal y) (roundBinary32 y) := by
  have habs : ∀ w : Word, |binary32Value w - unitsReal y| = ((binary32Fix w - y).natAbs : ℝ) / 2 ^ fixBits := by
    intro w
    rw [Nat.cast_natAbs, binary32Value_eq, unitsReal, unitsReal, ← sub_div, abs_div,
      abs_of_pos (by positivity : (0 : ℝ) < 2 ^ fixBits)]
    push_cast; rfl
  obtain ⟨hfin, hnear⟩ := roundingIsNearestEven y h
  refine ⟨hfin, fun c hc => ?_⟩
  rw [habs, habs, div_le_div_iff_of_pos_right (by positivity), div_left_inj' (by positivity), Nat.cast_le, Nat.cast_inj,
    binary32Value_eq, binary32Value_eq, Ne, unitsReal_inj]
  exact hnear c hc

/-! ## The two candidates for a sample -/

/-- The values of two numbers 4 units apart are the same or those of neighbours. -/
theorem neighbours_of_close {m : ℤ} {l u : Word} (hl : RoundsTo (unitsReal (m - 2)) l)
    (hu : RoundsTo (unitsReal (m + 2)) u) (hne : binary32Value l ≠ binary32Value u) : Neighbours l u := by
  have hle := hl.value_mono hu (unitsReal_lt.2 (by omega))
  refine ⟨hl.1, hu.1, lt_of_le_of_ne hle hne, fun c hc => ?_⟩
  by_contra! hbetween
  obtain ⟨hlc, hcu⟩ := hbetween
  have h1 := hl.le_midpoint hc hlc
  have h2 := hu.midpoint_le hc hcu
  simp only [binary32Value_eq, two_mul, ← unitsReal_add, unitsReal_le, unitsReal_lt] at h1 h2 hlc hcu
  have h3 := binary32Fix_add_smallestUnit_le hlc
  have h4 := binary32Fix_add_smallestUnit_le hcu
  have h5 := four_lt_smallestUnit
  omega

/-- The midpoint of two binary32 numbers is a whole number of units. -/
theorem two_mul_midpoint (l u : Word) :
    2 * unitsReal ((binary32Fix l + binary32Fix u) / 2) = binary32Value l + binary32Value u := by
  have hl := two_dvd_binary32Fix l
  have hu := two_dvd_binary32Fix u
  rw [binary32Value_eq, binary32Value_eq, two_mul, ← unitsReal_add, ← unitsReal_add, unitsReal_inj]
  omega

/-- Of two neighbours one is even: the one that their midpoint rounds to. -/
theorem Neighbours.upper_even {l u x : Word} {y : ℝ} (hn : Neighbours l u)
    (hy : 2 * y = binary32Value l + binary32Value u) (hx : RoundsTo y x) (hl : l[0] = true) : u[0] = false := by
  rw [roundsTo_iff_midpoints] at hx
  obtain ⟨hfin, hmid⟩ := hx
  obtain ⟨-, habove⟩ := hmid u hn.upper_finite
  obtain ⟨hbelow, -⟩ := hmid l hn.lower_finite
  have hlt := hn.lt
  rcases hn.none_between x hfin with h | h
  · have htie := habove (by linarith)
    have hxl : binary32Value x = binary32Value l := le_antisymm h (by linarith [htie.1])
    have := htie.2 (by linarith)
    rw [getElem_zero_eq_of_value_eq hxl, hl] at this
    cases this
  · have htie := hbelow (by linarith)
    have hxu : binary32Value x = binary32Value u := le_antisymm (by linarith [htie.1]) h
    rw [← getElem_zero_eq_of_value_eq hxu]
    exact htie.2 (by linarith)

/-! ## The sample -/

theorem abs_realSample_le_one (r : GfskRequest) (k : ℕ) : |realSample r k| ≤ 1 := by
  have henv : ∀ (p : Prop) [Decidable p] (n i : ℕ), |if p then realEnvelope n i else 1| ≤ 1 := by
    intro p _ n i
    split
    · exact realEnvelope_abs n i
    · simp
  unfold realSample
  rw [abs_mul, abs_mul]
  exact mul_le_one₀ (mul_le_one₀ (Real.abs_sin_le_one _) (abs_nonneg _) (henv _ _ _)) (abs_nonneg _) (henv _ _ _)

/-- The approximation that `roundSample` starts from, in whole units. -/
def sampleUnits (r : GfskRequest) (k : ℕ) : ℤ :=
  approximateSample (precision 0) r k (toneSumBefore (precision 0) r k) / 2 ^ (precision 0 - fixBits)

theorem sampleUnits_def (r : GfskRequest) (k : ℕ) :
    approximateSample (precision 0) r k (toneSumBefore (precision 0) r k) / 2 ^ (precision 0 - fixBits) =
      sampleUnits r k := rfl

theorem radius_zero : radius 0 = 2 ^ (precision 0 - fixBits) :=
  congrArg (2 ^ ·) (by decide : 1024 * (0 + 1) = precision 0 - fixBits)

/-- The real sample is less than 2 units from it. -/
theorem sampleUnits_near {r : GfskRequest} {k : ℕ} (h : Performed r k) :
    unitsReal (sampleUnits r k - 2) < realSample r k ∧ realSample r k < unitsReal (sampleUnits r k + 2) := by
  have herr := abs_lt.1 (approximateSample_error h 0)
  have hF := fixOne_real_pos (precision 0)
  have hlow := target_real 0 (sampleUnits r k - 2)
  have hhigh := target_real 0 (sampleUnits r k + 2)
  have hrad : ((radius 0 : ℕ) : ℝ) = ((2 ^ (precision 0 - fixBits) : ℤ) : ℝ) := by
    rw [radius_zero, Nat.cast_pow, Int.cast_pow]; rfl
  have hpos : (0 : ℤ) < 2 ^ (precision 0 - fixBits) := by positivity
  have hdiv := Int.ediv_mul_le (approximateSample (precision 0) r k (toneSumBefore (precision 0) r k)) hpos.ne'
  have hmod := Int.lt_ediv_add_one_mul_self (approximateSample (precision 0) r k (toneSumBefore (precision 0) r k)) hpos
  rw [sampleUnits_def] at hdiv hmod
  rw [hrad] at herr
  generalize approximateSample (precision 0) r k (toneSumBefore (precision 0) r k) = a at *
  generalize (2 : ℤ) ^ (precision 0 - fixBits) = D at *
  have hpos' : (0 : ℝ) < D := by exact_mod_cast hpos
  have hdiv' : (sampleUnits r k : ℝ) * D ≤ a := by exact_mod_cast hdiv
  have hmod' : (a : ℝ) < (sampleUnits r k + 1) * D := by exact_mod_cast hmod
  push_cast at hlow hhigh
  constructor <;> refine lt_of_mul_lt_mul_left ?_ hF.le
  · rw [← hlow]; linarith
  · rw [← hhigh]; linarith

theorem sampleUnits_bound {r : GfskRequest} {k : ℕ} (h : Performed r k) {x : ℤ} (hlow : sampleUnits r k - 2 ≤ x)
    (hhigh : x ≤ sampleUnits r k + 2) : x.natAbs ≤ 2 ^ 513 := by
  obtain ⟨hbelow, habove⟩ := sampleUnits_near h
  obtain ⟨hneg, hpos⟩ := abs_le.1 (abs_realSample_le_one r k)
  have hone : unitsReal (2 ^ fixBits : ℕ) = 1 := by
    unfold unitsReal; push_cast; exact div_self (by positivity)
  have hminus : unitsReal (-(2 ^ fixBits : ℕ)) = -1 := by
    rw [← hone]; unfold unitsReal; push_cast; ring
  have h1 : sampleUnits r k - 2 < (2 ^ fixBits : ℕ) := unitsReal_lt.1 (by linarith)
  have h2 : -((2 ^ fixBits : ℕ) : ℤ) < sampleUnits r k + 2 := unitsReal_lt.1 (by linarith)
  have hfour : 2 ^ 2 ≤ 2 ^ fixBits := Nat.pow_le_pow_right (by norm_num) (by decide)
  rw [show 513 = fixBits + 1 from rfl, pow_succ']
  generalize 2 ^ fixBits = B at *
  omega

/-- The midpoint of the two candidates lies between the numbers that they are rounded from. -/
theorem Neighbours.midpoint_bounds {m : ℤ} {l u : Word} (hn : Neighbours l u) (hl : RoundsTo (unitsReal (m - 2)) l)
    (hu : RoundsTo (unitsReal (m + 2)) u) :
    m - 2 ≤ (binary32Fix l + binary32Fix u) / 2 ∧ (binary32Fix l + binary32Fix u) / 2 ≤ m + 2 := by
  have hmid := two_mul_midpoint l u
  have h1 := hl.le_midpoint hn.upper_finite hn.lt
  have h2 := hu.midpoint_le hn.lower_finite hn.lt
  exact ⟨unitsReal_le.1 (by linarith), unitsReal_le.1 (by linarith)⟩

/-- R13 and R298 to R300: `roundSample` is `f32` of the real `y(k)`. -/
theorem roundSample_roundsTo {r : GfskRequest} {k : ℕ} (h : Performed r k) :
    RoundsTo (realSample r k)
      (roundSample r k (approximateSample (precision 0) r k (toneSumBefore (precision 0) r k))) := by
  obtain ⟨hbelow, habove⟩ := sampleUnits_near h
  have hl := roundBinary32_roundsTo (sampleUnits_bound h (x := sampleUnits r k - 2) (by omega) (by omega))
  have hu := roundBinary32_roundsTo (sampleUnits_bound h (x := sampleUnits r k + 2) (by omega) (by omega))
  unfold roundSample
  simp only [compareSample_eq h]
  rw [sampleUnits_def]
  generalize roundBinary32 (sampleUnits r k - 2) = l at *
  generalize roundBinary32 (sampleUnits r k + 2) = u at *
  have hmid := two_mul_midpoint l u
  split
  next he => exact hl.of_between hu hbelow habove (congrArg unitsReal he)
  next hne =>
    have hn := neighbours_of_close hl hu (mt unitsReal_inj.1 hne)
    obtain ⟨hlow, hhigh⟩ := hn.midpoint_bounds hl hu
    split
    next hcmp =>
      rw [cmp_eq_lt_iff] at hcmp
      exact hn.roundsTo_lower hl hbelow (by linarith) fun _ => by linarith
    next hcmp =>
      rw [cmp_eq_gt_iff] at hcmp
      exact hn.roundsTo_upper hu habove (by linarith) fun _ => by linarith
    next hcmp =>
      rw [cmp_eq_eq_iff] at hcmp
      rw [← hcmp] at hmid
      have hx := roundBinary32_roundsTo (sampleUnits_bound h hlow hhigh)
      rw [← hcmp] at hx
      split
      next hodd => exact hn.roundsTo_upper hu habove hmid.ge fun _ => hn.upper_even hmid hx hodd
      next heven => exact hn.roundsTo_lower hl hbelow hmid.le fun _ => Bool.eq_false_of_not_eq_true heven

/-! ## The free value -/

/-- The free sign changes a zero alone, and no value. -/
theorem withFreeZeroSign_cases (choice w : Word) :
    (magnitudeCode w ≠ 0 ∧ withFreeZeroSign choice w = w) ∨
    (magnitudeCode w = 0 ∧ magnitudeCode (withFreeZeroSign choice w) = 0 ∧
      (withFreeZeroSign choice w)[31] = choice[31]) := by
  have hcode : w.extractLsb' 0 31 = 0 ↔ magnitudeCode w = 0 := by
    rw [← BitVec.toNat_inj, BitVec.extractLsb'_toNat]; simp [magnitudeCode]
  unfold withFreeZeroSign
  by_cases h : magnitudeCode w = 0
  · rw [if_pos (hcode.2 h)]
    refine .inr ⟨h, ?_, ?_⟩
    · rw [magnitudeCode, BitVec.toNat_append]; simp [Nat.shiftLeft_eq]
    · rw [BitVec.getElem_append]; simp
  · exact .inl ⟨h, if_neg (mt hcode.1 h)⟩

/-- Being `f32(y)` depends on a pattern's code and value alone, not on the sign of a zero. -/
theorem RoundsTo.of_code_eq {y : ℝ} {v w : Word} (hv : RoundsTo y v) (hcode : magnitudeCode w = magnitudeCode v)
    (hvalue : binary32Value w = binary32Value v) : RoundsTo y w := by
  unfold RoundsTo
  rw [binary32Finite_iff, getElem_zero_eq, hcode, hvalue, ← binary32Finite_iff, ← getElem_zero_eq]
  exact hv

/-- The free sign of a zero is the choice's, and the sample stays `f32(y)`. -/
theorem RoundsTo.with_free_sign {y : ℝ} {w : Word} (choice : Word) (h : RoundsTo y w) :
    RoundsTo y (withFreeZeroSign choice w) ∧
    (binary32Value (withFreeZeroSign choice w) = 0 → (withFreeZeroSign choice w)[31] = choice[31]) := by
  rcases withFreeZeroSign_cases choice w with ⟨hne, hsame⟩ | ⟨hzero, hzero', hsign⟩
  · rw [hsame]
    exact ⟨h, fun h0 => absurd ((binary32Value_eq_zero_iff w).1 h0) hne⟩
  · have hvalue := ((binary32Value_eq_zero_iff _).2 hzero').trans ((binary32Value_eq_zero_iff w).2 hzero).symm
    exact ⟨h.of_code_eq (hzero'.trans hzero.symm) hvalue, fun _ => hsign⟩

/-! ## The waveform -/

/-- Settles O53: the test against `GFSK_TOL` is exact (`withinTolerance_iff`), and so is the rounding
(`roundSample_roundsTo`). -/
theorem samplesConformToReference : Obligations.SamplesConformToReference := by
  intro tol r k w hrate htotal hw y conforms sample
  obtain ⟨hk, -⟩ := List.getElem?_eq_some_iff.1 hw
  rw [length_waveform] at hk
  have h : Performed r k := ⟨hrate, htotal, hk⟩
  rw [getElem?_waveform tol r hk, Option.some_inj] at hw
  refine ⟨hw.symm, fun choice => ?_⟩
  have hconforms : conforms choice ↔ 0 < tol ∧ withinTolerance tol r k
      (approximateSample (precision 0) r k (toneSumBefore (precision 0) r k)) choice = true :=
    and_congr_right' (withinTolerance_iff h tol choice).symm
  rw [hconforms]
  refine ⟨fun hc => if_pos hc, fun hc => ?_⟩
  rw [show sample choice = withFreeZeroSign choice (roundSample r k _) from if_neg hc]
  exact (roundSample_roundsTo h).with_free_sign choice

end Sys2Proof.Machine
end

section
/-! PROOFS. The state as a whole (R21, R23, R40, R44, R45). What any command can do is said once: it makes a few
elementary updates (`Update`), and it stops at the assertion of `Append` only in a state without room (`exec_proceeds`).
Each statement about all steps is then a fact about the elementary updates. -/

namespace Sys2Proof.Machine

/-! ## What a command can do -/

/-- The elementary updates a command is made of, each with the check that the command makes first. The row is an index
because one update belongs to one row only: `SE_SET_SPEED` writes the WPM (R23). -/
inductive Update : Instr → State → State → Prop
  | answer {i : Instr} {s : State} (result : Nat) (payload : List Byte) : Update i s (answered result payload s)
  | fail {i : Instr} {s : State} (e : ErrorKind) : Update i s (failed e s)
  | respondOnly {i : Instr} {s : State} (result : Nat) (payload : List Byte) : Update i s (respond .ok result payload s)
  | append {i : Instr} {s : State} {bits : Bits} (fits : s.bb.length + bits.length ≤ s.params.blockBits) :
      Update i s { s with bb := s.bb ++ bits }
  | header {i : Instr} {s : State} {w : Nat} (configured : s.wpm = some w)
      (fits : s.bb.length + 11 ≤ s.params.blockBits) :
      Update i s { s with bb := s.bb ++ headerBits w s, headerSent := true }
  | flush {i : Instr} {s : State} (holdsBits : s.bb ≠ []) :
      Update i s { s with bb := [], headerSent := false, endPending := false }
  | setPolarity {i : Instr} {s : State} (b : Bool) : Update i s { s with polarity := b }
  | markEnd {i : Instr} {s : State} : Update i s { s with endPending := true }
  | setSpeed {s : State} {w : BitVec 6} (legal : 5 ≤ w.toNat ∧ w.toNat ≤ 60) :
      Update (.seSetSpeed w) s { s with wpm := some w.toNat, headerSent := false }
  | load {i : Instr} {s : State} {bits : Bits} (fits : bits.length ≤ s.params.blockBits) :
      Update i s { s with ex := bits }
  | take {i : Instr} {s : State} (n : Nat) : Update i s { s with ex := s.ex.drop n }
  | setSampleRate {i : Instr} {s : State} {v : Word} (legal : sampleRateLegal v = true) :
      Update i s { s with sampleRate := v }
  | setAudioOffset {i : Instr} {s : State} {v : Word} (legal : audioOffsetLegal v = true) :
      Update i s { s with audioOffset := v }
  | setOutCapacity {i : Instr} {s : State} {v : Word} (legal : outCapacityLegal v = true) :
      Update i s { s with outCapacity := v }

/-- Elementary updates of a row, one after another. -/
abbrev Updates (i : Instr) : State → State → Prop := Relation.ReflTransGen (Update i)

/-- Room for what a command appends at most: the builder is within its block, and an empty block holds a header of 11
bits and a frame of 15 (R195). -/
def State.HasRoom (s : State) : Prop := s.bb.length ≤ s.params.blockBits ∧ 26 ≤ s.params.blockBits

/-- An outcome that a state accounts for: the core goes on by elementary updates, or it stops where there was no
room. -/
def Proceeds (i : Instr) (s : State) : Result → Prop
  | .next t => Updates i s t
  | .fault _ => ¬s.HasRoom
  | .refused _ => False

variable {i : Instr} {s t : State}

/-! ## What an elementary update keeps -/

theorem Update.params_eq (h : Update i s t) : t.params = s.params := by cases h <;> rfl

theorem Update.errorSeen_of (h : Update i s t) (hs : s.errorSeen = true) : t.errorSeen = true := by
  cases h with
  | fail e => rfl
  | _ => exact hs

theorem Update.wpm_eq (h : Update i s t) :
    t.wpm = s.wpm ∨ ∃ w : BitVec 6, i = .seSetSpeed w ∧ t.wpm = some w.toNat := by
  cases h with
  | setSpeed legal => exact .inr ⟨_, rfl, rfl⟩
  | _ => exact .inl rfl

theorem Update.hasRoom (h : Update i s t) (hs : s.HasRoom) : t.HasRoom := by
  obtain ⟨hbb, hblock⟩ := hs
  cases h with
  | append fits => exact ⟨by simpa using fits, hblock⟩
  | header configured fits => exact ⟨by simpa using fits, hblock⟩
  | flush holdsBits => exact ⟨Nat.zero_le _, hblock⟩
  | _ => exact ⟨hbb, hblock⟩

/-- R45, update by update: a checked write meets the invariant of the field it writes, and the others stay. -/
theorem Update.inv (h : Update i s t) (hs : s.Inv) : t.Inv := by
  cases h with
  | append fits =>
    refine { hs with builderFits := by simpa using fits, headerHeld := fun hsent => ?_ }
    obtain ⟨hw, hlen⟩ := hs.headerHeld hsent
    exact ⟨hw, hlen.trans (by simp)⟩
  | header configured fits =>
    exact { hs with builderFits := by simpa using fits, headerHeld := fun _ => ⟨by simp [configured], by simp⟩ }
  | flush holdsBits => exact { hs with builderFits := Nat.zero_le _, headerHeld := by simp }
  | setSpeed legal => exact { hs with wpmLegal := fun w hw => by cases hw; exact legal, headerHeld := by simp }
  | load fits => exact { hs with extractorFits := fits }
  | take n => exact { hs with extractorFits := (List.drop_sublist n s.ex).length_le.trans hs.extractorFits }
  | setSampleRate legal => exact { hs with rateLegal := .inr legal }
  | setAudioOffset legal => exact { hs with offsetLegal := legal }
  | setOutCapacity legal => exact { hs with capacityLegal := legal }
  | _ => exact { hs with }

/-- What every elementary update keeps, a sequence of them keeps. -/
theorem Updates.keep {P : State → Prop} (hP : ∀ a b, Update i a b → P a → P b) (h : Updates i s t) (hs : P s) : P t := by
  induction h with
  | refl => exact hs
  | tail _ hlast ih => exact hP _ _ hlast ih

theorem Updates.hasRoom (h : Updates i s t) (hs : s.HasRoom) : t.HasRoom :=
  Updates.keep (P := State.HasRoom) (fun _ _ hu => hu.hasRoom) h hs

theorem Updates.wpm_eq (h : Updates i s t) :
    t.wpm = s.wpm ∨ ∃ w : BitVec 6, i = .seSetSpeed w ∧ t.wpm = some w.toNat := by
  induction h with
  | refl => exact .inl rfl
  | tail _ hlast ih =>
    rcases hlast.wpm_eq with heq | hset
    · rwa [heq]
    · exact .inr hset

/-! ## The shared operations proceed -/

/-- An outcome that a later state accounts for, the earlier one accounts for too. -/
theorem Proceeds.after {r : Result} (h : Updates i s t) (hr : Proceeds i t r) : Proceeds i s r := by
  cases r with
  | next u => exact h.trans hr
  | fault f => exact fun hroom => hr (h.hasRoom hroom)
  | refused f => exact hr

theorem done_proceeds (result : Nat) (payload : List Byte) : Proceeds i s (done result payload s) := by
  rw [done_eq]; exact .single (.answer result payload)

theorem raiseError_proceeds (e : ErrorKind) : Proceeds i s (raiseError e s) := by
  rw [raiseError_eq]; exact .single (.fail e)

/-- A command that makes one update and completes with status OK. -/
theorem Update.done_proceeds (h : Update i s t) (result : Nat) (payload : List Byte) :
    Proceeds i s (done result payload t) := .after (.single h) (Machine.done_proceeds result payload)

theorem appendThen_proceeds {bits : Bits} {next : State → Result}
    (hroom : s.HasRoom → s.bb.length + bits.length ≤ s.params.blockBits) (hnext : ∀ t, Proceeds i t (next t)) :
    Proceeds i s (appendThen bits s next) := by
  unfold appendThen
  split
  next fits => exact .after (.single (.append fits)) (hnext _)
  next full => exact fun hs => full (hroom hs)

theorem rawAppend_proceeds (bits : Bits) : Proceeds i s (rawAppend bits s) := by
  unfold rawAppend
  split
  · exact raiseError_proceeds _
  next fits => exact appendThen_proceeds (fun _ => by omega) fun t => done_proceeds t.remaining []

/-- An emission flushes, or does nothing to an empty builder (R191). -/
theorem emit_updates (s : State) : Updates i s (emit s).2 := by
  by_cases h : s.bb = []
  · rw [emit_empty s h]
  · rw [emit_nonempty s h]; exact .single (.flush h)

theorem appendHeaderThen_proceeds {w : Nat} {next : State → Result} (configured : s.wpm = some w)
    (hroom : s.HasRoom → s.bb.length + 11 ≤ s.params.blockBits)
    (hnext : ∀ t, t.wpm = some w → t.bb.length = s.bb.length + 11 → Proceeds i t (next t)) :
    Proceeds i s (appendHeaderThen w s next) := by
  by_cases fits : s.bb.length + 11 ≤ s.params.blockBits
  · rw [appendHeaderThen_fits s fits]
    exact .after (.single (.header configured fits)) (hnext _ configured (by simp))
  · rw [appendHeaderThen, appendThen, length_headerBits, if_neg fits]
    exact fun hs => fits (hroom hs)

/-- A header after an emission stands alone in its block (R194, R195). -/
theorem appendHeaderThen_emit_proceeds {w : Nat} {next : State → Result} (configured : s.wpm = some w)
    (hnext : ∀ t, t.wpm = some w → t.bb.length = 11 → Proceeds i t (next t)) :
    Proceeds i s (appendHeaderThen w (emit s).2 next) := by
  obtain ⟨-, hwpm, -⟩ := emit_frame s
  have hempty : (emit s).2.bb.length = 0 := by rw [emit_bb, List.length_nil]
  refine .after (emit_updates s) (appendHeaderThen_proceeds (hwpm.trans configured) ?_ fun t hw hlen => ?_)
  · rintro ⟨-, hblock⟩; omega
  · exact hnext t hw (by omega)

/-! ## The keying commands proceed -/

theorem dahWidth_le (policy : DahWidthPolicy) (w : Nat) (d : Int) : dahWidth policy w d ≤ 9 := by
  unfold dahWidth dahNegWidth dahPosWidth
  cases policy with
  | signSelected => dsimp only; split <;> omega
  | max => dsimp only; omega

/-- A keying frame has at most 15 bits, the length of `KeyingNaive` (R101, R195). -/
theorem classify_length_le {policy : DahWidthPolicy} {w d : Nat} {bits : Bits} (h : classify policy w d = .ok bits) :
    bits.length ≤ 15 := by
  unfold classify at h
  split_ifs at h with hdit hdah hgap hdeltaDit hdeltaDah hdeltaGap hnaive
  · cases h; simp [frame]
  · cases h; simp [frame]
  · cases h; simp [frame]
  · rw [deltaFrame_length h, ditWidth]; omega
  · rw [deltaFrame_length h]; have := dahWidth_le policy w ((d : Int) - dah w); omega
  · rw [deltaFrame_length h, wordgapWidth]; omega
  · cases h; simp [naiveFrame, frame]

theorem ensureHeader_proceeds {w : Nat} {next : List BlockRecord → State → Result} (configured : s.wpm = some w)
    (hnext : ∀ out t, t.wpm = some w → Proceeds i t (next out t)) : Proceeds i s (ensureHeader w s next) := by
  rw [ensureHeader_eq]
  split_ifs with hsent hfull
  · exact hnext [] s configured
  · exact appendHeaderThen_emit_proceeds configured fun t hw _ => hnext _ t hw
  · refine appendHeaderThen_proceeds configured ?_ fun t hw _ => hnext _ t hw
    rintro ⟨hbb, -⟩; unfold State.remaining at hfull; omega

/-- After the second half of `SE_TIMED` the frame fits: it did before, or it follows a header in an empty block
(R195). -/
theorem ensureRoom_proceeds {w : Nat} {bits : Bits} {out : List BlockRecord} {next : List BlockRecord → State → Result}
    (configured : s.wpm = some w) (hbits : bits.length ≤ 15)
    (hnext : ∀ out t, (t.HasRoom → t.bb.length + bits.length ≤ t.params.blockBits) → Proceeds i t (next out t)) :
    Proceeds i s (ensureRoom w bits out s next) := by
  unfold ensureRoom
  split_ifs with hfull
  · refine appendHeaderThen_emit_proceeds configured fun t _ hlen => hnext _ t ?_
    rintro ⟨-, hblock⟩; omega
  · refine hnext _ s ?_
    rintro ⟨hbb, -⟩; unfold State.remaining at hfull; omega

theorem execSeTimed_proceeds (up : Bool) (dur : BitVec 16) : Proceeds i s (execSeTimed up dur s) := by
  unfold execSeTimed
  split
  next => exact raiseError_proceeds _
  next w configured =>
    split
    next => exact raiseError_proceeds _
    next bits hbits =>
      refine ensureHeader_proceeds configured fun out₁ s₁ hw => ?_
      refine ensureRoom_proceeds hw (classify_length_le hbits) fun out₂ s₂ hroom => ?_
      exact appendThen_proceeds hroom fun s₃ => (Update.setPolarity _).done_proceeds _ _

theorem execSeEnd_proceeds : Proceeds i s (execSeEnd s) := by
  have hnext (out : List BlockRecord) (t : State) : Proceeds i t (doneEmitting out { t with endPending := true }) :=
    Update.markEnd.done_proceeds _ _
  have hlen : (frame 9 []).length = 4 := rfl
  unfold execSeEnd
  split_ifs with hfull
  · refine .after (emit_updates s) (appendThen_proceeds ?_ (hnext _))
    rintro ⟨-, hblock⟩; rw [emit_bb, List.length_nil, hlen]; omega
  · refine appendThen_proceeds ?_ (hnext _)
    rintro ⟨hbb, -⟩; rw [hlen]; unfold State.remaining at hfull; omega

theorem execSeEmit_proceeds : Proceeds i s (execSeEmit s) := .after (emit_updates s) (done_proceeds _ _)

theorem execSeSetSpeed_proceeds (w : BitVec 6) : Proceeds (.seSetSpeed w) s (execSeSetSpeed w s) := by
  unfold execSeSetSpeed
  split
  · exact raiseError_proceeds _
  next hlegal => exact (Update.setSpeed (by omega)).done_proceeds _ _

theorem execKeEncode_proceeds (up : Bool) (dur : BitVec 16) : Proceeds i s (execKeEncode up dur s) := by
  unfold execKeEncode
  split
  next => exact raiseError_proceeds _
  next =>
    split
    next => exact raiseError_proceeds _
    next bits hbits =>
      split
      · exact done_proceeds _ _
      next hfits =>
        refine appendThen_proceeds ?_ fun t => done_proceeds _ _
        rintro ⟨hbb, -⟩; unfold State.remaining at hfits; omega

/-! ## The other commands proceed -/

theorem execDeltaEnc_proceeds (bits : BitVec 4) (val : BitVec 16) : Proceeds i s (execDeltaEnc bits val s) := by
  unfold execDeltaEnc
  split
  · exact raiseError_proceeds _
  · exact done_proceeds _ _

theorem execDeltaDec_proceeds (bits : BitVec 4) (val : BitVec 16) : Proceeds i s (execDeltaDec bits val s) := by
  unfold execDeltaDec
  split
  · exact raiseError_proceeds _
  · exact done_proceeds _ _

theorem execBbAdd_proceeds (count : BitVec 5) (value : BitVec 16) : Proceeds i s (execBbAdd count value s) := by
  unfold execBbAdd
  split
  · exact raiseError_proceeds _
  · exact rawAppend_proceeds _

/-- The payload that `EX_LOAD` accepts has no more bits than a block (R154). -/
theorem execExLoad_proceeds (payload : List Byte) : Proceeds i s (execExLoad payload s) := by
  unfold execExLoad
  split
  · exact raiseError_proceeds _
  next hfits =>
    refine Update.done_proceeds (.load ?_) _ _
    rw [length_bitsOf]; unfold Params.blockBytes at hfits; omega

theorem execExTake_proceeds (count : BitVec 5) : Proceeds i s (execExTake count s) := by
  unfold execExTake
  split_ifs
  · exact raiseError_proceeds _
  · exact raiseError_proceeds _
  · exact (Update.take _).done_proceeds _ _

theorem execGrayTo_proceeds (nib : BitVec 8) : Proceeds i s (execGrayTo nib s) := by
  unfold execGrayTo
  split
  · exact raiseError_proceeds _
  · exact done_proceeds _ _

theorem execGrayFrom_proceeds (nib : BitVec 8) : Proceeds i s (execGrayFrom nib s) := by
  unfold execGrayFrom
  split
  · exact raiseError_proceeds _
  · exact done_proceeds _ _

theorem modulate_proceeds (rd ru : Bool) (tones : List Byte) : Proceeds i s (modulate rd ru tones s) := by
  unfold modulate
  dsimp only
  split_ifs
  · exact done_proceeds _ _
  · exact raiseError_proceeds _
  · exact raiseError_proceeds _
  · exact raiseError_proceeds _
  · exact done_proceeds _ _

theorem execCsrRead_proceeds (csr : BitVec 8) : Proceeds i s (execCsrRead csr s) := by
  unfold execCsrRead
  split
  · exact raiseError_proceeds _
  · exact .single (.respondOnly _ _)

theorem execCsrWrite_proceeds (csr : BitVec 8) (value : Word) : Proceeds i s (execCsrWrite csr value s) := by
  unfold execCsrWrite
  split
  · split
    next legal => exact (Update.setSampleRate legal).done_proceeds _ _
    next => exact raiseError_proceeds _
  · split
    next legal => exact (Update.setAudioOffset legal).done_proceeds _ _
    next => exact raiseError_proceeds _
  · split
    next legal => exact (Update.setOutCapacity legal).done_proceeds _ _
    next => exact raiseError_proceeds _
  · exact raiseError_proceeds _

/-! ## The frame and symbol rows proceed (log 3, log 4) -/

theorem placeFrame_proceeds (bits : Except ErrorKind Bits) : Proceeds i s (placeFrame bits s) := by
  cases bits with
  | error e => exact raiseError_proceeds e
  | ok bits => exact rawAppend_proceeds bits

theorem placeTimedFrame_proceeds (bits : Nat → Except ErrorKind Bits) : Proceeds i s (placeTimedFrame bits s) := by
  unfold placeTimedFrame
  split
  · exact raiseError_proceeds _
  · exact placeFrame_proceeds _

theorem playSymbol_proceeds (x : Symbol) : Proceeds i s (playSymbol x s) := by
  unfold playSymbol
  split <;> exact modulate_proceeds _ _ _

/-! ## Every instruction proceeds -/

/-- Everything an instruction can do: it goes on by elementary updates, or it stops in a state without room (R153). -/
theorem exec_proceeds (i : Instr) (s : State) : Proceeds i s (exec i s) := by
  cases i with
  | seStart => exact (Update.setPolarity true).done_proceeds _ _
  | seTimed up dur => exact execSeTimed_proceeds up dur
  | seEnd => exact execSeEnd_proceeds
  | seSetSpeed w => exact execSeSetSpeed_proceeds w
  | seEmit => exact execSeEmit_proceeds
  | keEncode up dur => exact execKeEncode_proceeds up dur
  | deltaEnc bits val => exact execDeltaEnc_proceeds bits val
  | deltaDec bits val => exact execDeltaDec_proceeds bits val
  | bbAdd count value => exact execBbAdd_proceeds count value
  | exLoad payload => exact execExLoad_proceeds payload
  | exTake count => exact execExTake_proceeds count
  | crc14 _ | crc14Check _ | ldpcPack _ _ _ | ldpcEncode _ | chanEncode _ _ => exact done_proceeds _ _
  | grayTo nib => exact execGrayTo_proceeds nib
  | grayFrom nib => exact execGrayFrom_proceeds nib
  | gfskMod rd ru tones => exact modulate_proceeds rd ru tones
  | csrRead csr => exact execCsrRead_proceeds csr
  | csrWrite csr value => exact execCsrWrite_proceeds csr value
  | padding | wpmPolarity _ _ | callsignMetadata | callsignHashMetadata | locatorMetadata | powerMetadata
  | keyingPerfectDit | keyingPerfectDah | keyingPerfectWordgap | keyingEnd | keyingNaive _ | unused | extension =>
    unfold exec; exact placeFrame_proceeds _
  | keyingDeltaDit _ | keyingDeltaDah _ | keyingDeltaWordgap _ => exact placeTimedFrame_proceeds _
  | tone0 | tone1 | tone2 | tone3 | tone4 | tone5 | tone6 | tone7 | tone8 | tone9 | tone10 | tone11 | tone12 | tone13
  | tone14 | tone15 | rampUp | rampDown =>
    unfold exec; exact playSymbol_proceeds _

theorem exec_updates (h : exec i s = .next t) : Updates i s t := by
  have hproceeds := exec_proceeds i s
  rwa [h] at hproceeds

theorem exec_safe (hs : s.HasRoom) : Safe (exec i s) := by
  have hproceeds := exec_proceeds i s
  cases hexec : exec i s with
  | next t => exact ⟨t, rfl⟩
  | fault f => rw [hexec] at hproceeds; exact absurd hs hproceeds
  | refused r => rw [hexec] at hproceeds; exact hproceeds.elim

/-- What the elementary updates and the consumption of a command's bytes keep, every step keeps (R69, R87, R342). -/
theorem step_keeps {P : State → Prop} (hconsume : ∀ rest s, P s → P (consume rest s))
    (hupdate : ∀ i a b, Update i a b → P a → P b) (h : step s = .next t) (hs : P s) : P t := by
  rw [step_eq] at h
  cases hdecode : decodeCommand s.params s.input with
  | incomplete => rw [hdecode] at h; cases h; exact hs
  | illegal why rest =>
    rw [hdecode] at h; cases h
    exact hupdate .seStart _ _ (.fail .illegalCommand) (hconsume rest s hs)
  | command i rest =>
    rw [hdecode] at h
    exact (exec_updates h).keep (hupdate i) (hconsume rest s hs)

/-! ## The invariants -/

theorem State.Inv.hasRoom (h : s.Inv) : s.HasRoom := by
  have hlegal := h.paramsLegal
  simp only [Params.legal, Params.sizesLegal, Params.blockBitsLegal, Bool.and_eq_true, decide_eq_true_eq] at hlegal
  exact ⟨h.builderFits, by omega⟩

/-- The invariants speak of no stream, so whatever moves bytes on the ports alone keeps them. -/
theorem State.Inv.of_ports (h : s.Inv) (input output : List Byte) :
    { s with input := input, output := output }.Inv := { h with }

/-- Settles O9: each elementary update keeps the invariants. -/
theorem stepKeepsInvariants : Obligations.StepKeepsInvariants := fun _ _ hs h =>
  step_keeps (P := State.Inv) (fun rest s hs => hs.of_ports rest s.output) (fun _ _ _ hu => hu.inv) h hs

/-- Settles O11: a state with the invariants has room, and only a lack of room stops a command. -/
theorem stepIsSafe : Obligations.StepIsSafe := by
  intro s hs
  rw [step_eq]
  split
  · exact ⟨_, rfl⟩
  · exact ⟨_, rfl⟩
  next i rest _ => exact exec_safe (hs.of_ports rest s.output).hasRoom

/-- Settles O13: no elementary update writes the parameters. -/
theorem stepKeepsParameters : Obligations.StepKeepsParameters := fun s _ h =>
  step_keeps (P := fun u => u.params = s.params) (fun _ _ hs => hs) (fun _ _ _ hu hs => hu.params_eq.trans hs) h rfl

theorem Reachable.inv_and_params {p : Params} (hp : p.legal = true) (h : Reachable p s) : s.Inv ∧ s.params = p := by
  induction h with
  | reset => exact ⟨resetWith_inv hp, rfl⟩
  | step _ hstep ih => exact ⟨stepKeepsInvariants _ _ ih.1 hstep, (stepKeepsParameters _ _ hstep).trans ih.2⟩
  | send bytes _ ih => exact ⟨ih.1.of_ports _ _, ih.2⟩
  | take n _ ih => exact ⟨ih.1.of_ports _ _, ih.2⟩
  | applyReset _ ih => exact ⟨resetWith_inv ih.1.paramsLegal, ih.2⟩

/-- Settles O12, by induction on how the state is reached. -/
theorem reachableStatesAreSafe : Obligations.ReachableStatesAreSafe := by
  intro p s hp h
  obtain ⟨hinv, hparams⟩ := h.inv_and_params hp
  exact ⟨hinv, hparams, stepIsSafe s hinv⟩

/-! ## The error bit, the WPM and reset -/

/-- Settles O17: no elementary update clears `ERROR_SEEN`, and reset does. -/
theorem errorSeenIsSticky : Obligations.ErrorSeenIsSticky := fun _ _ h =>
  ⟨step_keeps (P := fun u => u.errorSeen = true) (fun _ _ hs => hs) (fun _ _ _ hu => hu.errorSeen_of) h, rfl⟩

/-- Settles O18: the update that writes the WPM is one of `SE_SET_SPEED` alone. -/
theorem onlySetSpeedWritesWpm : Obligations.OnlySetSpeedWritesWpm := fun _ _ _ h hne =>
  (exec_updates h).wpm_eq.resolve_left hne

/-- Settles O58: reset is `State.resetWith` of the parameters, which names every field. -/
theorem resetSetsEveryField : Obligations.ResetSetsEveryField := by
  intro s t
  simp [t]

end Sys2Proof.Machine
end

section
/-! PROOFS. One response per instruction (R67, R68, R84, R333). Every row but `CSR_READ` completes in one of two ways
(`Completion`): it raises an error in the state it began in, or it answers OK in a state that its effects have reached.
For a pure row that state is the one it began in; for every row it is one that has neither answered nor recorded a
status yet. -/

namespace Sys2Proof.Machine

/-- Settles O7: the case of `step_eq` for a whole legal command. -/
theorem stepRunsDecodedCommand : Obligations.StepRunsDecodedCommand := by
  intro s i rest hdecode
  calc step s = exec i (consume rest s) := by rw [step_eq, hdecode]
    _ = exec i { s with input := rest } := rfl

/-! ## How a command completes -/

/-- `u` has the streams and the `STATUS` of `s`: the effects that lie between them have sent no response. -/
structure State.Unanswered (s u : State) : Prop where
  input_eq : u.input = s.input
  output_eq : u.output = s.output
  lastStatus_eq : u.lastStatus = s.lastStatus
  errorSeen_eq : u.errorSeen = s.errorSeen

/-- The two ways to complete of a command that began in `s`: an error leaves nothing of its effects (R334), and `OK` is
answered in a state that `reached` describes. -/
inductive Completion (s : State) (reached : State → Prop) : State → Prop
  | raise (e : ErrorKind) : Completion s reached (failed e s)
  | ok {u : State} (result : Nat) (payload : List Byte) (hu : reached u) :
      Completion s reached (answered result payload u)

/-- If the core goes on, the command has completed. (That it goes on is `exec_safe`.) -/
def Completes (s : State) (reached : State → Prop) : Result → Prop
  | .next t => Completion s reached t
  | .fault _ => True
  | .refused _ => True

variable {i : Instr} {s t u v : State} {reached : State → Prop}

theorem State.Unanswered.refl (s : State) : s.Unanswered s := ⟨rfl, rfl, rfl, rfl⟩

theorem State.Unanswered.trans (h : s.Unanswered u) (h' : u.Unanswered v) : s.Unanswered v where
  input_eq := h'.input_eq.trans h.input_eq
  output_eq := h'.output_eq.trans h.output_eq
  lastStatus_eq := h'.lastStatus_eq.trans h.lastStatus_eq
  errorSeen_eq := h'.errorSeen_eq.trans h.errorSeen_eq

theorem State.Unanswered.setPolarity (h : s.Unanswered u) (b : Bool) : s.Unanswered { u with polarity := b } :=
  { h with }

theorem State.Unanswered.markEnd (h : s.Unanswered u) : s.Unanswered { u with endPending := true } := { h with }

/-! ## The shared operations complete -/

theorem raiseError_completes (e : ErrorKind) : Completes s reached (raiseError e s) := by
  rw [raiseError_eq]; exact .raise e

theorem done_completes (hu : reached u) (result : Nat) (payload : List Byte) :
    Completes s reached (done result payload u) := by
  rw [done_eq]; exact .ok result payload hu

theorem doneEmitting_completes (hu : reached u) (out : List BlockRecord) :
    Completes s reached (doneEmitting out u) := done_completes hu _ _

theorem appendThen_completes {bits : Bits} {next : State → Result} (hu : s.Unanswered u)
    (hnext : ∀ v, s.Unanswered v → Completes s reached (next v)) : Completes s reached (appendThen bits u next) := by
  unfold appendThen
  split
  · exact hnext _ { hu with }
  · trivial

theorem appendHeaderThen_completes {w : Nat} {next : State → Result} (hu : s.Unanswered u)
    (hnext : ∀ v, s.Unanswered v → Completes s reached (next v)) :
    Completes s reached (appendHeaderThen w u next) :=
  appendThen_completes hu fun _ hv => hnext _ { hv with }

theorem rawAppend_completes (bits : Bits) : Completes s s.Unanswered (rawAppend bits s) := by
  unfold rawAppend
  split
  · exact raiseError_completes _
  · exact appendThen_completes (.refl s) fun v hv => done_completes hv _ _

theorem emit_unanswered (s : State) : s.Unanswered (emit s).2 := by
  by_cases h : s.bb = []
  · rw [emit_empty s h]; exact .refl s
  · rw [emit_nonempty s h]; exact ⟨rfl, rfl, rfl, rfl⟩

/-! ## The pure commands complete in the state they began in -/

theorem execDeltaEnc_completes (hs : reached s) (bits : BitVec 4) (val : BitVec 16) :
    Completes s reached (execDeltaEnc bits val s) := by
  unfold execDeltaEnc
  split
  · exact raiseError_completes _
  · exact done_completes hs _ _

theorem execDeltaDec_completes (hs : reached s) (bits : BitVec 4) (val : BitVec 16) :
    Completes s reached (execDeltaDec bits val s) := by
  unfold execDeltaDec
  split
  · exact raiseError_completes _
  · exact done_completes hs _ _

theorem execGrayTo_completes (hs : reached s) (nib : BitVec 8) : Completes s reached (execGrayTo nib s) := by
  unfold execGrayTo
  split
  · exact raiseError_completes _
  · exact done_completes hs _ _

theorem execGrayFrom_completes (hs : reached s) (nib : BitVec 8) : Completes s reached (execGrayFrom nib s) := by
  unfold execGrayFrom
  split
  · exact raiseError_completes _
  · exact done_completes hs _ _

theorem modulate_completes (hs : reached s) (rd ru : Bool) (tones : List Byte) :
    Completes s reached (modulate rd ru tones s) := by
  unfold modulate
  dsimp only
  split_ifs
  · exact done_completes hs _ _
  · exact raiseError_completes _
  · exact raiseError_completes _
  · exact raiseError_completes _
  · exact done_completes hs _ _

theorem playSymbol_completes (hs : reached s) (x : Symbol) : Completes s reached (playSymbol x s) := by
  unfold playSymbol
  split <;> exact modulate_completes hs _ _ _

/-! ## The keying and the frame rows complete -/

theorem ensureHeader_completes {w : Nat} {next : List BlockRecord → State → Result}
    (hnext : ∀ out v, s.Unanswered v → Completes s reached (next out v)) :
    Completes s reached (ensureHeader w s next) := by
  rw [ensureHeader_eq]
  split_ifs
  · exact hnext [] s (.refl s)
  · exact appendHeaderThen_completes (emit_unanswered s) (hnext _)
  · exact appendHeaderThen_completes (.refl s) (hnext [])

theorem ensureRoom_completes {w : Nat} {bits : Bits} {out : List BlockRecord} {next : List BlockRecord → State → Result}
    (hu : s.Unanswered u) (hnext : ∀ out v, s.Unanswered v → Completes s reached (next out v)) :
    Completes s reached (ensureRoom w bits out u next) := by
  unfold ensureRoom
  split
  · exact appendHeaderThen_completes (hu.trans (emit_unanswered u)) (hnext _)
  · exact hnext out u hu

theorem execSeTimed_completes (up : Bool) (dur : BitVec 16) : Completes s s.Unanswered (execSeTimed up dur s) := by
  unfold execSeTimed
  split
  next => exact raiseError_completes _
  next w configured =>
    split
    next => exact raiseError_completes _
    next bits hbits =>
      refine ensureHeader_completes fun out₁ s₁ h₁ => ensureRoom_completes h₁ fun out₂ s₂ h₂ => ?_
      exact appendThen_completes h₂ fun s₃ h₃ => doneEmitting_completes (h₃.setPolarity _) out₂

theorem execSeEnd_completes : Completes s s.Unanswered (execSeEnd s) := by
  have hflush : s.Unanswered (if s.remaining < 4 then emit s else ([], s)).2 := by
    split
    · exact emit_unanswered s
    · exact .refl s
  exact appendThen_completes hflush fun t ht => doneEmitting_completes ht.markEnd _

theorem execSeSetSpeed_completes (w : BitVec 6) : Completes s s.Unanswered (execSeSetSpeed w s) := by
  unfold execSeSetSpeed
  split
  · exact raiseError_completes _
  · exact done_completes ⟨rfl, rfl, rfl, rfl⟩ _ _

theorem execKeEncode_completes (up : Bool) (dur : BitVec 16) : Completes s s.Unanswered (execKeEncode up dur s) := by
  unfold execKeEncode
  split
  next => exact raiseError_completes _
  next w configured =>
    split
    next => exact raiseError_completes _
    next bits hbits =>
      split
      · exact done_completes (.refl s) _ _
      · exact appendThen_completes (.refl s) fun t ht => done_completes ht _ _

theorem placeFrame_completes (bits : Except ErrorKind Bits) : Completes s s.Unanswered (placeFrame bits s) := by
  cases bits with
  | error e => exact raiseError_completes e
  | ok bits => exact rawAppend_completes bits

theorem placeTimedFrame_completes (bits : Nat → Except ErrorKind Bits) :
    Completes s s.Unanswered (placeTimedFrame bits s) := by
  unfold placeTimedFrame
  split
  · exact raiseError_completes _
  · exact placeFrame_completes _

/-! ## The builder, the extractor and the CSRs complete -/

theorem execBbAdd_completes (count : BitVec 5) (value : BitVec 16) :
    Completes s s.Unanswered (execBbAdd count value s) := by
  unfold execBbAdd
  split
  · exact raiseError_completes _
  · exact rawAppend_completes _

theorem execExLoad_completes (payload : List Byte) : Completes s s.Unanswered (execExLoad payload s) := by
  unfold execExLoad
  split
  · exact raiseError_completes _
  · exact done_completes ⟨rfl, rfl, rfl, rfl⟩ _ _

theorem execExTake_completes (count : BitVec 5) : Completes s s.Unanswered (execExTake count s) := by
  unfold execExTake
  split_ifs
  · exact raiseError_completes _
  · exact raiseError_completes _
  · exact done_completes ⟨rfl, rfl, rfl, rfl⟩ _ _

/-- A setting that is written if it is legal (R322). -/
theorem checkedWrite_completes (legal : Bool) (hu : s.Unanswered u) :
    Completes s s.Unanswered (if legal then done 0 [] u else raiseError .configurationError s) := by
  split
  · exact done_completes hu _ _
  · exact raiseError_completes _

theorem execCsrWrite_completes (csr : BitVec 8) (value : Word) :
    Completes s s.Unanswered (execCsrWrite csr value s) := by
  unfold execCsrWrite
  split
  · exact checkedWrite_completes _ ⟨rfl, rfl, rfl, rfl⟩
  · exact checkedWrite_completes _ ⟨rfl, rfl, rfl, rfl⟩
  · exact checkedWrite_completes _ ⟨rfl, rfl, rfl, rfl⟩
  · exact raiseError_completes _

/-- The two things `CSR_READ` can do: one of status OK records no status (R40, R321, R333). -/
theorem execCsrRead_next {csr : BitVec 8} (h : execCsrRead csr s = .next t) :
    t = failed .illegalCommand s ∨ ∃ payload, t = respond .ok 0 payload s := by
  unfold execCsrRead at h
  split at h
  · rw [raiseError_eq] at h; cases h; exact .inl rfl
  · cases h; exact .inr ⟨_, rfl⟩

/-! ## Every instruction completes -/

/-- How any row but `CSR_READ` ends (R84, R333, R334). -/
theorem exec_completes (hi : ¬∃ c, i = .csrRead c) : Completes s s.Unanswered (exec i s) := by
  cases i with
  | csrRead c => exact absurd ⟨c, rfl⟩ hi
  | seStart => exact done_completes ⟨rfl, rfl, rfl, rfl⟩ _ _
  | seTimed up dur => exact execSeTimed_completes up dur
  | seEnd => exact execSeEnd_completes
  | seSetSpeed w => exact execSeSetSpeed_completes w
  | seEmit => exact doneEmitting_completes (emit_unanswered s) _
  | keEncode up dur => exact execKeEncode_completes up dur
  | deltaEnc bits val => exact execDeltaEnc_completes (.refl s) bits val
  | deltaDec bits val => exact execDeltaDec_completes (.refl s) bits val
  | bbAdd count value => exact execBbAdd_completes count value
  | exLoad payload => exact execExLoad_completes payload
  | exTake count => exact execExTake_completes count
  | crc14 _ | crc14Check _ | ldpcPack _ _ _ | ldpcEncode _ | chanEncode _ _ => exact done_completes (.refl s) _ _
  | grayTo nib => exact execGrayTo_completes (.refl s) nib
  | grayFrom nib => exact execGrayFrom_completes (.refl s) nib
  | gfskMod rd ru tones => exact modulate_completes (.refl s) rd ru tones
  | csrWrite csr value => exact execCsrWrite_completes csr value
  | padding | wpmPolarity _ _ | callsignMetadata | callsignHashMetadata | locatorMetadata | powerMetadata
  | keyingPerfectDit | keyingPerfectDah | keyingPerfectWordgap | keyingEnd | keyingNaive _ | unused | extension =>
    unfold exec; exact placeFrame_completes _
  | keyingDeltaDit _ | keyingDeltaDah _ | keyingDeltaWordgap _ => exact placeTimedFrame_completes _
  | tone0 | tone1 | tone2 | tone3 | tone4 | tone5 | tone6 | tone7 | tone8 | tone9 | tone10 | tone11 | tone12 | tone13
  | tone14 | tone15 | rampUp | rampDown =>
    unfold exec; exact playSymbol_completes (.refl s) _

theorem exec_completion (hi : ¬∃ c, i = .csrRead c) (h : exec i s = .next t) : Completion s s.Unanswered t := by
  have hcompletes := exec_completes (s := s) hi
  rwa [h] at hcompletes

/-- Settles O14: an error answers in the state the command began in, `OK` in an unanswered one, and only `CSR_READ`
answers `OK` without recording it. -/
theorem everyCommandAnswersOnce : Obligations.EveryCommandAnswersOnce := by
  intro i s t hexec
  by_cases hread : ∃ c, i = .csrRead c
  · obtain ⟨c, rfl⟩ := hread
    rcases execCsrRead_next hexec with rfl | ⟨payload, rfl⟩
    · exact ⟨rfl, .error .illegalCommand, 0, [], by simp⟩
    · exact ⟨rfl, .ok, 0, payload, by simp [responseWord]⟩
  · cases exec_completion hread hexec with
    | raise e => exact ⟨rfl, .error e, 0, [], by simp⟩
    | ok result payload hu =>
      refine ⟨hu.input_eq, .ok, result, payload, ?_⟩
      simp [hread, hu.output_eq, hu.errorSeen_eq, statusCode]

/-! ## The pure rows -/

/-- A symbol row is played, whichever symbol it is (R104, log 4). -/
theorem exec_of_symbolOf {x : Symbol} (h : symbolOf i = some x) : exec i s = playSymbol x s := by
  cases i with
  | tone0 | tone1 | tone2 | tone3 | tone4 | tone5 | tone6 | tone7 | tone8 | tone9 | tone10 | tone11 | tone12 | tone13
  | tone14 | tone15 | rampUp | rampDown => cases h; rfl
  | _ => cases h

/-- A command that completes in the state it began in changes nothing but `STATUS` and the response stream (R68). -/
theorem keeps_state_of_completes {r : Result} (hr : r = .next t) (h : Completes s (s = ·) r) :
    { t with lastStatus := s.lastStatus, errorSeen := s.errorSeen, output := s.output } = s := by
  subst hr
  cases h with
  | raise e => rfl
  | ok result payload hu => subst hu; rfl

/-- Settles O16: each of these rows completes in the state it began in, and `CSR_READ` sends a response at most. -/
theorem pureCommandsKeepState : Obligations.PureCommandsKeepState := by
  intro i s t hpure hexec
  rcases hpure with ⟨bits, val, rfl⟩ | ⟨bits, val, rfl⟩ | ⟨data, rfl⟩ | ⟨data, rfl⟩ | ⟨spare, crc, block, rfl⟩ |
    ⟨message, rfl⟩ | ⟨nib, rfl⟩ | ⟨nib, rfl⟩ | ⟨isEnd, block, rfl⟩ | ⟨rd, ru, tones, rfl⟩ | ⟨csr, rfl⟩ | hsymbol
  · exact keeps_state_of_completes hexec (execDeltaEnc_completes rfl bits val)
  · exact keeps_state_of_completes hexec (execDeltaDec_completes rfl bits val)
  · exact keeps_state_of_completes hexec (done_completes rfl _ _)
  · exact keeps_state_of_completes hexec (done_completes rfl _ _)
  · exact keeps_state_of_completes hexec (done_completes rfl _ _)
  · exact keeps_state_of_completes hexec (done_completes rfl _ _)
  · exact keeps_state_of_completes hexec (execGrayTo_completes rfl nib)
  · exact keeps_state_of_completes hexec (execGrayFrom_completes rfl nib)
  · exact keeps_state_of_completes hexec (done_completes rfl _ _)
  · exact keeps_state_of_completes hexec (modulate_completes rfl rd ru tones)
  · rcases execCsrRead_next hexec with rfl | ⟨payload, rfl⟩
    · rfl
    · rfl
  · obtain ⟨x, hx⟩ := Option.ne_none_iff_exists'.1 hsymbol
    rw [exec_of_symbolOf hx] at hexec
    exact keeps_state_of_completes hexec (playSymbol_completes rfl x)

end Sys2Proof.Machine
end

section
/-! PROOFS. Words and their fields (R63, R82, R83). A word is the number it spells, so that a concatenation of fields is
a sum and a field is a quotient; each format of R83 is then one equivalence: a header is the concatenation of its fields
iff it has its opcode, no reserved bit set, and these fields. -/

namespace Sys2Proof

open Machine

variable {h : Word} {opc : Byte} {f : Format}

/-! ## Fields as numbers -/

theorem toNat_append {m n : Nat} (x : BitVec m) (y : BitVec n) : (x ++ y).toNat = x.toNat * 2 ^ n + y.toNat := by
  rw [BitVec.toNat_append, ← Nat.shiftLeft_add_eq_or_of_lt y.isLt, Nat.shiftLeft_eq]

theorem toNat_field {w : Nat} (x : BitVec w) (start len : Nat) :
    (x.extractLsb' start len).toNat = x.toNat / 2 ^ start % 2 ^ len := by
  rw [BitVec.extractLsb'_toNat, Nat.shiftRight_eq_div_pow]

theorem be32_ofBe32 (b3 b2 b1 b0 : Byte) : be32 (ofBe32 b3 b2 b1 b0) = [b3, b2, b1, b0] := by
  simp only [be32, List.cons.injEq, and_true, ← BitVec.toNat_inj, toNat_field, ofBe32, toNat_append]
  omega

theorem ofBe32_be32 (w : Word) :
    ofBe32 (w.extractLsb' 24 8) (w.extractLsb' 16 8) (w.extractLsb' 8 8) (w.extractLsb' 0 8) = w := by
  simp only [← BitVec.toNat_inj, toNat_field, ofBe32, toNat_append]
  omega

theorem wordOf_be32 (w : Word) : wordOf (be32 w) = w := ofBe32_be32 w

theorem be32_wordOf {bytes : List Byte} (hlen : bytes.length = 4) : be32 (wordOf bytes) = bytes := by
  match bytes, hlen with
  | [b3, b2, b1, b0], _ => exact be32_ofBe32 b3 b2 b1 b0

/-! ## The reserved bits -/

/-- The lowest reserved bit of a format and how many there are: in each format of R83 they stand together. -/
def reservedField : Format → Nat × Nat
  | .N | .K => (0, 24)
  | .W => (6, 18)
  | .T => (17, 7)
  | .A => (21, 3)
  | .X => (5, 19)
  | .D => (20, 4)
  | .G | .R => (8, 16)
  | .L | .P => (16, 8)
  | .B => (1, 23)
  | .M => (2, 6)

theorem toNat_reservedMask (f : Format) :
    (reservedMask f).toNat = (2 ^ (reservedField f).2 - 1) <<< (reservedField f).1 := by
  cases f <;> rfl

theorem and_mask_eq (n start len : Nat) : n &&& (2 ^ len - 1) <<< start = (n / 2 ^ start % 2 ^ len) <<< start := by
  rw [← Nat.shiftRight_eq_div_pow]
  apply Nat.eq_of_testBit_eq
  intro i
  by_cases hi : start ≤ i
  · simp [hi, Bool.and_comm]
  · simp [hi]

/-- The reserved bits are 0 iff the number they spell is. -/
theorem reserved_iff : h &&& reservedMask f = 0 ↔
    h.toNat / 2 ^ (reservedField f).1 % 2 ^ (reservedField f).2 = 0 := by
  rw [← BitVec.toNat_inj, BitVec.toNat_and, toNat_reservedMask, and_mask_eq]
  simp [Nat.shiftLeft_eq]

/-- The header is legal for an opcode of a format: no reserved bit is set (R82, R87). -/
def LegalHeader (opc : Byte) (f : Format) (h : Word) : Prop := headerOpcode h = opc ∧ h &&& reservedMask f = 0

theorem legalHeader_iff : LegalHeader opc f h ↔ h.toNat / 2 ^ 24 % 2 ^ 8 = opc.toNat ∧
    h.toNat / 2 ^ (reservedField f).1 % 2 ^ (reservedField f).2 = 0 := by
  rw [LegalHeader, reserved_iff, headerOpcode, ← BitVec.toNat_inj, toNat_field]

theorem bit_eq_iff {k : Nat} (hk : k < 32) {b : Bool} : h[k] = b ↔ h.toNat / 2 ^ k % 2 = b.toNat := by
  rw [BitVec.getElem_eq_testBit_toNat, Nat.testBit_eq_decide_div_mod_eq]
  cases b <;> simp

/-! ## The formats of R83 -/

theorem layout_N : opc ++ 0#24 = h ↔ LegalHeader opc .N h := by
  simp only [legalHeader_iff, ← BitVec.toNat_inj, toNat_append, reservedField, BitVec.toNat_ofNat]
  omega

theorem layout_K : opc ++ 0#24 = h ↔ LegalHeader opc .K h := layout_N

theorem layout_W {wpm : BitVec 6} : opc ++ 0#18 ++ wpm = h ↔ LegalHeader opc .W h ∧ h.extractLsb' 0 6 = wpm := by
  simp only [legalHeader_iff, ← BitVec.toNat_inj, toNat_field, toNat_append, reservedField, BitVec.toNat_ofNat]
  omega

theorem layout_T {up : Bool} {dur : BitVec 16} : opc ++ 0#7 ++ BitVec.ofBool up ++ dur = h ↔
    LegalHeader opc .T h ∧ h[16] = up ∧ h.extractLsb' 0 16 = dur := by
  simp only [legalHeader_iff, bit_eq_iff, ← BitVec.toNat_inj, toNat_field, toNat_append, reservedField,
    BitVec.toNat_ofBool, BitVec.toNat_ofNat]
  have := up.toNat_le
  omega

theorem layout_A {count : BitVec 5} {value : BitVec 16} : opc ++ 0#3 ++ count ++ value = h ↔
    LegalHeader opc .A h ∧ h.extractLsb' 16 5 = count ∧ h.extractLsb' 0 16 = value := by
  simp only [legalHeader_iff, ← BitVec.toNat_inj, toNat_field, toNat_append, reservedField, BitVec.toNat_ofNat]
  omega

theorem layout_X {count : BitVec 5} : opc ++ 0#19 ++ count = h ↔
    LegalHeader opc .X h ∧ h.extractLsb' 0 5 = count := by
  simp only [legalHeader_iff, ← BitVec.toNat_inj, toNat_field, toNat_append, reservedField, BitVec.toNat_ofNat]
  omega

theorem layout_D {bits : BitVec 4} {val : BitVec 16} : opc ++ 0#4 ++ bits ++ val = h ↔
    LegalHeader opc .D h ∧ h.extractLsb' 16 4 = bits ∧ h.extractLsb' 0 16 = val := by
  simp only [legalHeader_iff, ← BitVec.toNat_inj, toNat_field, toNat_append, reservedField, BitVec.toNat_ofNat]
  omega

theorem layout_G {byte : BitVec 8} : opc ++ 0#16 ++ byte = h ↔
    LegalHeader opc .G h ∧ h.extractLsb' 0 8 = byte := by
  simp only [legalHeader_iff, ← BitVec.toNat_inj, toNat_field, toNat_append, reservedField, BitVec.toNat_ofNat]
  omega

theorem layout_R {csr : BitVec 8} : opc ++ 0#16 ++ csr = h ↔
    LegalHeader opc .R h ∧ h.extractLsb' 0 8 = csr := layout_G

theorem layout_L {len : BitVec 16} : opc ++ 0#8 ++ len = h ↔
    LegalHeader opc .L h ∧ h.extractLsb' 0 16 = len := by
  simp only [legalHeader_iff, ← BitVec.toNat_inj, toNat_field, toNat_append, reservedField, BitVec.toNat_ofNat]
  omega

theorem layout_P {spare : BitVec 2} {crc : BitVec 14} : opc ++ 0#8 ++ spare ++ crc = h ↔
    LegalHeader opc .P h ∧ h.extractLsb' 14 2 = spare ∧ h.extractLsb' 0 14 = crc := by
  simp only [legalHeader_iff, ← BitVec.toNat_inj, toNat_field, toNat_append, reservedField, BitVec.toNat_ofNat]
  omega

theorem layout_B {isEnd : Bool} : opc ++ 0#23 ++ BitVec.ofBool isEnd = h ↔ LegalHeader opc .B h ∧ h[0] = isEnd := by
  simp only [legalHeader_iff, bit_eq_iff, ← BitVec.toNat_inj, toNat_append, reservedField, BitVec.toNat_ofBool,
    BitVec.toNat_ofNat]
  have := isEnd.toNat_le
  omega

theorem layout_M {nsym : BitVec 16} {rd ru : Bool} :
    opc ++ nsym ++ 0#6 ++ BitVec.ofBool rd ++ BitVec.ofBool ru = h ↔
      LegalHeader opc .M h ∧ h.extractLsb' 8 16 = nsym ∧ h[1] = rd ∧ h[0] = ru := by
  simp only [legalHeader_iff, bit_eq_iff, ← BitVec.toNat_inj, toNat_field, toNat_append, reservedField,
    BitVec.toNat_ofBool, BitVec.toNat_ofNat]
  have := rd.toNat_le
  have := ru.toNat_le
  omega

/-- A length field holds the length of a payload that is not too long for it (R83). -/
theorem lengthField_iff {payload : List Byte} {len : BitVec 16} :
    lengthField payload = len ∧ payload.length < 2 ^ 16 ↔ payload.length = len.toNat := by
  rw [lengthField, ← BitVec.toNat_inj, BitVec.toNat_ofNat]
  omega

end Sys2Proof
end

section
/-! PROOFS. The decoder of the command stream (R82 to R89). What it reads is said once, in both directions
(`decodeCommand_eq_command_iff`): a legal command, and what stands at the front of the stream is the encoding of that
command. -/

namespace Sys2Proof

open Machine

variable {h : Word} {opc : Byte} {f : Format} {p : Params} {i : Instr} {payload body rest : List Byte}

/-! ## The stream -/

/-- A header and what follows it (R82, R89). -/
theorem decodeCommand_header (p : Params) (h : Word) (body : List Byte) :
    decodeCommand p (be32 h ++ body) =
      if body.length < payloadLength p h then .incomplete
      else decodeWhole h (body.take (payloadLength p h)) (body.drop (payloadLength p h)) := by
  rw [show decodeCommand p (be32 h ++ body) = decodeCommand p (_ :: _ :: _ :: _ :: body) from rfl, decodeCommand,
    ofBe32_be32]

/-- Without a whole header the core waits (R342). -/
theorem decodeCommand_short {bytes : List Byte} (hlen : bytes.length < 4) : decodeCommand p bytes = .incomplete := by
  match bytes, hlen with
  | [], _ | [_], _ | [_, _], _ | [_, _, _], _ => rfl

theorem exists_header {bytes : List Byte} (hlen : 4 ≤ bytes.length) : ∃ h body, bytes = be32 h ++ body := by
  match bytes, hlen with
  | b3 :: b2 :: b1 :: b0 :: body, _ => exact ⟨ofBe32 b3 b2 b1 b0, body, by rw [be32_ofBe32]; rfl⟩

/-! ## A whole command -/

/-- The header is legal and with its payload it gives the operands of a command (R85, R87, R88). -/
def Assembles (h : Word) (payload : List Byte) (i : Instr) : Prop :=
  ∃ f, formatOf (headerOpcode h).toNat = some f ∧ h &&& reservedMask f = 0 ∧ assemble h payload = some i

theorem LegalHeader.assembles (hl : LegalHeader opc f h) (hf : formatOf opc.toNat = some f)
    (ha : assemble h payload = some i) : Assembles h payload i := ⟨f, by rw [hl.1, hf], hl.2, ha⟩

theorem decodeWhole_unassigned (hf : formatOf (headerOpcode h).toNat = none) :
    decodeWhole h payload rest = .illegal .unassignedOpcode rest := by
  rw [decodeWhole, hf]

theorem decodeWhole_reserved (hf : formatOf (headerOpcode h).toNat = some f) (hr : h &&& reservedMask f ≠ 0) :
    decodeWhole h payload rest = .illegal .reservedBits rest := by
  simp only [decodeWhole, hf, if_pos hr]

theorem decodeWhole_assembles (ha : Assembles h payload i) : decodeWhole h payload rest = .command i rest := by
  obtain ⟨f, hf, hr, hi⟩ := ha
  simp only [decodeWhole, hf, hr, hi, ne_eq, not_true, if_false]

/-- The two things a header with its payload can be, and what is left of the stream (R87, R88, R89). -/
theorem decodeWhole_cases (h : Word) (payload rest : List Byte) :
    (∃ why, decodeWhole h payload rest = .illegal why rest) ∨
      ∃ i, decodeWhole h payload rest = .command i rest ∧ Assembles h payload i := by
  cases hf : formatOf (headerOpcode h).toNat with
  | none => exact .inl ⟨_, decodeWhole_unassigned hf⟩
  | some f =>
    by_cases hr : h &&& reservedMask f = 0
    · cases hi : assemble h payload with
      | none => exact .inl ⟨.unassignedOpcode, by simp only [decodeWhole, hf, hr, hi, ne_eq, not_true, if_false]⟩
      | some i =>
        have ha : Assembles h payload i := ⟨f, hf, hr, hi⟩
        exact .inr ⟨i, decodeWhole_assembles ha, ha⟩
    · exact .inl ⟨_, decodeWhole_reserved hf hr⟩

/-- Whatever a header means, the stream after its command is what was left of it (R87, R88, R89). -/
theorem decodeWhole_rest {after : List Byte} (hd : (∃ i, decodeWhole h payload rest = .command i after) ∨
    ∃ why, decodeWhole h payload rest = .illegal why after) : after = rest := by
  rcases decodeWhole_cases h payload rest with ⟨why, hw⟩ | ⟨i, hw, -⟩
  · simpa [hw, eq_comm] using hd
  · simpa [hw, eq_comm] using hd

/-- A command is read only from a header that assembles to it. -/
theorem assembles_of_decodeWhole {after : List Byte} (hd : decodeWhole h payload rest = .command i after) :
    after = rest ∧ Assembles h payload i := by
  rcases decodeWhole_cases h payload rest with ⟨why, hw⟩ | ⟨j, hw, ha⟩
  · cases hd.symm.trans hw
  · cases hd.symm.trans hw; exact ⟨rfl, ha⟩

/-! ## Operands -/

/-- The operands that a legal header and its payload give are those of a well-formed command with this header and this
payload (R83, R85, R89). -/
theorem Assembles.encoding (ha : Assembles h payload i) (wpm : Nat) (hlen : payload.length = payloadLength p h) :
    headerOf i = some h ∧ payloadOf i = payload ∧ i.wellFormed p wpm = true := by
  obtain ⟨f, hf, hr, hi⟩ := ha
  unfold assemble at hi
  split at hi
  case h_22 => cases hi
  all_goals
    rename_i ho
    cases hi
    have hformat := hf
    rw [ho] at hformat
    cases hformat
    simp only [payloadLength, hf] at hlen
    have hlegal {opc : Byte} (hopc : (headerOpcode h).toNat = opc.toNat) : LegalHeader opc _ h :=
      ⟨BitVec.eq_of_toNat_eq hopc, hr⟩
  -- format N: SE_START, SE_END, SE_EMIT
  case h_1 =>
    exact ⟨congrArg some ((layout_N (opc := 0x10#8)).2 (hlegal ho)), (List.eq_nil_of_length_eq_zero hlen).symm, rfl⟩
  case h_3 =>
    exact ⟨congrArg some ((layout_N (opc := 0x12#8)).2 (hlegal ho)), (List.eq_nil_of_length_eq_zero hlen).symm, rfl⟩
  case h_5 =>
    exact ⟨congrArg some ((layout_N (opc := 0x14#8)).2 (hlegal ho)), (List.eq_nil_of_length_eq_zero hlen).symm, rfl⟩
  -- format W: SE_SET_SPEED
  case h_4 => exact ⟨congrArg some (layout_W.2 ⟨hlegal ho, rfl⟩), (List.eq_nil_of_length_eq_zero hlen).symm, rfl⟩
  -- format T: SE_TIMED, KE_ENCODE
  case h_2 | h_6 =>
    exact ⟨congrArg some (layout_T.2 ⟨hlegal ho, rfl, rfl⟩), (List.eq_nil_of_length_eq_zero hlen).symm, rfl⟩
  -- format D: DELTA_ENC, DELTA_DEC
  case h_7 | h_8 =>
    exact ⟨congrArg some (layout_D.2 ⟨hlegal ho, rfl, rfl⟩), (List.eq_nil_of_length_eq_zero hlen).symm, rfl⟩
  -- format A: BB_ADD
  case h_9 => exact ⟨congrArg some (layout_A.2 ⟨hlegal ho, rfl, rfl⟩), (List.eq_nil_of_length_eq_zero hlen).symm, rfl⟩
  -- format X: EX_TAKE
  case h_11 => exact ⟨congrArg some (layout_X.2 ⟨hlegal ho, rfl⟩), (List.eq_nil_of_length_eq_zero hlen).symm, rfl⟩
  -- format G: GRAY_TO, GRAY_FROM
  case h_16 | h_17 =>
    exact ⟨congrArg some (layout_G.2 ⟨hlegal ho, rfl⟩), (List.eq_nil_of_length_eq_zero hlen).symm, rfl⟩
  -- format L: EX_LOAD, CRC14, CRC14_CHECK
  case h_10 | h_12 | h_13 =>
    obtain ⟨hfield, hshort⟩ := lengthField_iff.2 hlen
    exact ⟨congrArg some (layout_L.2 ⟨hlegal ho, hfield.symm⟩), rfl, decide_eq_true hshort⟩
  -- formats P, K and B: LDPC_PACK, LDPC_ENCODE, CHAN_ENCODE
  case h_14 => exact ⟨congrArg some (layout_P.2 ⟨hlegal ho, rfl, rfl⟩), rfl, beq_iff_eq.2 hlen⟩
  case h_15 => exact ⟨congrArg some ((layout_K (opc := 0x39#8)).2 (hlegal ho)), rfl, beq_iff_eq.2 hlen⟩
  case h_18 => exact ⟨congrArg some (layout_B.2 ⟨hlegal ho, rfl⟩), rfl, beq_iff_eq.2 hlen⟩
  -- format M: GFSK_MOD
  case h_19 =>
    obtain ⟨hfield, hshort⟩ := lengthField_iff.2 hlen
    exact ⟨congrArg some (layout_M.2 ⟨hlegal ho, hfield.symm, rfl, rfl⟩), rfl, decide_eq_true hshort⟩
  -- format R: CSR_READ has no payload, CSR_WRITE one of 4 bytes
  case h_20 =>
    have hopc : headerOpcode h = 0x70 := BitVec.eq_of_toNat_eq ho
    rw [if_neg (by rw [hopc]; decide)] at hlen
    exact ⟨congrArg some (layout_R.2 ⟨⟨hopc, hr⟩, rfl⟩), (List.eq_nil_of_length_eq_zero hlen).symm, rfl⟩
  case h_21 =>
    have hopc : headerOpcode h = 0x71 := BitVec.eq_of_toNat_eq ho
    rw [if_pos hopc] at hlen
    exact ⟨congrArg some (layout_R.2 ⟨⟨hopc, hr⟩, rfl⟩), be32_wordOf hlen, rfl⟩

/-- The header of a well-formed command is legal, and with the payload it assembles to that command (R83, R85, R89). -/
theorem assembles_of_headerOf {wpm : Nat} (hh : headerOf i = some h) (hwf : i.wellFormed p wpm = true) :
    Assembles h (payloadOf i) i ∧ (payloadOf i).length = payloadLength p h := by
  cases i with
  | seStart | seEnd | seEmit => cases hh; exact ⟨⟨.N, rfl, rfl, rfl⟩, rfl⟩
  | seSetSpeed w =>
    obtain ⟨hl, rfl⟩ := layout_W.1 (Option.some.inj hh)
    exact ⟨hl.assembles rfl (by simp [assemble, hl.1]), by simp [payloadLength, hl.1, formatOf, payloadOf]⟩
  | seTimed up dur | keEncode up dur =>
    obtain ⟨hl, rfl, rfl⟩ := layout_T.1 (Option.some.inj hh)
    exact ⟨hl.assembles rfl (by simp [assemble, hl.1]), by simp [payloadLength, hl.1, formatOf, payloadOf]⟩
  | deltaEnc bits val | deltaDec bits val =>
    obtain ⟨hl, rfl, rfl⟩ := layout_D.1 (Option.some.inj hh)
    exact ⟨hl.assembles rfl (by simp [assemble, hl.1]), by simp [payloadLength, hl.1, formatOf, payloadOf]⟩
  | bbAdd count value =>
    obtain ⟨hl, rfl, rfl⟩ := layout_A.1 (Option.some.inj hh)
    exact ⟨hl.assembles rfl (by simp [assemble, hl.1]), by simp [payloadLength, hl.1, formatOf, payloadOf]⟩
  | exTake count =>
    obtain ⟨hl, rfl⟩ := layout_X.1 (Option.some.inj hh)
    exact ⟨hl.assembles rfl (by simp [assemble, hl.1]), by simp [payloadLength, hl.1, formatOf, payloadOf]⟩
  | grayTo nib | grayFrom nib =>
    obtain ⟨hl, rfl⟩ := layout_G.1 (Option.some.inj hh)
    exact ⟨hl.assembles rfl (by simp [assemble, hl.1]), by simp [payloadLength, hl.1, formatOf, payloadOf]⟩
  | exLoad payload | crc14 payload | crc14Check payload =>
    obtain ⟨hl, hfield⟩ := layout_L.1 (Option.some.inj hh)
    have hlen := lengthField_iff.1 ⟨hfield.symm, of_decide_eq_true hwf⟩
    exact ⟨hl.assembles rfl (by simp [assemble, hl.1, payloadOf]),
      by simpa [payloadLength, hl.1, formatOf, payloadOf] using hlen⟩
  | ldpcPack spare crc block =>
    obtain ⟨hl, rfl, rfl⟩ := layout_P.1 (Option.some.inj hh)
    exact ⟨hl.assembles rfl (by simp [assemble, hl.1, payloadOf]),
      by simpa [payloadLength, hl.1, formatOf, payloadOf] using beq_iff_eq.1 hwf⟩
  | ldpcEncode message => cases hh; exact ⟨⟨.K, rfl, rfl, rfl⟩, beq_iff_eq.1 hwf⟩
  | chanEncode isEnd block =>
    obtain ⟨hl, rfl⟩ := layout_B.1 (Option.some.inj hh)
    exact ⟨hl.assembles rfl (by simp [assemble, hl.1, payloadOf]),
      by simpa [payloadLength, hl.1, formatOf, payloadOf] using beq_iff_eq.1 hwf⟩
  | gfskMod rd ru tones =>
    obtain ⟨hl, hfield, rfl, rfl⟩ := layout_M.1 (Option.some.inj hh)
    have hlen := lengthField_iff.1 ⟨hfield.symm, of_decide_eq_true hwf⟩
    exact ⟨hl.assembles rfl (by simp [assemble, hl.1, payloadOf]),
      by simpa [payloadLength, hl.1, formatOf, payloadOf] using hlen⟩
  | csrRead csr =>
    obtain ⟨hl, rfl⟩ := layout_R.1 (Option.some.inj hh)
    exact ⟨hl.assembles rfl (by simp [assemble, hl.1]), by simp [payloadLength, hl.1, formatOf, payloadOf]⟩
  | csrWrite csr value =>
    obtain ⟨hl, rfl⟩ := layout_R.1 (Option.some.inj hh)
    exact ⟨hl.assembles rfl (by simp [assemble, hl.1, payloadOf, wordOf_be32]),
      by simp [payloadLength, hl.1, formatOf, payloadOf, be32]⟩
  | _ => cases hh

/-! ## The command stream -/

/-- What the decoder reads at the front of a stream is a well-formed command, and the stream begins with the encoding of
that command and with nothing else (R82 to R89). -/
theorem decodeCommand_eq_command_iff (wpm : Nat) {bytes : List Byte} : decodeCommand p bytes = .command i rest ↔
    i.wellFormed p wpm = true ∧ ∃ b, encodeCommand i = some b ∧ bytes = b ++ rest := by
  constructor
  · intro hd
    by_cases hshort : bytes.length < 4
    · rw [decodeCommand_short hshort] at hd; cases hd
    obtain ⟨h, body, rfl⟩ := exists_header (Nat.le_of_not_lt hshort)
    rw [decodeCommand_header] at hd
    split_ifs at hd with hbody
    obtain ⟨rfl, ha⟩ := assembles_of_decodeWhole hd
    obtain ⟨hh, hpayload, hwf⟩ := ha.encoding wpm (List.length_take_of_le (Nat.le_of_not_lt hbody))
    refine ⟨hwf, _, by rw [encodeCommand, hh]; rfl, ?_⟩
    rw [hpayload, List.append_assoc, List.take_append_drop]
  · rintro ⟨hwf, b, hb, rfl⟩
    obtain ⟨h, hh, rfl⟩ := Option.map_eq_some_iff.1 hb
    obtain ⟨ha, hlen⟩ := assembles_of_headerOf hh hwf
    rw [List.append_assoc, decodeCommand_header, if_neg (by simp [hlen]), ← hlen, List.take_left, List.drop_left]
    exact decodeWhole_assembles ha

/-- Settles O2: the forward half of `decodeCommand_eq_command_iff`. -/
theorem encodeDecodeCommandStream : Obligations.EncodeDecodeCommandStream := fun _ wpm _ _ _ hd =>
  (decodeCommand_eq_command_iff wpm).1 hd

end Sys2Proof
end

section
/-! PROOFS. Which headers are illegal and how much of the stream a header takes (R86 to R89). -/

namespace Sys2Proof

open Machine

variable {h : Word} {opc : Byte} {f : Format} {p : Params} {s : State} {payload body rest : List Byte}

/-! ## The opcode map, read by format -/

/-- The opcodes of a format (R86). -/
def opcodesOf : Format → List Byte
  | .N => [0x10, 0x12, 0x14]
  | .W => [0x13]
  | .T => [0x11, 0x18]
  | .A => [0x28]
  | .X => [0x2A]
  | .D => [0x20, 0x21]
  | .G => [0x40, 0x41]
  | .L => [0x29, 0x30, 0x31]
  | .P => [0x38]
  | .K => [0x39]
  | .B => [0x48]
  | .M => [0x50]
  | .R => [0x70, 0x71]

/-- The opcode map is `opcodesOf`, read backwards. -/
theorem formatOf_eq_some_iff : formatOf opc.toNat = some f ↔ opc ∈ opcodesOf f := by
  constructor
  · intro hf
    have hopc : opc = BitVec.ofNat 8 opc.toNat := by simp
    unfold formatOf at hf
    split at hf
    case h_22 => cases hf
    all_goals
      rename_i ho
      cases hf
      rw [hopc, ho]
      decide
  · have hall : ∀ o ∈ opcodesOf f, formatOf o.toNat = some f := by cases f <;> decide
    exact hall opc

/-- The assigned opcodes, in the order of R86. -/
def assignedOpcodes : List Byte :=
  [0x10, 0x11, 0x12, 0x13, 0x14, 0x18, 0x20, 0x21, 0x28, 0x29, 0x2A, 0x30, 0x31, 0x38, 0x39, 0x40, 0x41, 0x48, 0x50,
    0x70, 0x71]

theorem opcodesOf_subset (f : Format) : opcodesOf f ⊆ assignedOpcodes := by cases f <;> decide

theorem formatOf_unassigned (hopc : opc ∉ assignedOpcodes) : formatOf opc.toNat = none := by
  cases hf : formatOf opc.toNat with
  | none => rfl
  | some f => exact absurd (opcodesOf_subset f (formatOf_eq_some_iff.1 hf)) hopc

/-! ## Illegal commands -/

/-- A step on an illegal command raises `ILLEGAL_COMMAND` and consumes it (R87, R88). -/
theorem step_illegal {why : IllegalReason} (hd : decodeCommand s.params s.input = .illegal why rest) :
    step s = .next (failed .illegalCommand { s with input := rest }) := by
  rw [step_eq, hd]; rfl

theorem headerOpcode_ofBe32 (b3 b2 b1 b0 : Byte) : headerOpcode (ofBe32 b3 b2 b1 b0) = b3 :=
  (List.cons.inj (be32_ofBe32 b3 b2 b1 b0)).1

/-- Settles O3: an unassigned opcode has no format, and so no payload. -/
theorem unassignedOpcodeIsIllegal : Obligations.UnassignedOpcodeIsIllegal := by
  intro s opc b2 b1 b0 rest hopc hinput
  have hf : formatOf (headerOpcode (ofBe32 opc b2 b1 b0)).toNat = none := by
    rw [headerOpcode_ofBe32]; exact formatOf_unassigned hopc
  have hlen : payloadLength s.params (ofBe32 opc b2 b1 b0) = 0 := by simp only [payloadLength, hf]
  have hstream : s.input = be32 (ofBe32 opc b2 b1 b0) ++ rest := by rw [hinput, be32_ofBe32]; rfl
  refine step_illegal (why := .unassignedOpcode) ?_
  rw [hstream, decodeCommand_header, hlen, if_neg (Nat.not_lt_zero _)]
  exact decodeWhole_unassigned hf

/-- Settles O4: the mask of each opcode is the reserved mask of its format. -/
theorem reservedBitsAreIllegal : Obligations.ReservedBitsAreIllegal := by
  intro s h mask body hmem hreserved hbody hinput
  have hmask : (formatOf (headerOpcode h).toNat).map reservedMask = some mask := by
    refine (?_ : ∀ entry ∈ _, (formatOf entry.1.toNat).map reservedMask = some entry.2) _ hmem
    simp [formatOf, reservedMask]
  obtain ⟨f, hf, rfl⟩ := Option.map_eq_some_iff.1 hmask
  refine step_illegal (why := .reservedBits) ?_
  rw [hinput, decodeCommand_header, if_neg (Nat.not_lt.2 hbody)]
  exact decodeWhole_reserved hf hreserved

/-! ## Payload lengths -/

/-- A header whose format fixes no payload has none (R83). -/
theorem payloadLength_eq_zero (hL : headerOpcode h ∉ opcodesOf .L) (hP : headerOpcode h ∉ opcodesOf .P)
    (hB : headerOpcode h ∉ opcodesOf .B) (hK : headerOpcode h ∉ opcodesOf .K) (hM : headerOpcode h ∉ opcodesOf .M)
    (hwrite : headerOpcode h ≠ 0x71) : payloadLength p h = 0 := by
  unfold payloadLength
  split
  next hf => exact absurd (formatOf_eq_some_iff.1 hf) hL
  next hf => exact absurd (formatOf_eq_some_iff.1 hf) hP
  next hf => exact absurd (formatOf_eq_some_iff.1 hf) hK
  next hf => exact absurd (formatOf_eq_some_iff.1 hf) hB
  next hf => exact absurd (formatOf_eq_some_iff.1 hf) hM
  next => exact if_neg hwrite
  next => rfl

theorem payloadLength_eq (p : Params) (h : Word) : payloadLength p h =
    (if headerOpcode h ∈ ([0x29, 0x30, 0x31] : List Byte) then h.toNat % 2 ^ 16
    else if headerOpcode h ∈ ([0x38, 0x48] : List Byte) then p.blockBytes
    else if headerOpcode h = 0x39 then p.ldpcK / 8
    else if headerOpcode h = 0x50 then h.toNat / 2 ^ 8 % 2 ^ 16
    else if headerOpcode h = 0x71 then 4 else 0) := by
  have hformat {f : Format} (hmem : headerOpcode h ∈ opcodesOf f) := formatOf_eq_some_iff.2 hmem
  split_ifs with hL hblock hK hM hwrite
  · simp only [payloadLength, hformat (f := .L) hL, toNat_field, pow_zero, Nat.div_one]
  · rcases List.mem_pair.1 hblock with hP | hB
    · simp only [payloadLength, hformat (f := .P) (by rw [hP]; decide)]
    · simp only [payloadLength, hformat (f := .B) (by rw [hB]; decide)]
  · simp only [payloadLength, hformat (f := .K) (by rw [hK]; decide), Params.messageBytes]
  · simp only [payloadLength, hformat (f := .M) (by rw [hM]; decide), toNat_field]
  · simp only [payloadLength, hformat (f := .R) (by rw [hwrite]; decide), if_pos hwrite]
  · simp only [List.mem_pair, not_or] at hblock
    exact payloadLength_eq_zero hL (by simpa [opcodesOf] using hblock.1) (by simpa [opcodesOf] using hblock.2)
      (by simpa [opcodesOf] using hK) (by simpa [opcodesOf] using hM) hwrite

/-- Settles O5: the lengths are `payloadLength_eq`, and the payload of any whole command is cut off by its length. -/
theorem payloadLengthByOpcode : Obligations.PayloadLengthByOpcode := by
  intro p h
  refine ⟨payloadLength_eq p h, fun body rest hd => ?_⟩
  rw [decodeCommand_header] at hd
  split_ifs at hd with hbody
  · simp at hd
  · exact ⟨Nat.le_of_not_lt hbody, decodeWhole_rest hd⟩

end Sys2Proof
end

section
/-! PROOFS. Frames and symbols (R100, R101, R104). The field of a delta frame is the two's complement of the delta, so
its first bit is the sign that picks the width of a dah (R134, R136). -/

namespace Sys2Proof

open Machine

variable {p : Params} {policy : DahWidthPolicy} {wpm w : Nat} {d : Int} {i : Instr} {s : State}

/-! ## Delta fields -/

/-- The field of a delta at a width: two's complement with one bit for the sign (R136). -/
def deltaField (w : Nat) (d : Int) : Bits := bitsN (w + 1) (BitVec.ofInt (w + 1) d).toNat

theorem deltaFits_iff : deltaFits d w = true ↔ ∃ m : Nat, legalDelta w = some m ∧ -(m : Int) ≤ d ∧ d ≤ m := by
  unfold deltaFits
  cases legalDelta w with
  | none => simp
  | some m => simp

/-- A delta that fits a width is a signed number of that many bits and a sign (R138). -/
theorem toInt_of_deltaFits (hfits : deltaFits d w = true) : (BitVec.ofInt (w + 1) d).toInt = d := by
  obtain ⟨m, hm, hlow, hhigh⟩ := deltaFits_iff.1 hfits
  obtain ⟨-, -, -, hlt, -⟩ := legalDelta_bounds hm
  have hpow : (m : Int) < 2 ^ w := by exact_mod_cast hlt
  exact BitVec.toInt_ofInt_eq_self (Nat.succ_pos w) (by simp; omega) (by simp; omega)

theorem twos_toNat (x : BitVec (w + 1)) : twos (w + 1) x.toNat = x.toInt := by
  rw [twos, BitVec.toInt_eq_msb_cond, BitVec.msb_eq_getLsbD_last, BitVec.getLsbD]
  push_cast
  rfl

/-- The sign bit of a delta field (R134, R136). -/
theorem head_deltaField (hfits : deltaFits d w = true) : (deltaField w d).headD false = decide (d < 0) := by
  have hmsb := BitVec.msb_eq_toInt (x := BitVec.ofInt (w + 1) d)
  rw [toInt_of_deltaFits hfits, BitVec.msb_eq_getLsbD_last, BitVec.getLsbD] at hmsb
  exact hmsb

/-- The code of a delta that fits is its two's complement (R136). -/
theorem deltaCode_of_fits (hfits : deltaFits d w = true) : deltaCode d w = .ok (BitVec.ofInt (w + 1) d).toNat := by
  obtain ⟨m, hm, hlow, hhigh⟩ := deltaFits_iff.1 hfits
  obtain ⟨-, -, -, hlt, -⟩ := legalDelta_bounds hm
  have hpow : (m : Int) < 2 ^ (w + 1) := by
    have : m < 2 ^ (w + 1) := hlt.trans (Nat.pow_lt_pow_succ Nat.one_lt_two)
    exact_mod_cast this
  rw [deltaCode_eq, hm, BitVec.toNat_ofInt]
  simp only [if_pos (show d.natAbs ≤ m by omega)]
  push_cast
  split
  next hpos => rw [Int.emod_eq_of_lt hpos (by omega)]
  next hneg => rw [← Int.add_emod_right, Int.emod_eq_of_lt (by omega) (by omega)]

theorem deltaFrame_of_fits (tag : Nat) (hfits : deltaFits d w = true) :
    deltaFrame tag d w = .ok (frame tag (deltaField w d)) := by
  rw [deltaFrame, deltaCode_of_fits hfits]; rfl

/-- A delta field reads back as its delta (R137). -/
theorem takeDelta_deltaField (hfits : deltaFits d w = true) : takeDelta w (deltaField w d) = some (d, []) := by
  obtain ⟨m, hm, hrange⟩ := deltaFits_iff.1 hfits
  have hlen : (deltaField w d).length = w + 1 := length_bitsN _ _
  have hvalue : twos (w + 1) (num (deltaField w d)) = d := by
    rw [deltaField, num_bitsN, Nat.mod_eq_of_lt (BitVec.isLt _), twos_toNat, toInt_of_deltaFits hfits]
  simp only [takeDelta, List.take_of_length_le hlen.le, List.drop_of_length_le hlen.le, hlen, hvalue, hm, if_pos hrange,
    if_neg (lt_irrefl _)]

/-! ## Frames -/

/-- The sign bit picks the width at which a dah delta is spelled (R134). -/
theorem dahFieldWidth_deltaField (hfits : deltaFits d (dahWidth policy wpm d) = true) :
    dahFieldWidth policy wpm (deltaField (dahWidth policy wpm d) d) = dahWidth policy wpm d := by
  rw [dahFieldWidth, head_deltaField hfits]
  by_cases hsign : d < 0
  · cases policy <;> simp [dahWidth, hsign]
  · cases policy <;> simp [dahWidth, hsign]

theorem decodeFrame_deltaDit (field : Bits) : decodeFrame policy wpm (frame 10 field) =
    (takeDelta (ditWidth wpm) field).map fun x => (.keyingDeltaDit x.1, x.2) := rfl

theorem decodeFrame_deltaDah (field : Bits) : decodeFrame policy wpm (frame 11 field) =
    (takeDelta (dahFieldWidth policy wpm field) field).map fun x => (.keyingDeltaDah x.1, x.2) := rfl

theorem decodeFrame_deltaWordgap (field : Bits) : decodeFrame policy wpm (frame 12 field) =
    (takeDelta (wordgapWidth wpm) field).map fun x => (.keyingDeltaWordgap x.1, x.2) := rfl

/-- A word read from its own bits (R9). -/
theorem ofNat_num_bitsN {n : Nat} (v : BitVec n) : BitVec.ofNat n (num (bitsN n v.toNat)) = v := by
  rw [num_bitsN, Nat.mod_eq_of_lt v.isLt, BitVec.ofNat_toNat, BitVec.setWidth_eq]

theorem decodeFrame_wpmPolarity (v : BitVec 6) (polarity : Bool) :
    decodeFrame policy wpm (wpmPolarityFrame v.toNat polarity) = some (.wpmPolarity v polarity, []) := by
  calc decodeFrame policy wpm (wpmPolarityFrame v.toNat polarity)
      = some (.wpmPolarity (BitVec.ofNat 6 (num (bitsN 6 v.toNat))) polarity, []) := rfl
    _ = some (.wpmPolarity v polarity, []) := by rw [ofNat_num_bitsN]

theorem decodeFrame_naive (v : BitVec 11) :
    decodeFrame policy wpm (naiveFrame v.toNat) = some (.keyingNaive v, []) := by
  calc decodeFrame policy wpm (naiveFrame v.toNat)
      = some (.keyingNaive (BitVec.ofNat 11 (num (bitsN 11 v.toNat))), []) := rfl
    _ = some (.keyingNaive v, []) := by rw [ofNat_num_bitsN]

/-- Every well-formed frame row has a layout, which decodes to that row and leaves nothing (R100, R101). -/
theorem decodeFrame_of_frameBits {r : Except ErrorKind Bits} (hr : frameBits p.dahPolicy wpm i = some r)
    (hwf : i.wellFormed p wpm = true) : ∃ bits, r = .ok bits ∧ decodeFrame p.dahPolicy wpm bits = some (i, []) := by
  cases i with
  | padding | callsignMetadata | callsignHashMetadata | locatorMetadata | powerMetadata | keyingPerfectDit
  | keyingPerfectDah | keyingPerfectWordgap | keyingEnd | unused | extension =>
    cases hr; exact ⟨_, rfl, rfl⟩
  | wpmPolarity v polarity => cases hr; exact ⟨_, rfl, decodeFrame_wpmPolarity v polarity⟩
  | keyingNaive v => cases hr; exact ⟨_, rfl, decodeFrame_naive v⟩
  | keyingDeltaDit d =>
    cases hr
    refine ⟨_, deltaFrame_of_fits 10 hwf, ?_⟩
    rw [decodeFrame_deltaDit, takeDelta_deltaField hwf]; rfl
  | keyingDeltaDah d =>
    cases hr
    refine ⟨_, deltaFrame_of_fits 11 hwf, ?_⟩
    rw [decodeFrame_deltaDah, dahFieldWidth_deltaField hwf, takeDelta_deltaField hwf]; rfl
  | keyingDeltaWordgap d =>
    cases hr
    refine ⟨_, deltaFrame_of_fits 12 hwf, ?_⟩
    rw [decodeFrame_deltaWordgap, takeDelta_deltaField hwf]; rfl
  | _ => cases hr

/-! ## Symbols -/

/-- The byte of a symbol row decodes to that row (R104). -/
theorem decodeSymbol_of_symbolOf {x : Symbol} (hx : symbolOf i = some x) : decodeSymbol (symbolByte x) = some i := by
  cases i with
  | tone0 | tone1 | tone2 | tone3 | tone4 | tone5 | tone6 | tone7 | tone8 | tone9 | tone10 | tone11 | tone12 | tone13
  | tone14 | tone15 | rampUp | rampDown => cases hx; rfl
  | _ => cases hx

/-! ## Every row -/

/-- A row that is no command is a frame or a symbol (files 30 and 40). -/
theorem symbolOf_of_no_frame (hcommand : headerOf i = none) (hframe : frameBits policy wpm i = none) :
    ∃ x, symbolOf i = some x := by
  cases i with
  | tone0 | tone1 | tone2 | tone3 | tone4 | tone5 | tone6 | tone7 | tone8 | tone9 | tone10 | tone11 | tone12 | tone13
  | tone14 | tone15 | rampUp | rampDown => exact ⟨_, rfl⟩
  | padding | wpmPolarity _ _ | callsignMetadata | callsignHashMetadata | locatorMetadata | powerMetadata
  | keyingPerfectDit | keyingPerfectDah | keyingPerfectWordgap | keyingEnd | keyingDeltaDit _ | keyingDeltaDah _
  | keyingDeltaWordgap _ | keyingNaive _ | unused | extension => cases hframe
  | _ => cases hcommand

/-- Settles O1: a row has one of the three encodings, and each of their decoders reads it back. -/
theorem decodeEncodeEveryRow : Obligations.DecodeEncodeEveryRow := by
  intro p wpm i _ _ _ hwf
  cases hb : encodeCommand i with
  | some b =>
    have hd := (decodeCommand_eq_command_iff wpm).2 ⟨hwf, b, hb, (List.append_nil b).symm⟩
    exact ⟨.command b, by rw [encode, hb], by rw [decode, hd]⟩
  | none =>
    cases hr : frameBits p.dahPolicy wpm i with
    | some r =>
      obtain ⟨bits, rfl, hd⟩ := decodeFrame_of_frameBits hr hwf
      exact ⟨.frame bits, by rw [encode, hb, hr], by rw [decode, hd]⟩
    | none =>
      obtain ⟨x, hx⟩ := symbolOf_of_no_frame (Option.map_eq_none_iff.1 hb) hr
      exact ⟨.symbol (symbolByte x), by rw [encode, hb, hr, hx]; rfl, decodeSymbol_of_symbolOf hx⟩

/-! ## Frame rows performed alone (log 3) -/

/-- The two things a row does that appends bits (R151, R331). -/
theorem exec_of_rawAppend {bits : Bits} (hexec : exec i s = rawAppend bits s) :
    (s.bb.length + bits.length ≤ s.params.blockBits →
      exec i s = .next (answered (s.params.blockBits - (s.bb.length + bits.length)) [] { s with bb := s.bb ++ bits })) ∧
    (s.params.blockBits < s.bb.length + bits.length → exec i s = .next (failed .capacityExceeded s)) := by
  rw [hexec, rawAppend_eq]
  exact ⟨fun hfits => by rw [if_neg (Nat.not_lt.2 hfits)], fun hfull => by rw [if_pos hfull]⟩

/-- A delta frame with a WPM is appended at the width of that WPM (R101, R133). -/
theorem placeTimedFrame_of_fits {bits : Nat → Except ErrorKind Bits} {tag : Nat} (hw : s.wpm = some wpm)
    (hbits : bits wpm = deltaFrame tag d w) (hfits : deltaFits d w = true) :
    placeTimedFrame bits s = rawAppend (frame tag (deltaField w d)) s := by
  simp only [placeTimedFrame, hw, hbits, deltaFrame_of_fits tag hfits, placeFrame_ok]

/-- Settles O59: each frame row is a raw append of its layout. -/
theorem frameRowsAppendTheirLayout : Obligations.FrameRowsAppendTheirLayout := by
  intro s placed coded
  refine ⟨exec_of_rawAppend rfl, fun w b => exec_of_rawAppend rfl, exec_of_rawAppend rfl, exec_of_rawAppend rfl,
    exec_of_rawAppend rfl, exec_of_rawAppend rfl, exec_of_rawAppend rfl, exec_of_rawAppend rfl, exec_of_rawAppend rfl,
    exec_of_rawAppend rfl, fun d => exec_of_rawAppend rfl, exec_of_rawAppend rfl, exec_of_rawAppend rfl,
    fun w x hw => ⟨fun hfits => ?_, fun hfits => ?_, fun hfits => ?_⟩⟩
  · exact exec_of_rawAppend (placeTimedFrame_of_fits (tag := 10) hw rfl hfits)
  · exact exec_of_rawAppend (placeTimedFrame_of_fits (tag := 11) hw rfl hfits)
  · exact exec_of_rawAppend (placeTimedFrame_of_fits (tag := 12) hw rfl hfits)

end Sys2Proof
end

section
/-! PROOFS. Symbol rows (R104, log 4), the block that `Build` returns (R103, R152), and the byte layouts of `LDPC_PACK`
and `CHAN_ENCODE` (R105, R106, R241, R271). -/

namespace Sys2Proof.Machine

variable {p : Params} {s : State}

/-! ## Symbol rows -/

/-- The sample count of one tone without ramps (R292, R293). -/
theorem requestTotal_one (t : Byte) (s : State) :
    requestTotal (gfskRequest false false [t] s) = 4 * s.sampleRate.toNat / 25 := by
  simp [requestTotal, totalSamples, samplesPerSymbol, requestRate, gfskRequest]

/-- A tone that the settings allow is answered with its samples (R291, R295, R302). -/
theorem playSymbol_tone (t : BitVec 4) (hrate : 50 ≤ s.sampleRate.toNat)
    (hroom : 4 * s.sampleRate.toNat / 25 ≤ s.outCapacity.toNat) :
    playSymbol (.tone t) s = .next (answered (4 * s.sampleRate.toNat / 25)
      ((waveform s.params.gfskTol (gfskRequest false false [t.setWidth 8] s)).flatMap be32) s) := by
  have htone : ([t.setWidth 8].any fun b : Byte => 15 < b.toNat) = false := by
    simp [BitVec.toNat_setWidth]; omega
  have hfast : ¬requestRate (gfskRequest false false [t.setWidth 8] s) < 50 := Nat.not_lt.2 hrate
  rw [playSymbol, symbolByte, modulate_eq, requestTotal_one, if_neg (by simp), if_neg hfast, if_neg (by simp [htone]),
    if_neg (Nat.not_lt.2 hroom)]

theorem playSymbol_rampUp (s : State) : playSymbol .rampUp s = .next (answered 0 [] s) := by
  rw [playSymbol, modulate_eq]; rfl

theorem playSymbol_rampDown (s : State) : playSymbol .rampDown s = .next (answered 0 [] s) := by
  rw [playSymbol, modulate_eq]; rfl

/-- Settles O60: a symbol row is played, a tone with its samples and a ramp with none. -/
theorem symbolRowsAreModulated : Obligations.SymbolRowsAreModulated := by
  intro s
  refine ⟨fun i t ht hrate hroom => ⟨_, ?_, rfl, ?_⟩, fun i hi => ?_, playSymbol_rampUp s, playSymbol_rampDown s⟩
  · rw [length_waveform, requestTotal_one]
  · rw [exec_of_symbolOf ht, playSymbol_tone t hrate hroom]
  · simp only [List.mem_cons, List.not_mem_nil, or_false] at hi
    rcases hi with rfl | rfl | rfl | rfl | rfl | rfl | rfl | rfl | rfl | rfl | rfl | rfl | rfl | rfl | rfl | rfl
    all_goals exact ⟨_, rfl⟩

/-! ## The built block -/

/-- Settles O23: the builder's bits and its padding fill whole bytes. -/
theorem builtBlockHoldsBuilder : Obligations.BuiltBlockHoldsBuilder := by
  intro s hs
  have hlegal := hs.paramsLegal
  simp only [Params.legal, Params.sizesLegal, Params.blockBitsLegal, Bool.and_eq_true, beq_iff_eq] at hlegal
  have hfits := hs.builderFits
  have hlen : (s.bb ++ zeros s.remaining).length = 8 * s.params.blockBytes := by
    rw [List.length_append, length_zeros, State.remaining, Params.blockBytes]; omega
  obtain ⟨hbits, hbytes⟩ := bitsOf_bytesOf s.params.blockBytes _ hlen
  exact ⟨hbytes, hbits⟩

/-! ## The message vector -/

/-- Bit strings of one length that spell one number are the same (R9). -/
theorem eq_of_num_eq {a b : Bits} (hlen : a.length = b.length) (hnum : num a = num b) : a = b := by
  rw [← bitsN_num a, ← bitsN_num b, hlen, hnum]

/-- The bits of a concatenation (R9). -/
theorem bitsN_append {m n : Nat} (x : BitVec m) (y : BitVec n) :
    bitsN m x.toNat ++ bitsN n y.toNat = bitsN (m + n) (x ++ y).toNat := by
  apply eq_of_num_eq
  · simp
  · rw [num_append, num_bitsN, num_bitsN, num_bitsN, length_bitsN, toNat_append, Nat.mod_eq_of_lt x.isLt,
      Nat.mod_eq_of_lt y.isLt, ← toNat_append, Nat.mod_eq_of_lt (BitVec.isLt _)]

/-- A 16-bit field as two bytes, most significant first (R63). -/
theorem bytesOf_bitsN_16 (field : BitVec 16) :
    bytesOf (bitsN 16 field.toNat) = [field.extractLsb' 8 8, field.extractLsb' 0 8] := by
  have hbytes : field.extractLsb' 8 8 ++ field.extractLsb' 0 8 = field :=
    BitVec.eq_of_toNat_eq (by rw [toNat_append, toNat_field, toNat_field]; omega)
  calc bytesOf (bitsN 16 field.toNat)
      = bytesOf (bitsN 8 (field.extractLsb' 8 8).toNat ++ bitsN 8 (field.extractLsb' 0 8).toNat) := by
        rw [bitsN_append, hbytes]
    _ = bytesOf (bitsOf [field.extractLsb' 8 8, field.extractLsb' 0 8]) := by simp [bitsOf, byteBits]
    _ = [field.extractLsb' 8 8, field.extractLsb' 0 8] := bytesOf_bitsOf _

/-- The message vector as bytes (R106, R241). -/
theorem bytesOf_packMessage (block : List Byte) (spare : BitVec 2) (crc : BitVec 14) :
    bytesOf (packMessage block spare crc) =
      block ++ [(spare ++ crc).extractLsb' 8 8, (spare ++ crc).extractLsb' 0 8] := by
  rw [packMessage, List.append_assoc, bitsN_append, bytesOf_bitsOf_append, bytesOf_bitsN_16]

/-- Settles O43: the message vector is the block and a 16-bit field. -/
theorem packResult : Obligations.PackResult := by
  intro s spare crc block field
  calc exec (.ldpcPack spare crc block) s = done s.params.ldpcK (bytesOf (packMessage block spare crc)) s := rfl
    _ = _ := by rw [done_eq, bytesOf_packMessage, Params.ldpcK]

/-! ## Codewords -/

theorem length_xorBits (a b : Bits) (h : a.length = b.length) : (xorBits a b).length = b.length := by
  rw [xorBits, List.length_zipWith, h, Nat.min_self]

/-- Adding selected rows of one length keeps that length (R244). -/
theorem length_foldl_xorBits {n : Nat} (rows : List (Bool × Bits)) (acc : Bits) (hacc : acc.length = n)
    (hrows : ∀ x ∈ rows, x.2.length = n) :
    (rows.foldl (fun acc x => if x.1 then xorBits acc x.2 else acc) acc).length = n := by
  induction rows generalizing acc with
  | nil => exact hacc
  | cons x rows ih =>
    rw [List.forall_mem_cons] at hrows
    refine ih _ ?_ hrows.2
    dsimp only
    split
    · rw [length_xorBits _ _ (hacc.trans hrows.1.symm), hrows.1]
    · exact hacc

theorem length_parityOf (hP : isMatrix p.ldpcK p.parityBits p.ldpcP = true) (m : Bits) :
    (parityOf p m).length = p.parityBits := by
  simp only [isMatrix, Bool.and_eq_true, beq_iff_eq, List.all_eq_true] at hP
  exact length_foldl_xorBits _ _ (length_zeros _) fun x hx => hP.2 _ (List.of_mem_zip hx).2

/-- A codeword has `LDPC_N / 8` bytes (R107, R244). -/
theorem length_ldpcCodeword (hs : p.sizesLegal = true) {message : List Byte} (hlen : message.length = p.messageBytes) :
    (ldpcCodeword p message).length = p.ldpcN / 8 := by
  simp only [Params.sizesLegal, Params.blockBitsLegal, Params.ldpcNLegal, Params.matricesLegal, Bool.and_eq_true,
    beq_iff_eq, decide_eq_true_eq] at hs
  obtain ⟨⟨⟨⟨⟨hblock, -⟩, -⟩, ⟨hn, hk⟩, -⟩, hP, -⟩, -⟩ := hs
  refine (bitsOf_bytesOf _ _ ?_).2
  rw [codewordBits, List.length_append, length_bitsOf, length_parityOf hP, hlen]
  unfold Params.messageBytes Params.parityBits
  unfold Params.ldpcK at hk ⊢
  omega

/-! ## The channel encoder -/

/-- The bytes of the two tones of a codeword byte, high nibble first (R62, R104, R105). -/
def toneBytes (p : Params) (b : Byte) : List Byte :=
  [(p.grayTable.getD (b.toNat / 16) 0).setWidth 8, (p.grayTable.getD (b.toNat % 16) 0).setWidth 8]

theorem map_byteTones (p : Params) (b : Byte) : (byteTones p b).map symbolByte = toneBytes p b := by
  have hhigh : (b.extractLsb' 4 4).toNat = b.toNat / 16 := by rw [toNat_field]; omega
  have hlow : (b.extractLsb' 0 4).toNat = b.toNat % 16 := by rw [toNat_field]; omega
  simp only [byteTones, toneBytes, List.map_cons, List.map_nil, symbolByte, grayForward, hhigh, hlow]

theorem length_flatMap_toneBytes (p : Params) (bytes : List Byte) :
    (bytes.flatMap (toneBytes p)).length = 2 * bytes.length := by
  simp [toneBytes, List.length_flatMap, Nat.mul_comm]

/-- The symbols of a ChannelEncoding as bytes (R104, R105). -/
theorem map_channelSymbols (p : Params) (block : List Byte) : (channelSymbols p block).map symbolByte =
    0x10 :: (ldpcCodeword p (channelMessage block)).flatMap (toneBytes p) ++ [0x11] := by
  simp only [channelSymbols, List.cons_append, List.map_cons, List.map_append, List.map_flatMap, map_byteTones,
    List.map_nil, symbolByte]

/-- Settles O47: a block and its CRC field make a codeword, and each of its bytes makes two tones. -/
theorem channelEncodeResult : Obligations.ChannelEncodeResult := by
  intro s isEnd block hs hblock field codeword tones
  have hmessage : channelMessage block = block ++ [field.extractLsb' 8 8, field.extractLsb' 0 8] :=
    bytesOf_packMessage block 0 (crc14 block)
  have hbytes : (channelSymbols s.params block).map symbolByte = 0x10 :: tones ++ [0x11] := by
    rw [map_channelSymbols, hmessage]; rfl
  have hcodeword : codeword.length = s.params.ldpcN / 8 := by
    refine length_ldpcCodeword hs ?_
    simp only [List.length_append, List.length_cons, List.length_nil, hblock, Params.blockBytes, Params.messageBytes,
      Params.ldpcK]
    omega
  have htones : tones.length = s.params.ldpcN / 4 := by
    simp only [Params.sizesLegal, Params.ldpcNLegal, Bool.and_eq_true, beq_iff_eq] at hs
    have hpairs : tones.length = 2 * codeword.length := length_flatMap_toneBytes s.params codeword
    omega
  have hcount : (channelSymbols s.params block).length = 2 + s.params.ldpcN / 4 := by
    rw [← List.length_map symbolByte, hbytes]; simp [htones]; omega
  refine ⟨?_, htones⟩
  calc exec (.chanEncode isEnd block) s
      = done (isEnd.toNat * 2 ^ 16 + (channelSymbols s.params block).length)
          ((channelSymbols s.params block).map symbolByte) s := rfl
    _ = _ := by rw [done_eq, hbytes, hcount]; cases isEnd <;> rfl

end Sys2Proof.Machine
end

section
/-! PROOFS. Words of the opcode table (R83, R86, R101, R104). -/

namespace Sys2Proof

/-- Settles O8, by running the decoder. -/
theorem headerWordsDecode : Obligations.HeaderWordsDecode := by
  unfold Obligations.HeaderWordsDecode
  decide

end Sys2Proof
end

section
/-! PROOFS. The timing model and the delta arithmetic (R131 to R139). With `t = dit(w)` every delta bound of
R132 is written with `t` and numerals, and each band of R133 has one bit fewer for it than the band before. -/

namespace Sys2Proof

open Machine

variable {b m w : Nat} {d : Int} {s : State}

/-! ## Legal deltas -/

/-- The table of R138. -/
theorem legalDelta_eq_some_iff :
    legalDelta b = some m ↔ (b, m) ∈ [(5, 31), (6, 63), (7, 127), (8, 240), (9, 480)] := by
  unfold legalDelta
  split <;> simp_all [eq_comm]

theorem legalDelta_eq_none (hb : b < 5 ∨ 9 < b) : legalDelta b = none := by
  refine Option.eq_none_iff_forall_ne_some.2 fun m hm => ?_
  obtain ⟨hlow, hhigh, -⟩ := legalDelta_bounds hm
  omega

theorem exists_legalDelta (hlow : 5 ≤ b) (hhigh : b ≤ 9) : ∃ m, legalDelta b = some m := by
  interval_cases b
  all_goals exact ⟨_, rfl⟩

/-- A delta is legal for a width iff its magnitude is at most the width's `LEGAL` (R138). -/
theorem deltaFits_iff_natAbs_le (hm : legalDelta b = some m) : deltaFits d b = true ↔ d.natAbs ≤ m := by
  rw [deltaFits_iff, hm]
  simp only [Option.some.injEq, exists_eq_left']
  omega

/-! ## The timing model -/

theorem posDit_eq (w : Nat) : posDit w = dit w := by
  unfold posDit dah; omega

theorem negDah_eq (w : Nat) : negDah w = -(dit w - 1) := by
  unfold negDah dah; omega

theorem posDah_eq (w : Nat) : posDah w = 2 * dit w - 1 := by
  unfold posDah wordgap dah; omega

theorem negWordgap_eq (w : Nat) : negWordgap w = -(2 * dit w) := by
  unfold negWordgap wordgap dah; omega

theorem posWordgap_eq (w : Nat) : posWordgap w = min 367 (2 * (dit w : Int)) := by
  rw [posWordgap, negWordgap_eq, neg_neg]

/-- A faster keying has a shorter dit (R131). -/
theorem dit_anti {v w : Nat} (hv : 0 < v) (hvw : v ≤ w) : dit w ≤ dit v := Nat.div_le_div_left hvw hv

/-- The dit of a band is at most that of its slowest WPM, which is legal for the dit width of the band; twice the dit is
legal for one bit more (R133, R135). -/
theorem legalDelta_band (hlow : 5 ≤ w) :
    (∃ m, legalDelta (8 - band w) = some m ∧ dit w ≤ m) ∧
      ∃ m, legalDelta (9 - band w) = some m ∧ 2 * dit w ≤ m := by
  unfold band
  split_ifs with h9 h18 h37
  · have hdit : dit w ≤ 240 := dit_anti (by decide) hlow
    exact ⟨⟨240, rfl, hdit⟩, 480, rfl, by omega⟩
  · have hdit : dit w ≤ 120 := dit_anti (v := 10) (by decide) (by omega)
    exact ⟨⟨127, rfl, by omega⟩, 240, rfl, by omega⟩
  · have hdit : dit w ≤ 63 := dit_anti (v := 19) (by decide) (by omega)
    exact ⟨⟨63, rfl, hdit⟩, 127, rfl, by omega⟩
  · have hdit : dit w ≤ 31 := dit_anti (v := 38) (by decide) (by omega)
    exact ⟨⟨31, rfl, hdit⟩, 63, rfl, by omega⟩

/-- A delta of at most a dit fits the narrow width of its band: that of dits and of negative dah deltas (R133). -/
theorem deltaFits_of_le_dit (hlow : 5 ≤ w) (hd : d.natAbs ≤ dit w) : deltaFits d (8 - band w) = true := by
  obtain ⟨⟨m, hm, hdit⟩, -⟩ := legalDelta_band hlow
  exact (deltaFits_iff_natAbs_le hm).2 (hd.trans hdit)

/-- A delta of at most two dits fits the wide width of its band: that of wordgaps and of positive dah deltas (R133). -/
theorem deltaFits_of_le_two_dit (hlow : 5 ≤ w) (hd : d.natAbs ≤ 2 * dit w) : deltaFits d (9 - band w) = true := by
  obtain ⟨-, m, hm, hdit⟩ := legalDelta_band hlow
  exact (deltaFits_iff_natAbs_le hm).2 (hd.trans hdit)

/-- The sign of a dah delta picks the narrow or the wide width (R134). -/
theorem deltaFits_dahWidth (hlow : 5 ≤ w) (hneg : negDah w ≤ d) (hpos : d ≤ posDah w) :
    deltaFits d (dahWidth .signSelected w d) = true := by
  rw [negDah_eq] at hneg
  rw [posDah_eq] at hpos
  by_cases hsign : d < 0
  · rw [dahWidth, if_pos hsign]
    exact deltaFits_of_le_dit hlow (by omega)
  · rw [dahWidth, if_neg hsign]
    exact deltaFits_of_le_two_dit hlow (by omega)

/-- Settles O31: every bound is written with the dit, which is between 20 and 240 ms. -/
theorem deltaRangesFitWidths : Obligations.DeltaRangesFitWidths := by
  intro w hlow hhigh t
  have ht : t = dit w := rfl
  have hmin : 20 ≤ dit w := dit_anti (v := w) (w := 60) (by omega) hhigh
  have hmax : dit w ≤ 240 := dit_anti (by decide) hlow
  have hnegDit : negDit w = -(dit w) := rfl
  have hdah : dah w = 3 * dit w := rfl
  have hwordgap : wordgap w = 7 * dit w := rfl
  have hslowest : w = 5 → dit w = 240 := by rintro rfl; rfl
  refine ⟨?_, fun x hneg hpos => ?_, fun x => deltaFits_dahWidth hlow, fun x hneg hpos => ?_, ?_, ?_⟩
  · rw [posDit_eq, negDah_eq, posDah_eq, negWordgap_eq, posWordgap_eq]; omega
  · rw [posDit_eq] at hpos
    exact deltaFits_of_le_dit hlow (by omega)
  · rw [negWordgap_eq] at hneg
    rw [posWordgap_eq] at hpos
    exact deltaFits_of_le_two_dit hlow (by omega)
  · rw [posWordgap_eq]; omega
  · rw [posDit_eq, negDah_eq, posDah_eq, negWordgap_eq, posWordgap_eq]; omega

/-! ## `DELTA_ENC` -/

theorem exec_deltaEnc (bits : BitVec 4) (val : BitVec 16) : exec (.deltaEnc bits val) s = execDeltaEnc bits val s := rfl

theorem exec_deltaEnc_of_ok {bits : BitVec 4} {val : BitVec 16} {code : Nat}
    (h : deltaCode val.toInt bits.toNat = .ok code) :
    exec (.deltaEnc bits val) s = .next (answered code [] s) := by
  rw [← done_eq, exec_deltaEnc, execDeltaEnc, h]

theorem exec_deltaEnc_of_error {bits : BitVec 4} {val : BitVec 16} {e : ErrorKind}
    (h : deltaCode val.toInt bits.toNat = .error e) :
    exec (.deltaEnc bits val) s = .next (failed e s) := by
  rw [← raiseError_eq, exec_deltaEnc, execDeltaEnc, h]

/-- Settles O32: a legal delta has its two's complement as code, and there are two ways to have no code. -/
theorem deltaEncodeResult : Obligations.DeltaEncodeResult := by
  intro s bits val
  refine ⟨fun hwidth => exec_deltaEnc_of_error ?_, fun m hmem => ?_⟩
  · rw [deltaCode_eq, legalDelta_eq_none hwidth]
  · have hm := legalDelta_eq_some_iff.2 hmem
    refine ⟨fun hillegal => exec_deltaEnc_of_error ?_, fun hlegal => exec_deltaEnc_of_ok ?_⟩
    · rw [deltaCode_eq, hm]
      exact if_neg (Nat.not_le.2 hillegal)
    · exact deltaCode_of_fits ((deltaFits_iff_natAbs_le hm).2 hlegal)

/-! ## `DELTA_DEC` -/

/-- The two things `DeltaDecode` can do at a legal width (R137). -/
theorem deltaDecode_of_legalDelta (c : Nat) (hm : legalDelta b = some m) :
    deltaDecode c b = if 2 ^ (b + 1) ≤ c then .error .encodingRangeError
      else .ok (min 480 (max (-480) (BitVec.ofNat (b + 1) c).toInt)) := by
  rw [deltaDecode, hm]
  dsimp only
  split_ifs with hwide
  · rfl
  · have hvalue : (BitVec.ofNat (b + 1) c).toNat = c := by
      rw [BitVec.toNat_ofNat, Nat.mod_eq_of_lt (Nat.not_le.1 hwide)]
    rw [clamp, ← twos_toNat, hvalue]

theorem exec_deltaDec (bits : BitVec 4) (val : BitVec 16) : exec (.deltaDec bits val) s = execDeltaDec bits val s := rfl

theorem exec_deltaDec_of_ok {bits : BitVec 4} {val : BitVec 16} (h : deltaDecode val.toNat bits.toNat = .ok d) :
    exec (.deltaDec bits val) s = .next (answered (BitVec.ofInt 16 d).toNat [] s) := by
  rw [← done_eq, exec_deltaDec, execDeltaDec, h]; rfl

theorem exec_deltaDec_of_error {bits : BitVec 4} {val : BitVec 16} {e : ErrorKind}
    (h : deltaDecode val.toNat bits.toNat = .error e) :
    exec (.deltaDec bits val) s = .next (failed e s) := by
  rw [← raiseError_eq, exec_deltaDec, execDeltaDec, h]

/-- Settles O33: a code that fits its field is sign-extended and clamped. -/
theorem deltaDecodeResult : Obligations.DeltaDecodeResult := by
  intro s bits val
  refine ⟨fun hwidth => exec_deltaDec_of_error ?_, fun hlow hhigh => ?_⟩
  · rw [deltaDecode, legalDelta_eq_none hwidth]
  · obtain ⟨m, hm⟩ := exists_legalDelta hlow hhigh
    refine ⟨fun hwide => exec_deltaDec_of_error ?_, fun hfield => exec_deltaDec_of_ok ?_⟩
    · rw [deltaDecode_of_legalDelta _ hm, if_pos hwide]
    · rw [deltaDecode_of_legalDelta _ hm, if_neg (Nat.not_le.2 hfield)]

/-! ## The round trip -/

/-- The clamp does not act on a legal delta, whose code is its two's complement (R139). -/
theorem deltaDecode_of_fits (hfits : deltaFits d b = true) : deltaDecode (BitVec.ofInt (b + 1) d).toNat b = .ok d := by
  obtain ⟨m, hm, hneg, hpos⟩ := deltaFits_iff.1 hfits
  obtain ⟨-, -, -, -, hclamp⟩ := legalDelta_bounds hm
  rw [deltaDecode_of_legalDelta _ hm, if_neg (Nat.not_le.2 (BitVec.isLt _)), BitVec.ofNat_toNat, BitVec.setWidth_eq,
    toInt_of_deltaFits hfits]
  congr 1
  omega

/-- Settles O34: both commands hold the delta and its code in 16 bits. -/
theorem deltaRoundTrip : Obligations.DeltaRoundTrip := by
  intro s bits m d hmem hlegal
  have hm := legalDelta_eq_some_iff.2 hmem
  have hfits := (deltaFits_iff_natAbs_le hm).2 hlegal
  obtain ⟨-, hwidth, -, -, hclamp⟩ := legalDelta_bounds hm
  have hval : (BitVec.ofInt 16 d).toInt = d := BitVec.toInt_ofInt_eq_self (by decide) (by omega) (by omega)
  have hcode : ((BitVec.ofInt (bits.toNat + 1) d).setWidth 16).toNat = (BitVec.ofInt (bits.toNat + 1) d).toNat :=
    BitVec.toNat_setWidth_of_le (by omega)
  refine ⟨(BitVec.ofInt (bits.toNat + 1) d).setWidth 16, exec_deltaEnc_of_ok ?_, exec_deltaDec_of_ok ?_⟩
  · rw [hval, hcode, deltaCode_of_fits hfits]
  · rw [hcode, deltaDecode_of_fits hfits]

end Sys2Proof
end

section
/-! PROOFS. The builder's and the extractor's commands (R151, R154 to R156). Each command has one lemma for its `OK`
answer, in the model's `bitsN`, `bitsOf` and `num`; the round trip follows a whole sequence of adds, and a whole sequence
of takes, through the bits they place and drain. -/

namespace Sys2Proof.Machine

variable {s : State} {count : BitVec 5} {items : List (BitVec 5 × BitVec 16)}

/-! ## Bit strings, as the statements write them -/

/-- `bitsN` lists the low bits of a word, most significant first (R9, R61). -/
theorem bitsN_toNat_eq_map {w : Nat} (n : Nat) (v : BitVec w) :
    bitsN n v.toNat = (List.range n).map fun k => v.getLsbD (n - 1 - k) := by
  induction n with
  | zero => rfl
  | succ n ih =>
    have htail : ∀ k, n + 1 - 1 - (k + 1) = n - 1 - k := fun k => by omega
    rw [bitsN, ih, List.range_succ_eq_map, List.map_cons, List.map_map]
    simp only [Function.comp_def, Nat.succ_eq_add_one, htail]
    rfl

/-- `num` reads a bit string from its first bit on, doubling what it has read (R9). -/
theorem foldl_eq_num (bits : Bits) (acc : Nat) :
    bits.foldl (fun n b => 2 * n + b.toNat) acc = acc * 2 ^ bits.length + num bits := by
  induction bits generalizing acc with
  | nil => simp [num]
  | cons b bits ih => rw [List.foldl_cons, ih, num, List.length_cons, pow_succ]; ring

theorem num_zeros (n : Nat) : num (zeros n) = 0 := by
  induction n with
  | zero => rfl
  | succ n ih =>
    change false.toNat * 2 ^ (zeros n).length + num (zeros n) = 0
    rw [ih, Bool.toNat_false, Nat.zero_mul]

theorem zeros_split {k n : Nat} (h : k ≤ n) : zeros n = zeros k ++ zeros (n - k) := by
  rw [zeros, zeros, zeros, List.replicate_append_replicate, Nat.add_sub_of_le h]

/-- With status `OK`, which is 0, the response word is the result (R84, R330). -/
theorem okWord_eq {n : Nat} (h : n < 2 ^ 28) : 0#4 ++ BitVec.ofNat 28 n = BitVec.ofNat 32 n := by
  apply BitVec.eq_of_toNat_eq
  rw [toNat_append, BitVec.toNat_ofNat, BitVec.toNat_ofNat, BitVec.toNat_ofNat]
  omega

/-! ## The commands -/

theorem exec_bbAdd (count : BitVec 5) (value : BitVec 16) : exec (.bbAdd count value) s = execBbAdd count value s := rfl

theorem exec_exLoad (payload : List Byte) : exec (.exLoad payload) s = execExLoad payload s := rfl

theorem exec_exTake (count : BitVec 5) : exec (.exTake count) s = execExTake count s := rfl

/-- An add that fits appends its bits and answers the room left (R151). -/
theorem exec_bbAdd_of_fits (value : BitVec 16) (hcount : count.toNat ≤ 16)
    (hfits : s.bb.length + count.toNat ≤ s.params.blockBits) :
    exec (.bbAdd count value) s = .next (answered (s.params.blockBits - (s.bb.length + count.toNat)) []
      { s with bb := s.bb ++ bitsN count.toNat value.toNat }) := by
  rw [exec_bbAdd, execBbAdd, if_neg (Nat.not_lt.2 hcount), rawAppend_eq, length_bitsN, if_neg (Nat.not_lt.2 hfits)]

/-- A load that fits replaces the extractor and answers its number of bits (R154). -/
theorem exec_exLoad_of_fits {payload : List Byte} (hfits : payload.length ≤ s.params.blockBytes) :
    exec (.exLoad payload) s = .next (answered (8 * payload.length) [] { s with ex := bitsOf payload }) := by
  rw [exec_exLoad, execExLoad, if_neg (Nat.not_lt.2 hfits), done_eq]

/-- A take drains the bits it counts and answers the number they spell (R155). -/
theorem exec_exTake_of_append {taken rest : Bits} (hcount : count.toNat ≤ 16) (hex : s.ex = taken ++ rest)
    (hlen : taken.length = count.toNat) :
    exec (.exTake count) s = .next (answered (num taken) [] { s with ex := rest }) := by
  have henough : ¬s.ex.length < count.toNat := by rw [hex, List.length_append]; omega
  rw [exec_exTake, execExTake, if_neg (Nat.not_lt.2 hcount), if_neg henough, done_eq, hex, List.take_left' hlen,
    List.drop_left' hlen]

/-- Settles O35: the raw append answers in both of its cases. -/
theorem builderAddResult : Obligations.BuilderAddResult := by
  intro s count value
  refine ⟨fun hwide => ?_, fun hcount => ⟨fun hfull => ?_, fun hfits => ?_⟩⟩
  · rw [exec_bbAdd, execBbAdd, if_pos hwide, raiseError_eq]
  · rw [exec_bbAdd, execBbAdd, if_neg (Nat.not_lt.2 hcount), rawAppend_eq, length_bitsN, if_pos hfull]
  · rw [exec_bbAdd_of_fits value hcount hfits, bitsN_toNat_eq_map]

/-- Settles O36: the bits of the payload are those of its bytes, one after another. -/
theorem extractorLoadResult : Obligations.ExtractorLoadResult := by
  intro s payload
  refine ⟨fun hfits => ?_, fun hlong => ?_⟩
  · have hbytes : bitsOf payload = payload.flatMap fun b => (List.range 8).map fun k => b.getLsbD (7 - k) :=
      congrArg payload.flatMap (funext fun b => bitsN_toNat_eq_map 8 b)
    rw [exec_exLoad_of_fits hfits, hbytes]
  · rw [exec_exLoad, execExLoad, Params.blockBytes, if_pos hlong, raiseError_eq]

/-- Settles O37: the answer is the number that the drained bits spell. -/
theorem extractorTakeResult : Obligations.ExtractorTakeResult := by
  intro s count
  refine ⟨fun hwide => ?_, fun hcount => ⟨fun hfew => ?_, fun taken rest hex hlen => ?_⟩⟩
  · rw [exec_exTake, execExTake, if_pos hwide, raiseError_eq]
  · rw [exec_exTake, execExTake, if_neg (Nat.not_lt.2 hcount), if_pos hfew, raiseError_eq]
  · rw [exec_exTake_of_append hcount hex hlen, foldl_eq_num, Nat.zero_mul, Nat.zero_add]

/-! ## The round trip -/

/-- The bits that `BB_ADD` of each count and value places, one after another (R151, R156). -/
def itemBits (items : List (BitVec 5 × BitVec 16)) : Bits := items.flatMap fun x => bitsN x.1.toNat x.2.toNat

theorem itemBits_cons (x : BitVec 5 × BitVec 16) (items : List (BitVec 5 × BitVec 16)) :
    itemBits (x :: items) = bitsN x.1.toNat x.2.toNat ++ itemBits items := rfl

theorem length_itemBits (items : List (BitVec 5 × BitVec 16)) :
    (itemBits items).length = (items.map fun x => x.1.toNat).sum := by
  simp only [itemBits, List.length_flatMap, length_bitsN]

theorem performAll_cons {i : Instr} {is : List Instr} {s t : State} (h : exec i s = .next t) :
    performAll (i :: is) s = performAll is t := by rw [performAll, h]

/-- The invariants hold after any sequence of commands (R45). -/
theorem performAll_inv {is : List Instr} {s t : State} (hs : s.Inv) (h : performAll is s = .next t) : t.Inv := by
  induction is generalizing s with
  | nil => cases h; exact hs
  | cons i is ih =>
    rw [performAll] at h
    split at h
    next u hu => exact ih ((exec_updates hu).keep (P := State.Inv) (fun _ _ hupdate => hupdate.inv) hs) h
    next => cases h
    next => cases h

/-- Adds that fit together append all their bits (R151). -/
theorem performAll_bbAdd (hcounts : ∀ x ∈ items, x.1.toNat ≤ 16)
    (hfits : s.bb.length + (itemBits items).length ≤ s.params.blockBits) :
    ∃ t, performAll (items.map fun x => .bbAdd x.1 x.2) s = .next t ∧ t.bb = s.bb ++ itemBits items ∧
      t.params = s.params ∧ t.endPending = s.endPending := by
  induction items generalizing s with
  | nil => exact ⟨s, rfl, (List.append_nil _).symm, rfl, rfl⟩
  | cons x items ih =>
    obtain ⟨hcount, hcounts⟩ := List.forall_mem_cons.1 hcounts
    rw [itemBits_cons, List.length_append, length_bitsN] at hfits
    have hadd := exec_bbAdd_of_fits (s := s) x.2 hcount (by omega)
    obtain ⟨t, hrun, hbb, hparams, hend⟩ := ih (s := answered (s.params.blockBits - (s.bb.length + x.1.toNat)) []
      { s with bb := s.bb ++ bitsN x.1.toNat x.2.toNat }) hcounts
        (by simp only [answered_bb, answered_params, List.length_append, length_bitsN]; omega)
    refine ⟨t, ?_, ?_, hparams, hend⟩
    · rw [List.map_cons, performAll_cons hadd, hrun]
    · rw [hbb, answered_bb, itemBits_cons, List.append_assoc]

/-- The responses of takes that answer the values of the items (R84, R156). -/
def itemResponses (items : List (BitVec 5 × BitVec 16)) : List Byte :=
  items.flatMap fun x => be32 (BitVec.ofNat 32 (x.2.toNat % 2 ^ x.1.toNat))

theorem itemResponses_cons (x : BitVec 5 × BitVec 16) (items : List (BitVec 5 × BitVec 16)) :
    itemResponses (x :: items) = be32 (BitVec.ofNat 32 (x.2.toNat % 2 ^ x.1.toNat)) ++ itemResponses items := rfl

/-- Takes drain the bits of the items and answer their values, and touch only the extractor, the status and the
responses (R155). -/
theorem performAll_exTake {rest : Bits} (hcounts : ∀ x ∈ items, x.1.toNat ≤ 16) (hex : s.ex = itemBits items ++ rest) :
    ∃ status, performAll (items.map fun x => .exTake x.1) s =
      .next { s with ex := rest, lastStatus := status, output := s.output ++ itemResponses items } := by
  induction items generalizing s with
  | nil => exact ⟨s.lastStatus, by subst hex; simp [performAll, itemResponses]⟩
  | cons x items ih =>
    obtain ⟨hcount, hcounts⟩ := List.forall_mem_cons.1 hcounts
    rw [itemBits_cons, List.append_assoc] at hex
    have htake := exec_exTake_of_append hcount hex (length_bitsN _ _)
    have hvalue : x.2.toNat % 2 ^ x.1.toNat < 2 ^ 28 := (Nat.mod_le _ _).trans_lt (by omega)
    obtain ⟨status, hrun⟩ := ih (s := answered (num (bitsN x.1.toNat x.2.toNat)) []
      { s with ex := itemBits items ++ rest }) hcounts rfl
    refine ⟨status, ?_⟩
    rw [List.map_cons, performAll_cons htake, hrun, answered_output, num_bitsN, okWord_eq hvalue, List.append_nil,
      itemResponses_cons, List.append_assoc]
    rfl

/-- Of zeros a take drains zeros and answers 0 (R156). -/
theorem exec_exTake_zeros {k : Nat} (hcount : count.toNat ≤ 16) (hex : s.ex = zeros k) (hk : count.toNat ≤ k) :
    exec (.exTake count) s = .next (answered 0 [] { s with ex := s.ex.drop count.toNat }) := by
  have hsplit := hex.trans (zeros_split hk)
  rw [exec_exTake_of_append hcount hsplit (length_zeros _), num_zeros, hsplit, List.drop_left' (length_zeros _)]

/-- `SE_EMIT` of a builder that holds bits answers one block and its flags (R191, R193, R200). -/
theorem exec_seEmit_of_nonempty (h : s.bb ≠ []) :
    exec .seEmit s = .next (answered 1 (builtBlock s ++ [if s.endPending then 1 else 0])
      { s with bb := [], headerSent := false, endPending := false }) := by
  calc exec .seEmit s = doneEmitting (emit s).1 (emit s).2 := rfl
    _ = _ := by rw [doneEmitting_eq, emit_nonempty s h, records_single]; rfl

/-- A block is whole bytes, and its number of bits fits a result (R7, R84). -/
theorem State.Inv.blockBits_bounds (h : s.Inv) : 8 * s.params.blockBytes = s.params.blockBits ∧
    s.params.blockBits < 2 ^ 28 := by
  have hlegal := h.paramsLegal
  simp only [Params.legal, Params.sizesLegal, Params.blockBitsLegal, Bool.and_eq_true, beq_iff_eq,
    decide_eq_true_eq] at hlegal
  unfold Params.blockBytes
  omega

/-- Settles O38: the emitted block holds the bits of the items and a padding of zeros, which the takes drain in the same
order. -/
theorem extractorRoundTrip : Obligations.ExtractorRoundTrip := by
  intro s items hs hempty hcounts hpos hsum
  rw [← length_itemBits] at hpos hsum ⊢
  obtain ⟨hbytes, hsmall⟩ := hs.blockBits_bounds
  have hfits : s.bb.length + (itemBits items).length ≤ s.params.blockBits := by simpa [hempty] using hsum
  obtain ⟨t, hadds, hbb, hparams, hend⟩ := performAll_bbAdd hcounts hfits
  rw [hempty, List.nil_append] at hbb
  obtain ⟨hlen, hbits⟩ := builtBlockHoldsBuilder t (performAll_inv hs hadds)
  rw [hparams] at hlen hbits
  rw [hbb] at hbits
  refine ⟨t, builtBlock t, hadds, ?_, hlen, fun u hu => ?_⟩
  · rw [← hend]
    exact exec_seEmit_of_nonempty (by rw [hbb]; exact List.ne_nil_of_length_pos hpos)
  · have hload : exec (.exLoad (builtBlock t)) u = _ := exec_exLoad_of_fits (by rw [hlen, hu])
    rw [hlen, hbytes] at hload
    obtain ⟨last, htakes⟩ := performAll_exTake (s := answered s.params.blockBits []
      { u with ex := bitsOf (builtBlock t) }) hcounts hbits
    refine ⟨_, (performAll_cons hload).trans htakes, ?_, length_zeros _, fun b => List.eq_of_mem_replicate,
      fun n hn henough => exec_exTake_zeros hn rfl ?_⟩
    · rw [answered_output, okWord_eq hsmall, List.append_nil]
      rfl
    · simpa using henough

end Sys2Proof.Machine
end

section
/-! PROOFS. The keying encoder (R171 to R175). The classifier is a cascade of intervals of the duration, with bounds
that are multiples of `t = dit(w)`; what a frame holds, how long it is and what `KE_ENCODE` raises follow from it. -/

namespace Sys2Proof

open Machine

variable {policy : DahWidthPolicy} {w d : Nat} {s : State} {up : Bool} {dur : BitVec 16}

/-! ## The classifier's intervals -/

theorem cast_dah (w : Nat) : (dah w : Int) = 3 * dit w := Nat.cast_mul 3 (dit w)

theorem cast_wordgap (w : Nat) : (wordgap w : Int) = 7 * dit w := Nat.cast_mul 7 (dit w)

/-- A dit delta cannot be too low, since `neg_dit` reaches down to a duration of 0 (R132). -/
theorem ditRange_iff : negDit w ≤ (d : Int) - dit w ∧ (d : Int) - dit w ≤ posDit w ↔ d ≤ 2 * dit w := by
  rw [negDit, posDit_eq]
  omega

theorem dahRange_iff :
    negDah w ≤ (d : Int) - 3 * dit w ∧ (d : Int) - 3 * dit w ≤ posDah w ↔ 2 * dit w < d ∧ d < 5 * dit w := by
  rw [negDah_eq, posDah_eq]
  omega

theorem wordgapRange_iff : negWordgap w ≤ (d : Int) - 7 * dit w ∧ (d : Int) - 7 * dit w ≤ posWordgap w ↔
    5 * dit w ≤ d ∧ d ≤ 7 * dit w + min 367 (2 * dit w) := by
  rw [negWordgap_eq, posWordgap_eq]
  omega

/-- `Classify` (R171) with its delta ranges as intervals of the duration (R172). -/
theorem classify_eq (policy : DahWidthPolicy) (w d : Nat) : classify policy w d =
    if d = dit w then .ok (frame 6 [])
    else if d = 3 * dit w then .ok (frame 7 [])
    else if d = 7 * dit w then .ok (frame 8 [])
    else if d ≤ 2 * dit w then deltaDitFrame w ((d : Int) - dit w)
    else if 2 * dit w < d ∧ d < 5 * dit w then deltaDahFrame policy w ((d : Int) - 3 * dit w)
    else if 5 * dit w ≤ d ∧ d ≤ 7 * dit w + min 367 (2 * dit w) then deltaWordgapFrame w ((d : Int) - 7 * dit w)
    else if d ≤ 2047 then .ok (naiveFrame d)
    else .error .encodingRangeError := by
  simp only [classify, cast_dah, cast_wordgap, ditRange_iff, dahRange_iff, wordgapRange_iff]
  rfl

/-- The dit at the WPM of R23 is between 20 and 240 ms (R131). -/
theorem dit_bounds (hlow : 5 ≤ w) (hhigh : w ≤ 60) : 20 ≤ dit w ∧ dit w ≤ 240 :=
  ⟨dit_anti (v := w) (w := 60) (by omega) hhigh, dit_anti (by decide) hlow⟩

/-! ## The frame of each interval -/

theorem classify_dit : classify policy w (dit w) = .ok (frame 6 []) := if_pos rfl

theorem classify_dah (hpos : 0 < dit w) : classify policy w (3 * dit w) = .ok (frame 7 []) := by
  rw [classify_eq, if_neg (by omega), if_pos rfl]

theorem classify_wordgap (hpos : 0 < dit w) : classify policy w (7 * dit w) = .ok (frame 8 []) := by
  rw [classify_eq, if_neg (by omega), if_neg (by omega), if_pos rfl]

/-- A dit that is not perfect has a delta of at most a dit, which has a code (R135). -/
theorem classify_deltaDit (hlow : 5 ≤ w) (hle : d ≤ 2 * dit w) (hne : d ≠ dit w) :
    classify policy w d = .ok (frame 10 (deltaField (ditWidth w) ((d : Int) - dit w))) := by
  rw [classify_eq, if_neg hne, if_neg (by omega), if_neg (by omega), if_pos hle]
  exact deltaFrame_of_fits 10 (deltaFits_of_le_dit hlow (by omega))

/-- A dah that is not perfect, at the width that R134 selects for its delta. -/
theorem classify_deltaDah (hlow : 5 ≤ w) (hgt : 2 * dit w < d) (hlt : d < 5 * dit w) (hne : d ≠ 3 * dit w) :
    classify .signSelected w d =
      .ok (frame 11 (deltaField (dahWidth .signSelected w ((d : Int) - 3 * dit w)) ((d : Int) - 3 * dit w))) := by
  obtain ⟨hneg, hpos⟩ := dahRange_iff.2 ⟨hgt, hlt⟩
  rw [classify_eq, if_neg (by omega), if_neg hne, if_neg (by omega), if_neg (by omega), if_pos ⟨hgt, hlt⟩]
  exact deltaFrame_of_fits 11 (deltaFits_dahWidth hlow hneg hpos)

/-- A wordgap that is not perfect has a delta of at most two dits, which has a code (R135). -/
theorem classify_deltaWordgap (hlow : 5 ≤ w) (hpos : 0 < dit w) (hge : 5 * dit w ≤ d)
    (hle : d ≤ 7 * dit w + min 367 (2 * dit w)) (hne : d ≠ 7 * dit w) :
    classify policy w d = .ok (frame 12 (deltaField (wordgapWidth w) ((d : Int) - 7 * dit w))) := by
  rw [classify_eq, if_neg (by omega), if_neg (by omega), if_neg hne, if_neg (by omega), if_neg (by omega),
    if_pos ⟨hge, hle⟩]
  exact deltaFrame_of_fits 12 (deltaFits_of_le_two_dit hlow (by omega))

/-- Past the last delta range there is the naive frame, up to the 11 bits it has for a duration (R172). -/
theorem classify_long (hgt : 7 * dit w + min 367 (2 * dit w) < d) :
    classify policy w d = if d ≤ 2047 then .ok (naiveFrame d) else .error .encodingRangeError := by
  rw [classify_eq, if_neg (by omega), if_neg (by omega), if_neg (by omega), if_neg (by omega), if_neg (by omega),
    if_neg (by omega)]

/-- No delta range reaches a duration of more than 11 bits (R135, R172). -/
theorem classify_out_of_range (hlow : 5 ≤ w) (hhigh : w ≤ 60) (hd : 2047 < d) :
    classify policy w d = .error .encodingRangeError := by
  obtain ⟨-, hdit⟩ := dit_bounds hlow hhigh
  rw [classify_long (by omega), if_neg (by omega)]

theorem dahWidth_of_neg {delta : Int} (h : delta < 0) : dahWidth .signSelected w delta = dahNegWidth w := if_pos h

theorem dahWidth_of_nonneg {delta : Int} (h : 0 ≤ delta) : dahWidth .signSelected w delta = dahPosWidth w :=
  if_neg (Int.not_lt.2 h)

/-- Settles O29: one lemma for each interval, with the sign of a dah delta selecting its width. -/
theorem classificationByIntervals : Obligations.ClassificationByIntervals := by
  intro w d hlow hhigh _ t c coded
  obtain ⟨hmin, -⟩ := dit_bounds hlow hhigh
  have ht : t = dit w := rfl
  refine ⟨?dit, ?dah, ?wordgap, ?deltaDit, ?shortDah, ?longDah, ?deltaWordgap, ?naive, ?tooLong⟩
  case dit => rintro rfl; exact classify_dit
  case dah => rintro rfl; exact classify_dah (by omega)
  case wordgap => rintro rfl; exact classify_wordgap (by omega)
  case deltaDit => exact classify_deltaDit hlow
  case shortDah =>
    intro hge hlt
    rw [ht, ← dahWidth_of_neg (w := w) (delta := (d : Int) - 3 * dit w) (by omega)]
    exact classify_deltaDah hlow (by omega) (by omega) (by omega)
  case longDah =>
    intro hgt hle
    rw [ht, ← dahWidth_of_nonneg (w := w) (delta := (d : Int) - 3 * dit w) (by omega)]
    exact classify_deltaDah hlow (by omega) (by omega) (by omega)
  case deltaWordgap => exact classify_deltaWordgap hlow (by omega)
  case naive => exact fun hgt hle => (classify_long hgt).trans (if_pos hle)
  case tooLong => exact classify_out_of_range hlow hhigh

/-! ## Frame lengths -/

theorem band_le_three (w : Nat) : band w ≤ 3 := by
  unfold band
  split_ifs <;> decide

theorem length_naiveFrame (d : Nat) : (naiveFrame d).length = 15 := by
  rw [naiveFrame, frame, List.length_append, length_bitsN, length_bitsN]

/-- Settles O30: a delta frame has its tag, a sign and the bits of its width, which is 8 or 9 less the band. -/
theorem frameLengthsByBand : Obligations.FrameLengthsByBand := by
  intro w d f hlow hhigh hf t b
  obtain ⟨hmin, hmax⟩ := dit_bounds hlow hhigh
  have hmost : f.length ≤ 15 := classify_length_le hf
  have ht : t = dit w := rfl
  have hb : b = band w := rfl
  have hband := band_le_three w
  refine ⟨?_, hmost, Nat.add_le_add_left hmost 11⟩
  rw [classify_eq] at hf
  split_ifs at hf with hdit hdah hwordgap hdeltaDit hdeltaDah hdeltaWordgap hnaive
  · cases hf; rw [if_pos (.inl hdit)]; rfl
  · cases hf; rw [if_pos (.inr (.inl hdah))]; rfl
  · cases hf; rw [if_pos (.inr (.inr hwordgap))]; rfl
  · rw [deltaFrame_length hf, ditWidth, if_neg (by omega), if_pos (by omega)]
    omega
  · rw [deltaFrame_length hf, if_neg (by omega)]
    by_cases hshort : d < 3 * t
    · rw [if_pos hshort, dahWidth_of_neg (by omega), dahNegWidth]
      omega
    · rw [if_neg hshort, if_pos (by omega), dahWidth_of_nonneg (by omega), dahPosWidth]
      omega
  · rw [deltaFrame_length hf, wordgapWidth, if_neg (by omega), if_neg (by omega), if_pos (by omega)]
    omega
  · cases hf
    rw [if_neg (by omega), if_neg (by omega), if_neg (by omega)]
    exact length_naiveFrame d

/-! ## `KE_ENCODE` -/

theorem exec_keEncode : exec (.keEncode up dur) s = execKeEncode up dur s := rfl

theorem exec_keEncode_of_unset (hwpm : s.wpm = none) :
    exec (.keEncode up dur) s = .next (failed .configurationError s) := by
  rw [← raiseError_eq, exec_keEncode, execKeEncode, hwpm]

theorem exec_keEncode_of_error {e : ErrorKind} (hwpm : s.wpm = some w)
    (hc : classify s.params.dahPolicy w dur.toNat = .error e) :
    exec (.keEncode up dur) s = .next (failed e s) := by
  rw [← raiseError_eq, exec_keEncode, execKeEncode, hwpm]
  simp only [hc]

/-- The two things `KE_ENCODE` can do with a frame (R175). -/
theorem exec_keEncode_of_ok {f : Bits} (hbb : s.bb.length ≤ s.params.blockBits) (hwpm : s.wpm = some w)
    (hc : classify s.params.dahPolicy w dur.toNat = .ok f) :
    exec (.keEncode up dur) s = .next (if s.params.blockBits < s.bb.length + f.length then answered 0 [] s
      else answered 1 [] { s with bb := s.bb ++ f }) := by
  have hroom : s.remaining < f.length ↔ s.params.blockBits < s.bb.length + f.length := by
    unfold State.remaining; omega
  have hrun : exec (.keEncode up dur) s = if s.remaining < f.length then done (fitResult false) [] s
      else appendThen f s fun t => done (fitResult true) [] t := by
    rw [exec_keEncode, execKeEncode, hwpm]
    simp only [hc]
  simp only [hrun, hroom]
  split_ifs with hfull
  · exact done_eq s _ _
  · rw [appendThen_fits s (Nat.not_lt.1 hfull)]
    exact done_eq _ _ _

/-- Settles O28: the invariants bound the WPM, so a duration of more than 11 bits has no frame. -/
theorem keyEncodeResult : Obligations.KeyEncodeResult := by
  intro s up dur hs
  refine ⟨exec_keEncode_of_unset, fun hset hlong => ?_, fun w f hwpm hc => ⟨fun hfull => ?_, fun hfits => ?_⟩⟩
  · obtain ⟨w, hwpm⟩ := Option.ne_none_iff_exists'.1 hset
    obtain ⟨hlow, hhigh⟩ := hs.wpmLegal w hwpm
    exact exec_keEncode_of_error hwpm (classify_out_of_range hlow hhigh hlong)
  · rw [exec_keEncode_of_ok hs.builderFits hwpm hc, if_pos hfull]
  · rw [exec_keEncode_of_ok hs.builderFits hwpm hc, if_neg (Nat.not_lt.2 hfits)]

end Sys2Proof
end

section
/-! PROOFS. The source encoder (R190 to R203). A flush followed by a header always leaves the same state, a fresh block
(`freshBlock`). Each half of `SE_TIMED` gets one equation per case; with room in the fresh block for any frame (R195),
each statement takes one case of each half. -/

namespace Sys2Proof.Machine

variable {s : State} {w : Nat} {up : Bool} {dur : BitVec 16} {f : Bits} {out : List BlockRecord}
  {next : List BlockRecord → State → Result}

/-! ## `SE_START` and `SE_SET_SPEED` -/

/-- Settles O19: the command is `done` in the state with the polarity set. -/
theorem startSetsMark : Obligations.StartSetsMark := fun s => done_eq { s with polarity := true } 0 []

theorem exec_seSetSpeed (wpm : BitVec 6) : exec (.seSetSpeed wpm) s = execSeSetSpeed wpm s := rfl

/-- Settles O20: the two branches of the range check. -/
theorem setSpeedResult : Obligations.SetSpeedResult := by
  intro s wpm
  refine ⟨fun hlegal => ?_, fun hillegal => ?_⟩
  · rw [exec_seSetSpeed, execSeSetSpeed, if_neg (by omega), done_eq]
  · rw [exec_seSetSpeed, execSeSetSpeed, if_pos hillegal, raiseError_eq]

/-! ## `SE_EMIT` -/

/-- `SE_EMIT` answers what `Emit()` gives (R193, R200). -/
theorem exec_seEmit :
    exec .seEmit s = .next (answered (emit s).1.length (records (emit s).1) (emit s).2) := doneEmitting_eq _ _

/-- `SE_EMIT` of an empty builder answers no block (R200). -/
theorem exec_seEmit_of_empty (hempty : s.bb = []) : exec .seEmit s = .next (answered 0 [] s) := by
  rw [exec_seEmit, emit_empty s hempty]
  rfl

/-- `Emit()` gives at most one block (R191). -/
theorem length_emit_le_one (s : State) : (emit s).1.length ≤ 1 := by
  by_cases hempty : s.bb = []
  · simp [emit_empty s hempty]
  · simp [emit_nonempty s hempty]

/-- Settles O21: `Build` pads the builder's bits with zeros. -/
theorem emitResult : Obligations.EmitResult := fun _ => ⟨exec_seEmit_of_empty, exec_seEmit_of_nonempty⟩

/-- Settles O22: the first emission leaves an empty builder. -/
theorem emitTwiceEmitsOnce : Obligations.EmitTwiceEmitsOnce := by
  intro s
  have hcount := length_emit_le_one s
  have hempty := emit_bb s
  have hresponse : (emit s).2.output = s.output := (emit_unanswered s).output_eq
  refine ⟨_, (emit s).1.length, records (emit s).1, hcount, exec_seEmit, hempty, ?_, exec_seEmit_of_empty hempty⟩
  rw [answered_output, hresponse, okWord_eq (by omega)]

/-! ## Room in the builder -/

theorem State.remaining_lt_iff (hbb : s.bb.length ≤ s.params.blockBits) (n : Nat) :
    s.remaining < n ↔ s.params.blockBits < s.bb.length + n := by
  unfold State.remaining
  omega

theorem State.not_remaining_lt {n : Nat} (hfits : s.bb.length + n ≤ s.params.blockBits) : ¬s.remaining < n := by
  unfold State.remaining
  omega

/-- A builder that lacks room for what an empty block has room for holds bits. -/
theorem bb_ne_nil_of_full {n : Nat} (hn : n ≤ s.params.blockBits) (hfull : s.params.blockBits < s.bb.length + n) :
    s.bb ≠ [] := by
  intro hempty
  rw [hempty, List.length_nil] at hfull
  omega

/-- After an emission there is the room of an empty block (R191). -/
theorem room_after_emit {n : Nat} (hn : n ≤ s.params.blockBits) :
    (emit s).2.bb.length + n ≤ (emit s).2.params.blockBits := by
  obtain ⟨hparams, -⟩ := emit_frame s
  rw [emit_bb, hparams, List.length_nil, Nat.zero_add]
  exact hn

/-! ## `SE_END` -/

/-- The last step of `SE_END`: `KeyingEnd` is appended and the next emitted block marked (R196). -/
def finishEnd (out : List BlockRecord) (s : State) : Result :=
  appendThen (frame 9 []) s fun t => doneEmitting out { t with endPending := true }

/-- `SE_END` is a flush, if it needs one, and the last step (R196). -/
theorem exec_seEnd :
    exec .seEnd s = if s.remaining < 4 then finishEnd (emit s).1 (emit s).2 else finishEnd [] s := by
  change execSeEnd s = _
  unfold execSeEnd
  split <;> rfl

theorem finishEnd_fits (hfits : s.bb.length + 4 ≤ s.params.blockBits) :
    finishEnd out s =
      .next (answered out.length (records out) { s with bb := s.bb ++ frame 9 [], endPending := true }) := by
  have hframe : s.bb.length + (frame 9 []).length ≤ s.params.blockBits := hfits
  rw [finishEnd, appendThen_fits s hframe, doneEmitting_eq]

/-- `SE_END` with room for `KeyingEnd` (R196). -/
theorem exec_seEnd_of_fits (hfits : s.bb.length + 4 ≤ s.params.blockBits) :
    exec .seEnd s = .next (answered 0 [] { s with bb := s.bb ++ frame 9 [], endPending := true }) := by
  rw [exec_seEnd, if_neg (State.not_remaining_lt hfits), finishEnd_fits hfits]
  rfl

/-- `SE_END` without room for `KeyingEnd`: the next block begins with it (R196). -/
theorem exec_seEnd_of_full (hroom : s.HasRoom) (hfull : s.params.blockBits < s.bb.length + 4) :
    exec .seEnd s = .next (answered 1 (builtBlock s ++ [flagsByte s.endPending])
      { s with bb := frame 9 [], headerSent := false, endPending := true }) := by
  obtain ⟨hbb, hblock⟩ := hroom
  have hholds : s.bb ≠ [] := bb_ne_nil_of_full (by omega) hfull
  rw [exec_seEnd, if_pos ((State.remaining_lt_iff hbb 4).2 hfull), finishEnd_fits (room_after_emit (by omega)),
    emit_nonempty s hholds, records_single]
  rfl

/-- Settles O24: `KeyingEnd` is the tag 9 alone. -/
theorem endResult : Obligations.EndResult := fun _ hs => ⟨exec_seEnd_of_fits, exec_seEnd_of_full hs.hasRoom⟩

/-! ## `SE_TIMED`: errors -/

theorem exec_seTimed : exec (.seTimed up dur) s = execSeTimed up dur s := rfl

theorem exec_seTimed_of_unset (hwpm : s.wpm = none) :
    exec (.seTimed up dur) s = .next (failed .configurationError s) := by
  rw [← raiseError_eq, exec_seTimed, execSeTimed, hwpm]

theorem exec_seTimed_of_error {e : ErrorKind} (hwpm : s.wpm = some w)
    (hc : classify s.params.dahPolicy w dur.toNat = .error e) :
    exec (.seTimed up dur) s = .next (failed e s) := by
  rw [← raiseError_eq, exec_seTimed, execSeTimed, hwpm]
  simp only [hc]

/-- Settles O25: the invariants bound the WPM, so a duration of more than 11 bits has no frame. -/
theorem timedRaises : Obligations.TimedRaises := by
  intro s up dur hs
  refine ⟨exec_seTimed_of_unset, fun hset hlong => ?_⟩
  obtain ⟨w, hwpm⟩ := Option.ne_none_iff_exists'.1 hset
  obtain ⟨hlow, hhigh⟩ := hs.wpmLegal w hwpm
  exact exec_seTimed_of_error hwpm (classify_out_of_range hlow hhigh hlong)

/-! ## `SE_TIMED`: the steps of R194 -/

/-- The last step of `SE_TIMED`: the frame is appended, the polarity flips and the command answers (R194). -/
def finishTimed (f : Bits) (out : List BlockRecord) (s : State) : Result :=
  appendThen f s fun t => doneEmitting out { t with polarity := !t.polarity }

/-- The state with a header appended to the block (R194). -/
def withHeader (w : Nat) (s : State) : State := { s with bb := s.bb ++ headerBits w s, headerSent := true }

theorem length_withHeader (w : Nat) (s : State) : (withHeader w s).bb.length = s.bb.length + 11 := by
  simp [withHeader]

/-- The state after a flush and the header that begins the next block (R191, R194). -/
def freshBlock (w : Nat) (s : State) : State :=
  { s with bb := headerBits w s, headerSent := true, endPending := false }

/-- A fresh block has room for any frame (R195). -/
theorem room_in_freshBlock (w : Nat) (hblock : 26 ≤ s.params.blockBits) (hf : f.length ≤ 15) :
    (freshBlock w s).bb.length + f.length ≤ (freshBlock w s).params.blockBits :=
  have hlen : (freshBlock w s).bb.length = 11 := length_headerBits s w
  calc (freshBlock w s).bb.length + f.length ≤ 11 + 15 := Nat.add_le_add hlen.le hf
    _ ≤ s.params.blockBits := hblock

/-- With a WPM and a frame, `SE_TIMED` is its two halves and the last step (R194). -/
theorem exec_seTimed_of_ok (hwpm : s.wpm = some w) (hc : classify s.params.dahPolicy w dur.toNat = .ok f) :
    exec (.seTimed up dur) s = ensureHeader w s fun out u => ensureRoom w f out u (finishTimed f) := by
  rw [exec_seTimed, execSeTimed, hwpm]
  simp only [hc]
  rfl

theorem finishTimed_fits (hfits : s.bb.length + f.length ≤ s.params.blockBits) :
    finishTimed f out s =
      .next (answered out.length (records out) { s with bb := s.bb ++ f, polarity := !s.polarity }) := by
  rw [finishTimed, appendThen_fits s hfits, doneEmitting_eq]

theorem finishTimed_freshBlock (hblock : 26 ≤ s.params.blockBits) (hf : f.length ≤ 15) :
    finishTimed f out (freshBlock w s) = .next (answered out.length (records out)
      { s with bb := headerBits w s ++ f, headerSent := true, endPending := false, polarity := !s.polarity }) := by
  rw [finishTimed_fits (room_in_freshBlock w hblock hf)]
  rfl

/-- A flush of a builder that holds bits, then a header (R191, R194). -/
theorem appendHeaderThen_emit {next : State → Result} (hblock : 26 ≤ s.params.blockBits) (hholds : s.bb ≠ []) :
    appendHeaderThen w (emit s).2 next = next (freshBlock w s) := by
  rw [appendHeaderThen_fits _ (room_after_emit (by omega)), emit_nonempty s hholds]
  rfl

theorem ensureHeader_sent (hsent : s.headerSent = true) : ensureHeader w s next = next [] s := by
  rw [ensureHeader_eq, if_pos hsent]

theorem ensureHeader_fits (hsent : s.headerSent = false) (hfits : s.bb.length + 11 ≤ s.params.blockBits) :
    ensureHeader w s next = next [] (withHeader w s) := by
  rw [ensureHeader_eq, hsent, if_neg Bool.false_ne_true, if_neg (State.not_remaining_lt hfits),
    appendHeaderThen_fits s hfits, withHeader]

theorem ensureHeader_full (hroom : s.HasRoom) (hsent : s.headerSent = false)
    (hfull : s.params.blockBits < s.bb.length + 11) :
    ensureHeader w s next = next [⟨builtBlock s, s.endPending⟩] (freshBlock w s) := by
  obtain ⟨hbb, hblock⟩ := hroom
  have hholds : s.bb ≠ [] := bb_ne_nil_of_full (by omega) hfull
  rw [ensureHeader_eq, hsent, if_neg Bool.false_ne_true, if_pos ((State.remaining_lt_iff hbb 11).2 hfull),
    appendHeaderThen_emit hblock hholds, emit_nonempty s hholds]

theorem ensureRoom_fits (hfits : s.bb.length + f.length ≤ s.params.blockBits) :
    ensureRoom w f out s next = next out s := by
  rw [ensureRoom, if_neg (State.not_remaining_lt hfits)]

theorem ensureRoom_full (hroom : s.HasRoom) (hf : f.length ≤ 15) (hfull : s.params.blockBits < s.bb.length + f.length) :
    ensureRoom w f out s next = next (out ++ [⟨builtBlock s, s.endPending⟩]) (freshBlock w s) := by
  obtain ⟨hbb, hblock⟩ := hroom
  have hholds : s.bb ≠ [] := bb_ne_nil_of_full (by omega) hfull
  rw [ensureRoom, if_pos ((State.remaining_lt_iff hbb _).2 hfull), appendHeaderThen_emit hblock hholds,
    emit_nonempty s hholds]

theorem ensureRoom_freshBlock (hblock : 26 ≤ s.params.blockBits) (hf : f.length ≤ 15) :
    ensureRoom w f out (freshBlock w s) next = next out (freshBlock w s) :=
  ensureRoom_fits (room_in_freshBlock w hblock hf)

/-- Where the second half flushes, the next block holds a header and the frame (R194, R195). -/
theorem ensureRoom_finishTimed_full (hroom : s.HasRoom) (hf : f.length ≤ 15)
    (hfull : s.params.blockBits < s.bb.length + f.length) :
    ensureRoom w f [] s (finishTimed f) = .next (answered 1 (builtBlock s ++ [flagsByte s.endPending])
      { s with bb := headerBits w s ++ f, headerSent := true, endPending := false, polarity := !s.polarity }) := by
  have ⟨_, hblock⟩ := hroom
  rw [ensureRoom_full hroom hf hfull, finishTimed_freshBlock hblock hf, List.nil_append, records_single]
  rfl

/-! ## `SE_TIMED`: results -/

/-- Settles O26: both halves find room. -/
theorem timedWithinBlock : Obligations.TimedWithinBlock := by
  intro s up dur w f _ hwpm hc
  refine ⟨fun hsent hfits => ?_, fun hsent hfits => ?_⟩
  · rw [exec_seTimed_of_ok hwpm hc, ensureHeader_sent hsent, ensureRoom_fits hfits, finishTimed_fits hfits]
    rfl
  · have hframe : (withHeader w s).bb.length + f.length ≤ (withHeader w s).params.blockBits := by
      rw [length_withHeader]; exact hfits
    rw [exec_seTimed_of_ok hwpm hc, ensureHeader_fits hsent (by omega), ensureRoom_fits hframe,
      finishTimed_fits hframe]
    rfl

/-- Settles O27: a block is flushed by the second half, which finds a header in it, or by the first. -/
theorem timedFlushesOneBlock : Obligations.TimedFlushesOneBlock := by
  intro s up dur w f hs hwpm hc header after flags
  have hroom := hs.hasRoom
  have ⟨_, hblock⟩ := hroom
  have hf : f.length ≤ 15 := classify_length_le hc
  rw [exec_seTimed_of_ok hwpm hc]
  refine ⟨fun hsent hfull => ?frame, fun hsent hfull => ?header, fun hsent hheader hfull => ?frameAfterHeader⟩
  case frame =>
    rw [ensureHeader_sent hsent, ensureRoom_finishTimed_full hroom hf hfull]
    rfl
  case header =>
    rw [ensureHeader_full hroom hsent hfull, ensureRoom_freshBlock hblock hf, finishTimed_freshBlock hblock hf,
      records_single]
    rfl
  case frameAfterHeader =>
    have hfull' : (withHeader w s).params.blockBits < (withHeader w s).bb.length + f.length := by
      rw [length_withHeader]; exact hfull
    have hroom' : (withHeader w s).HasRoom := ⟨(length_withHeader w s).trans_le hheader, hblock⟩
    rw [ensureHeader_fits hsent hheader, ensureRoom_finishTimed_full hroom' hf hfull']
    rfl

end Sys2Proof.Machine
end

section
/-! PROOFS. CRC-14 (R220 to R225). The table answers eight steps at once because a step of polynomial division is
linear over GF(2); the check finds one flipped bit because a step loses nothing: `POLY` has a constant term. -/

namespace Sys2Proof.Machine

variable {s : State} {r : BitVec 14}

/-! ## One step of the division -/

/-- What a step subtracts, by the bit that leaves the remainder: `POLY` or nothing (R221). -/
def crcReduction (b : Bool) : BitVec 14 := if b then crcPoly else 0

theorem crcReduction_xor (b c : Bool) : crcReduction (xor b c) = crcReduction b ^^^ crcReduction c := by
  cases b <;> cases c <;> decide

theorem crcStep_eq (r : BitVec 14) : crcStep r = (r <<< 1) ^^^ crcReduction r[13] := by
  cases h : r[13] <;> simp [crcStep, crcReduction, h]

theorem crcBit_eq (r : BitVec 14) (b : Bool) : crcBit r b = (r <<< 1) ^^^ crcReduction (xor r[13] b) := by
  cases h : xor r[13] b <;> simp [crcBit, crcReduction, crcPoly, h]

/-- The constant term of `POLY` shows in bit 0 whether a step subtracted it (R220). -/
theorem getElem_zero_crcBit (r : BitVec 14) (b : Bool) : (crcBit r b)[0] = xor r[13] b := by
  have hconstant : ∀ c, (crcReduction c)[0] = c := by decide
  rw [crcBit_eq, BitVec.getElem_xor, hconstant]
  simp

/-- A step is linear over GF(2). -/
theorem crcStep_xor (r q : BitVec 14) : crcStep (r ^^^ q) = crcStep r ^^^ crcStep q := by
  rw [crcStep_eq, crcStep_eq, crcStep_eq, BitVec.getElem_xor, crcReduction_xor, BitVec.shiftLeft_xor_distrib]
  ac_rfl

theorem crcSteps_xor (n : Nat) (r q : BitVec 14) : crcSteps n (r ^^^ q) = crcSteps n r ^^^ crcSteps n q := by
  induction n generalizing r q with
  | zero => rfl
  | succ n ih => rw [crcSteps, crcStep_xor, ih]; rfl

theorem crcSteps_zero (n : Nat) : crcSteps n 0 = 0 := by
  induction n with
  | zero => rfl
  | succ n ih => exact ih

/-- Steps that move no bit out of the remainder only shift it. -/
theorem crcSteps_of_lt {n : Nat} (h : r.toNat * 2 ^ n < 2 ^ 14) : crcSteps n r = r <<< n := by
  induction n generalizing r with
  | zero => simp [crcSteps]
  | succ n ih =>
    have hdouble : r.toNat * 2 * 2 ^ n < 2 ^ 14 := by rwa [Nat.mul_assoc, ← Nat.pow_succ']
    have hlow : r.toNat * 2 < 2 ^ 14 := (Nat.le_mul_of_pos_right _ (Nat.two_pow_pos n)).trans_lt hdouble
    have htop : r[13] = false := Nat.testBit_lt_two_pow (show r.toNat < 2 ^ 13 by omega)
    have hstep : crcStep r = r <<< 1 := by rw [crcStep, htop]; rfl
    have hvalue : (r <<< 1).toNat = r.toNat * 2 := by
      rw [BitVec.toNat_shiftLeft, Nat.shiftLeft_eq, Nat.pow_one, Nat.mod_eq_of_lt hlow]
    rw [crcSteps, hstep, ih (by rwa [hvalue]), ← BitVec.shiftLeft_add, Nat.add_comm 1 n]

/-! ## The table and the bits of a byte -/

/-- Dividing by up to 14 bits one at a time is adding them all at the top of the remainder first (R221, R222). -/
theorem foldl_crcBit_bitsN {n : Nat} (hn : n ≤ 14) (v : Nat) (r : BitVec 14) :
    (bitsN n v).foldl crcBit r = crcSteps n (r ^^^ BitVec.ofNat 14 v <<< (14 - n)) := by
  induction n generalizing r with
  | zero => simp [bitsN, crcSteps]
  | succ n ih =>
    have htop : (BitVec.ofNat 14 v <<< (13 - n))[13] = v.testBit n := by
      rw [BitVec.getElem_shiftLeft, ← BitVec.getLsbD_eq_getElem, BitVec.getLsbD_ofNat]
      simp [show ¬13 < 13 - n by omega, show 13 - (13 - n) = n by omega, show n < 14 by omega]
    have hshift : BitVec.ofNat 14 v <<< (13 - n) <<< 1 = BitVec.ofNat 14 v <<< (14 - n) := by
      rw [← BitVec.shiftLeft_add, show 13 - n + 1 = 14 - n by omega]
    have hstep : crcBit r (v.testBit n) ^^^ BitVec.ofNat 14 v <<< (14 - n) =
        crcStep (r ^^^ BitVec.ofNat 14 v <<< (13 - n)) := by
      rw [crcBit_eq, crcStep_eq, BitVec.getElem_xor, htop, BitVec.shiftLeft_xor_distrib, hshift]
      ac_rfl
    rw [bitsN, List.foldl_cons, ih (by omega), hstep, show 14 - (n + 1) = 13 - n by omega]
    rfl

/-- The table answers for the eight bits that leave the remainder; the other six only move up (R221, R222). -/
theorem crcFold_eq_crcSteps (r : BitVec 14) (d : Byte) : crcFold r d = crcSteps 8 (r ^^^ d.setWidth 14 <<< 6) := by
  have hsplit : r ^^^ d.setWidth 14 <<< 6 =
      ((d ^^^ (r >>> 6).setWidth 8).setWidth 14 <<< 6) ^^^ (r.setWidth 6).setWidth 14 := by
    ext i hi
    by_cases h : i < 6
    · simp [h, BitVec.getLsbD_eq_getElem hi]
    · simp [h, show i - 6 < 8 by omega, show 6 + (i - 6) = i by omega, BitVec.getLsbD_eq_getElem hi, Bool.xor_comm]
  have hlow : crcSteps 8 ((r.setWidth 6).setWidth 14) = r <<< 8 := by
    have hsmall : ((r.setWidth 6).setWidth 14).toNat < 2 ^ 6 := by
      rw [BitVec.toNat_setWidth]; exact (Nat.mod_le _ _).trans_lt (BitVec.isLt _)
    rw [crcSteps_of_lt (by omega)]
    ext i hi
    simp [BitVec.getLsbD_eq_getElem (show i - 8 < 14 by omega), show i - 8 < 6 by omega]
  rw [hsplit, crcSteps_xor, hlow, crcFold, crcTable]

theorem crcFold_eq_foldl (r : BitVec 14) (d : Byte) : crcFold r d = (byteBits d).foldl crcBit r := by
  rw [crcFold_eq_crcSteps, byteBits, foldl_crcBit_bitsN (by decide), BitVec.ofNat_toNat]

/-- The table-driven fold is bitwise division (R222). -/
theorem crc14_eq_foldl (data : List Byte) : crc14 data = (bitsOf data).foldl crcBit 0 := by
  rw [crc14, bitsOf, List.foldl_flatMap]
  exact congrArg (fun f => data.foldl f 0) (funext fun r => funext (crcFold_eq_foldl r))

/-- Settles O39: each byte of the fold is eight bits of the division. -/
theorem crcIsPolynomialDivision : Obligations.CrcIsPolynomialDivision := by
  intro s data
  calc exec (.crc14 data) s = done (crc14 data).toNat [] s := rfl
    _ = _ := by rw [done_eq, crc14_eq_foldl]

/-! ## `CRC14_CHECK` -/

theorem exec_crc14Check (data : List Byte) :
    exec (.crc14Check data) s = .next (answered (correctResult (crc14 data)) [] s) :=
  done_eq s (correctResult (crc14 data)) []

theorem exec_crc14Check_of_zero {data : List Byte} (h : crc14 data = 0) :
    exec (.crc14Check data) s = .next (answered 1 [] s) := by
  rw [exec_crc14Check, h]; rfl

theorem exec_crc14Check_of_ne_zero {data : List Byte} (h : crc14 data ≠ 0) :
    exec (.crc14Check data) s = .next (answered 0 [] s) := by
  have hresult : correctResult (crc14 data) = 0 := by rw [correctResult, beq_eq_false_iff_ne.2 h, Bool.toNat_false]
  rw [exec_crc14Check, hresult]

/-- Settles O40: the check answers in both of its cases. -/
theorem crcCheckResult : Obligations.CrcCheckResult :=
  fun _ _ => ⟨exec_crc14Check_of_zero, exec_crc14Check_of_ne_zero⟩

/-! ## An appended CRC -/

/-- A remainder divided by its own 14 bits leaves nothing (R225). -/
theorem foldl_crcBit_bitsN_self (c : BitVec 14) : (bitsN 14 c.toNat).foldl crcBit c = 0 := by
  have hcancel : c ^^^ BitVec.ofNat 14 c.toNat <<< (14 - 14) = 0 := by simp
  rw [foldl_crcBit_bitsN (le_refl 14), hcancel, crcSteps_zero]

/-- Settles O41: the CRC cancels the remainder of the message, and two zero bits keep it 0. -/
theorem appendedCrcVerifies : Obligations.AppendedCrcVerifies := by
  intro s m field
  have hfield : bitsOf [field.extractLsb' 8 8, field.extractLsb' 0 8] =
      bitsN 14 (crc14 m).toNat ++ bitsN 2 (0#2).toNat := by
    rw [bitsN_append, ← bytesOf_bitsN_16, (bitsOf_bytesOf 2 _ (length_bitsN 16 _)).1]
  have hbits : bitsOf (m ++ [field.extractLsb' 8 8, field.extractLsb' 0 8]) =
      bitsOf m ++ (bitsN 14 (crc14 m).toNat ++ bitsN 2 (0#2).toNat) := by
    rw [← hfield]; exact List.flatMap_append
  apply exec_crc14Check_of_zero
  rw [crc14_eq_foldl, hbits, List.foldl_append, List.foldl_append, ← crc14_eq_foldl, foldl_crcBit_bitsN_self]
  rfl

/-! ## One inverted bit -/

/-- A step tells remainders apart: bit 0 shows what left the remainder, the other bits what stayed. -/
theorem crcBit_injective (b : Bool) : Function.Injective fun r => crcBit r b := by
  intro r q h
  have htop : r[13] = q[13] := by
    simpa [getElem_zero_crcBit] using congrArg (fun x : BitVec 14 => x[0]) h
  have hshift : r <<< 1 = q <<< 1 := by simpa [crcBit_eq, htop] using h
  ext i hi
  by_cases hlast : i = 13
  · subst hlast; exact htop
  · have hmoved := congrArg (fun x : BitVec 14 => x.getLsbD (i + 1)) hshift
    simpa [show i + 1 < 14 by omega, BitVec.getLsbD_eq_getElem hi] using hmoved

/-- A step tells the two values of its bit apart. -/
theorem crcBit_not_ne (r : BitVec 14) (b : Bool) : crcBit r (!b) ≠ crcBit r b := by
  intro h
  have hbit := congrArg (fun x : BitVec 14 => x[0]) h
  simp [getElem_zero_crcBit] at hbit

theorem foldl_crcBit_injective (bits : Bits) : Function.Injective fun r => bits.foldl crcBit r := by
  induction bits with
  | nil => exact fun _ _ h => h
  | cons b bits ih => exact ih.comp (crcBit_injective b)

/-- Bit strings that differ in one bit have different remainders. -/
theorem foldl_crcBit_flipBit_ne {bits : Bits} {k : Nat} (hk : k < bits.length) (r : BitVec 14) :
    (flipBit k bits).foldl crcBit r ≠ bits.foldl crcBit r := by
  have hflip : flipBit k bits = bits.take k ++ (!bits[k]) :: bits.drop (k + 1) := List.modify_eq_take_cons_drop hk
  have hbits : bits.take k ++ bits[k] :: bits.drop (k + 1) = bits := by simp
  have hdiffer : (bits.take k ++ (!bits[k]) :: bits.drop (k + 1)).foldl crcBit r ≠
      (bits.take k ++ bits[k] :: bits.drop (k + 1)).foldl crcBit r := by
    rw [List.foldl_append, List.foldl_append]
    exact fun h => crcBit_not_ne _ _ (foldl_crcBit_injective _ h)
  rwa [← hflip, hbits] at hdiffer

/-- Settles O42: data that passes has remainder 0, so inverted data has another. -/
theorem crcDetectsSingleBitFlips : Obligations.CrcDetectsSingleBitFlips := by
  intro s data k hpass hk
  have hlen : (flipBit k (bitsOf data)).length = 8 * data.length := by
    rw [flipBit, List.length_modify, length_bitsOf]
  apply exec_crc14Check_of_ne_zero
  rw [crc14_eq_foldl, (bitsOf_bytesOf _ _ hlen).1]
  rw [crc14_eq_foldl] at hpass
  exact fun hzero => foldl_crcBit_flipBit_ne (by rwa [length_bitsOf]) 0 (hzero.trans hpass.symm)

end Sys2Proof.Machine
end

section
/-! PROOFS. The LDPC encoder (R240 to R246). Everything about the parity bits follows from one identity over GF(2): a
scalar product with the parity `m · LDPC_P` is the scalar product of `m` with the products of the rows of `LDPC_P`. A
unit vector in it gives each parity bit of R244, a row of `LDPC_H` gives the parity check of R243. -/

namespace Sys2Proof.Machine

variable {p : Params}

/-! ## Sums of bit strings -/

/-- The product is linear in its second factor (R240). -/
theorem gf2Dot_xorBits (v : Bits) {a b : Bits} (h : a.length = b.length) :
    gf2Dot v (xorBits a b) = xor (gf2Dot v a) (gf2Dot v b) := by
  induction v generalizing a b with
  | nil => simp [gf2Dot]
  | cons x v ih =>
    cases a with
    | nil => cases List.length_eq_zero_iff.1 h.symm; simp [xorBits]
    | cons y a =>
      cases b with
      | nil => cases h
      | cons z b =>
        have htail := ih (Nat.succ.inj h)
        rw [xorBits, List.zipWith_cons_cons, gf2Dot_cons, gf2Dot_cons, gf2Dot_cons, ← xorBits, htail,
          Bool.and_xor_distrib_left, Bool.xor_assoc, Bool.xor_assoc, Bool.xor_left_comm (x && z)]

/-- The bit string of a sum is the sum of the bit strings (R9). -/
theorem bitsN_xor (n v w : Nat) : bitsN n (v ^^^ w) = xorBits (bitsN n v) (bitsN n w) := by
  induction n with
  | zero => rfl
  | succ n ih => rw [bitsN, ih, Nat.testBit_xor]; rfl

theorem bitsOf_zipWith_xor (a b : List Byte) : bitsOf (List.zipWith (· ^^^ ·) a b) = xorBits (bitsOf a) (bitsOf b) := by
  induction a generalizing b with
  | nil => rfl
  | cons x a ih =>
    cases b with
    | nil => simp [bitsOf, xorBits]
    | cons y b =>
      calc bitsOf (List.zipWith (· ^^^ ·) (x :: a) (y :: b))
          = byteBits (x ^^^ y) ++ bitsOf (List.zipWith (· ^^^ ·) a b) := rfl
        _ = xorBits (byteBits x) (byteBits y) ++ xorBits (bitsOf a) (bitsOf b) := by
            rw [ih, byteBits, BitVec.toNat_xor, bitsN_xor]; rfl
        _ = xorBits (byteBits x ++ bitsOf a) (byteBits y ++ bitsOf b) :=
            (List.zipWith_append (by rw [length_byteBits, length_byteBits])).symm

theorem bitsOf_zeros (n : Nat) : bitsOf (List.replicate n 0) = zeros (8 * n) := by
  induction n with
  | zero => rfl
  | succ n ih =>
    calc bitsOf (List.replicate (n + 1) 0) = zeros 8 ++ bitsOf (List.replicate n 0) := rfl
      _ = zeros (8 * (n + 1)) := by rw [ih, zeros, zeros, ← List.replicate_add, Nat.mul_succ, Nat.add_comm]; rfl

theorem bitsOf_injective : Function.Injective bitsOf :=
  Function.LeftInverse.injective (g := bytesOf) bytesOf_bitsOf

/-! ## Parity bits -/

theorem isMatrix_iff {rows columns : Nat} {m : List Bits} :
    isMatrix rows columns m = true ↔ m.length = rows ∧ ∀ r ∈ m, r.length = columns := by
  simp [isMatrix]

/-- A product with a sum of selected rows: the selection times the products of the rows. -/
theorem gf2Dot_foldl_zip {n : Nat} (v m : Bits) (rows : List Bits) (acc : Bits) (hacc : acc.length = n)
    (hrows : ∀ r ∈ rows, r.length = n) :
    gf2Dot v ((m.zip rows).foldl (fun acc x => if x.1 then xorBits acc x.2 else acc) acc) =
      xor (gf2Dot v acc) (gf2Dot m (rows.map (gf2Dot v))) := by
  induction m generalizing rows acc with
  | nil => simp [gf2Dot]
  | cons b m ih =>
    cases rows with
    | nil => simp
    | cons r rows =>
      rw [List.forall_mem_cons] at hrows
      obtain ⟨hr, hrows⟩ := hrows
      rw [List.zip_cons_cons, List.foldl_cons, List.map_cons, gf2Dot_cons]
      cases b with
      | false => simpa using ih rows acc hacc hrows
      | true =>
        have hlen : acc.length = r.length := hacc.trans hr.symm
        have hsum := ih rows (xorBits acc r) ((length_xorBits _ _ hlen).trans hr) hrows
        rw [gf2Dot_xorBits v hlen] at hsum
        simpa using hsum

/-- `v · (m · LDPC_P) = m · (LDPC_P · v)` over GF(2) (R240, R244). -/
theorem gf2Dot_parityOf (hP : isMatrix p.ldpcK p.parityBits p.ldpcP = true) (v m : Bits) :
    gf2Dot v (parityOf p m) = gf2Dot m (p.ldpcP.map (gf2Dot v)) := by
  rw [parityOf, gf2Dot_foldl_zip v m _ _ (length_zeros _) (isMatrix_iff.1 hP).2, gf2Dot_zeros, Bool.false_xor]

/-- A parity bit is the product of the message with a column of `LDPC_P` (R244). -/
theorem getElem_parityOf (hP : isMatrix p.ldpcK p.parityBits p.ldpcP = true) (m : Bits) {j : Nat}
    (hj : j < (parityOf p m).length) :
    (parityOf p m)[j] = gf2Dot m (p.ldpcP.map fun r => r.getD j false) := by
  have hcolumn : p.ldpcP.map (gf2Dot (zeros j ++ true :: zeros 0)) = p.ldpcP.map fun r => r.getD j false := by
    refine List.map_congr_left fun r hr => ?_
    rw [gf2Dot_comm, gf2Dot_unit r j 0 (by rwa [(isMatrix_iff.1 hP).2 r hr, ← length_parityOf hP m])]
  calc (parityOf p m)[j] = (parityOf p m).getD j false := (List.getD_eq_getElem _ _ hj).symm
    _ = gf2Dot (zeros j ++ true :: zeros 0) (parityOf p m) := by rw [gf2Dot_comm, gf2Dot_unit _ j 0 hj]
    _ = _ := by rw [gf2Dot_parityOf hP, hcolumn]

/-- A product as a sum over positions (R240). -/
theorem gf2Dot_eq_foldl_range (a b : Bits) {n : Nat} (ha : a.length = n) (hb : b.length = n) :
    gf2Dot a b = (List.range n).foldl (fun acc i => xor acc (a.getD i false && b.getD i false)) false := by
  have hterms : List.zipWith (· && ·) a b = (List.range n).map fun i => a.getD i false && b.getD i false := by
    apply List.ext_getElem
    · simp [ha, hb]
    · intro i hi _
      rw [List.length_zipWith, ha, hb, Nat.min_self] at hi
      simp [ha, hb, hi]
  rw [gf2Dot, hterms, List.foldl_map]

/-- The sum of R244 is the product of the message with a column of `LDPC_P`. -/
theorem parityBit_eq_gf2Dot (hP : p.ldpcP.length = p.ldpcK) {m : Bits} (hm : m.length = p.ldpcK) (j : Nat) :
    parityBit p m j = gf2Dot m (p.ldpcP.map fun r => r.getD j false) := by
  rw [gf2Dot_eq_foldl_range m _ hm (by rw [List.length_map, hP]), parityBit]
  refine List.foldl_ext _ _ _ fun acc i hi => ?_
  have hrow : i < p.ldpcP.length := by rw [hP]; exact List.mem_range.1 hi
  simp [List.getD_eq_getElem?_getD, hrow]

/-- The parity of a sum is the sum of the parities (R245). -/
theorem parityOf_xorBits (hP : isMatrix p.ldpcK p.parityBits p.ldpcP = true) {a b : Bits} (h : a.length = b.length) :
    parityOf p (xorBits a b) = xorBits (parityOf p a) (parityOf p b) := by
  apply List.ext_getElem
  · have hlen : (parityOf p a).length = (parityOf p b).length := by rw [length_parityOf hP, length_parityOf hP]
    rw [length_xorBits _ _ hlen, length_parityOf hP, length_parityOf hP]
  · intro j hj _
    rw [getElem_parityOf hP, gf2Dot_comm, gf2Dot_xorBits _ h]
    simp only [xorBits, List.getElem_zipWith, getElem_parityOf hP, gf2Dot_comm]

theorem parityOf_zeros (hP : isMatrix p.ldpcK p.parityBits p.ldpcP = true) (n : Nat) :
    parityOf p (zeros n) = zeros p.parityBits := by
  apply List.ext_getElem
  · rw [length_parityOf hP, length_zeros]
  · intro j hj _
    rw [getElem_parityOf hP, gf2Dot_comm, gf2Dot_zeros]
    exact (List.getElem_replicate _).symm

/-! ## Codewords as bits -/

/-- The sizes that a codeword needs, from the legal ones (R7). -/
theorem codeSizes_of_sizesLegal (hs : p.sizesLegal = true) :
    8 * p.messageBytes = p.ldpcK ∧ 8 * (p.ldpcN / 8) = p.ldpcN ∧ p.ldpcK + p.parityBits = p.ldpcN ∧
      isMatrix p.ldpcK p.parityBits p.ldpcP = true := by
  simp only [Params.sizesLegal, Params.blockBitsLegal, Params.ldpcNLegal, Params.matricesLegal, Bool.and_eq_true,
    beq_iff_eq, decide_eq_true_eq] at hs
  obtain ⟨⟨⟨⟨⟨hblock, -⟩, -⟩, ⟨hn, hk⟩, -⟩, hP, -⟩, -⟩ := hs
  simp only [Params.messageBytes, Params.parityBits, Params.ldpcK] at hk ⊢
  exact ⟨by omega, by omega, by omega, hP⟩

/-- The bits of a codeword are the message and its parity (R107, R240). -/
theorem bitsOf_ldpcCodeword (hs : p.sizesLegal = true) {message : List Byte} (hlen : message.length = p.messageBytes) :
    bitsOf (ldpcCodeword p message) = bitsOf message ++ parityOf p (bitsOf message) := by
  obtain ⟨hk, hn, hsum, hP⟩ := codeSizes_of_sizesLegal hs
  refine (bitsOf_bytesOf (p.ldpcN / 8) _ ?_).1
  rw [codewordBits, List.length_append, length_bitsOf, length_parityOf hP, hlen]
  omega

theorem exec_ldpcEncode (message : List Byte) (s : State) :
    exec (.ldpcEncode message) s = .next (answered s.params.ldpcN (ldpcCodeword s.params message) s) :=
  done_eq s s.params.ldpcN (ldpcCodeword s.params message)

/-- Settles O44: the bits of the codeword are the message and the parity, whose bits are the sums of R244. -/
theorem ldpcEncodeResult : Obligations.LdpcEncodeResult := by
  intro s message hs hlen
  obtain ⟨hk, -, -, hP⟩ := codeSizes_of_sizesLegal hs
  have hbits : (bitsOf message).length = s.params.ldpcK := by rw [length_bitsOf, hlen, hk]
  have hmessage : message.length = s.params.ldpcK / 8 := hlen
  refine ⟨_, exec_ldpcEncode message s, length_ldpcCodeword hs hlen, ?_, fun j hj => ?_⟩
  · rw [ldpcCodeword, codewordBits, bytesOf_bitsOf_append, List.take_left' hmessage]
  · rw [← length_parityOf hP (bitsOf message)] at hj
    rw [bitsOf_ldpcCodeword hs hlen, ← hbits, List.getElem?_append_right (Nat.le_add_right _ _), Nat.add_sub_cancel_left,
      List.getElem?_eq_getElem hj, getElem_parityOf hP, parityBit_eq_gf2Dot (isMatrix_iff.1 hP).1 hbits]

/-- Settles O45: message and parity are both linear in the message, and bytes add bit by bit. -/
theorem ldpcEncodingIsLinear : Obligations.LdpcEncodingIsLinear := by
  intro p a b hs ha hb
  obtain ⟨hk, hn, hsum, hP⟩ := codeSizes_of_sizesLegal hs
  have hlen : (List.zipWith (· ^^^ ·) a b).length = p.messageBytes := by rw [List.length_zipWith, ha, hb, Nat.min_self]
  have hbits : (bitsOf a).length = (bitsOf b).length := by rw [length_bitsOf, length_bitsOf, ha, hb]
  constructor
  · apply bitsOf_injective
    rw [bitsOf_zipWith_xor, bitsOf_ldpcCodeword hs hlen, bitsOf_ldpcCodeword hs ha, bitsOf_ldpcCodeword hs hb,
      bitsOf_zipWith_xor, parityOf_xorBits hP hbits]
    exact (List.zipWith_append hbits).symm
  · apply bitsOf_injective
    rw [bitsOf_ldpcCodeword hs (List.length_replicate ..), bitsOf_zeros, bitsOf_zeros, parityOf_zeros hP, hk, hn, ← hsum]
    exact List.replicate_append_replicate

/-! ## Parity checks -/

/-- A row that checks the generator starts with the products of its own end with the rows of `LDPC_P` (R242, R243). -/
theorem take_eq_map_gf2Dot_drop (hP : isMatrix p.ldpcK p.parityBits p.ldpcP = true) {row : Bits}
    (hrow : row.length = p.ldpcN) (hsize : p.ldpcK ≤ p.ldpcN) (hchecks : ∀ g ∈ p.generatorRows, gf2Dot row g = false) :
    row.take p.ldpcK = p.ldpcP.map (gf2Dot (row.drop p.ldpcK)) := by
  have hcount := (isMatrix_iff.1 hP).1
  have htake : (row.take p.ldpcK).length = p.ldpcK := by rw [List.length_take, hrow, Nat.min_eq_left hsize]
  apply List.ext_getElem
  · rw [htake, List.length_map, hcount]
  · intro i hi hi'
    have hlt : i < p.ldpcP.length := by simpa using hi'
    have hunit : (zeros i ++ true :: zeros (p.ldpcK - 1 - i)).length = p.ldpcK := by simp; omega
    have hcheck := hchecks _ (List.mem_mapIdx.2 ⟨i, hlt, rfl⟩)
    rw [← List.take_append_drop p.ldpcK row, gf2Dot_append _ _ (htake.trans hunit.symm), gf2Dot_unit _ _ _ hi,
      List.getD_eq_getElem _ _ hi] at hcheck
    rw [List.getElem_map]
    simpa using hcheck

/-- A row that checks the generator checks every codeword (R243). -/
theorem gf2Dot_codeword (hP : isMatrix p.ldpcK p.parityBits p.ldpcP = true) {row m : Bits} (hrow : row.length = p.ldpcN)
    (hsize : p.ldpcK ≤ p.ldpcN) (hchecks : ∀ g ∈ p.generatorRows, gf2Dot row g = false) (hm : m.length = p.ldpcK) :
    gf2Dot row (m ++ parityOf p m) = false := by
  have htake : (row.take p.ldpcK).length = m.length := by rw [List.length_take, hrow, hm, Nat.min_eq_left hsize]
  calc gf2Dot row (m ++ parityOf p m)
      = gf2Dot (row.take p.ldpcK ++ row.drop p.ldpcK) (m ++ parityOf p m) := by rw [List.take_append_drop]
    _ = xor (gf2Dot (row.take p.ldpcK) m) (gf2Dot m (row.take p.ldpcK)) := by
        rw [gf2Dot_append _ _ htake, gf2Dot_parityOf hP, ← take_eq_map_gf2Dot_drop hP hrow hsize hchecks]
    _ = false := by rw [gf2Dot_comm, Bool.xor_self]

/-- Settles O46: a legal `LDPC_H` checks the generator, and so the codewords. -/
theorem codewordsSatisfyParityChecks : Obligations.CodewordsSatisfyParityChecks := by
  intro p message hlegal hlen row hrow
  obtain ⟨hs, hchecks⟩ := Bool.and_eq_true_iff.1 hlegal
  obtain ⟨hk, -, hsum, hP⟩ := codeSizes_of_sizesLegal hs
  have hH : isMatrix p.parityBits p.ldpcN p.ldpcH = true := by
    simp only [Params.sizesLegal, Params.matricesLegal, Bool.and_eq_true] at hs
    obtain ⟨⟨-, -, hH⟩, -⟩ := hs
    exact hH
  simp only [Params.parityChecks, List.all_eq_true, Bool.not_eq_true'] at hchecks
  rw [bitsOf_ldpcCodeword hs hlen]
  exact gf2Dot_codeword hP ((isMatrix_iff.1 hH).2 row hrow) (hsum ▸ Nat.le_add_right ..) (hchecks row hrow)
    (by rw [length_bitsOf, hlen, hk])

/-! ## The codeword of a block -/

/-- The packed message of a block as bits: the block, 2 spare bits and the CRC (R106, R271). -/
theorem bitsOf_channelMessage (block : List Byte) :
    bitsOf (channelMessage block) = bitsOf block ++ ([false, false] ++ bitsN 14 (crc14 block).toNat) := by
  have hlen : (packMessage block 0 (crc14 block)).length = 8 * (block.length + 2) := by
    simp only [packMessage, List.length_append, length_bitsOf, length_bitsN]; omega
  rw [channelMessage, (bitsOf_bytesOf _ _ hlen).1, packMessage, List.append_assoc]
  rfl

/-- Settles O48: the codeword starts with the block, the spare bits and the CRC, and its parity checks hold as for every
message. -/
theorem channelCodewordVerifies : Obligations.ChannelCodewordVerifies := by
  intro p block hlegal hblock c
  have hs : p.sizesLegal = true := (Bool.and_eq_true_iff.1 hlegal).1
  obtain ⟨hk, -, -, -⟩ := codeSizes_of_sizesLegal hs
  have hfield : ([false, false] ++ bitsN 14 (crc14 block).toNat).length = 16 := by simp
  have hbits : (bitsOf (channelMessage block)).length = (bitsOf block).length + 16 := by
    rw [bitsOf_channelMessage, List.length_append, hfield]
  have hsize : (bitsOf block).length = p.blockBits := by
    rw [length_bitsOf, hblock, Params.blockBytes]
    simp only [Params.messageBytes, Params.ldpcK] at hk
    omega
  have hlen : (channelMessage block).length = p.messageBytes := by
    rw [length_bitsOf] at hbits
    simp only [Params.ldpcK] at hk
    omega
  have hc : c = bitsOf block ++ ([false, false] ++ bitsN 14 (crc14 block).toNat ++
      parityOf p (bitsOf (channelMessage block))) := by
    rw [← List.append_assoc, ← bitsOf_channelMessage, ← bitsOf_ldpcCodeword hs hlen]
  refine ⟨codewordsSatisfyParityChecks p _ hlegal hlen, ?_, ?_⟩
  · have hmessage : c.take p.ldpcK = bitsOf block ++ [false, false] ++ bitsN 14 (crc14 block).toNat := by
      rw [hc, ← List.append_assoc, ← List.append_assoc]
      exact List.take_left' (by simp [hsize, Params.ldpcK])
    have hcrc : (bitsOf block ++ [false, false]).length = p.ldpcK - 14 := by simp [hsize, Params.ldpcK]
    have hblockBytes : bytesOf (c.take p.blockBits) = block := by rw [hc, List.take_left' hsize, bytesOf_bitsOf]
    rw [hmessage, List.drop_left' hcrc, num_bitsN, Nat.mod_eq_of_lt (crc14 block).isLt, hblockBytes]
  · rw [hc, List.drop_left' hsize]; rfl

end Sys2Proof.Machine
end

section
/-! PROOFS. The Gray mapper (R260 to R263). On a legal table `grayInverse` undoes `grayForward` because no entry comes
twice; that it is also undone by it follows because nibbles are finitely many. The commands are these two functions. -/

namespace Sys2Proof.Machine

variable {p : Params} {s : State} {nib : BitVec 8}

/-! ## The table and its inverse -/

/-- A legal table lists 16 different nibbles (R7, R260). -/
theorem grayTable_of_sizesLegal (hs : p.sizesLegal = true) : p.grayTable.length = 16 ∧ p.grayTable.Nodup := by
  simp only [Params.sizesLegal, Params.grayLegal, Bool.and_eq_true, beq_iff_eq, decide_eq_true_eq] at hs
  obtain ⟨-, ⟨hlen, hnodup⟩, -⟩ := hs
  exact ⟨hlen, hnodup⟩

/-- `GRAY_INV[GRAY_FWD[n]] = n`: an entry that comes once is found at its own place (R260). -/
theorem grayInverse_leftInverse (hs : p.sizesLegal = true) :
    Function.LeftInverse (grayInverse p) (grayForward p) := by
  intro n
  obtain ⟨hlen, hnodup⟩ := grayTable_of_sizesLegal hs
  have hn : n.toNat < p.grayTable.length := hlen ▸ n.isLt
  have hplace : (p.grayTable.findIdx fun x => x == p.grayTable[n.toNat]) = n.toNat := hnodup.idxOf_getElem _ hn
  rw [grayForward, List.getD_eq_getElem _ _ hn, grayInverse, hplace, BitVec.ofNat_toNat, BitVec.setWidth_eq]

/-- `GRAY_FWD[GRAY_INV[g]] = g`: 16 different nibbles are all of them (R260). -/
theorem grayInverse_rightInverse (hs : p.sizesLegal = true) :
    Function.RightInverse (grayInverse p) (grayForward p) := by
  have hfinite : Finite (BitVec 4) := .of_equiv _ BitVec.equivFin.toEquiv.symm
  have hleft := grayInverse_leftInverse hs
  exact hleft.rightInverse_of_surjective (Finite.injective_iff_surjective.1 hleft.injective)

/-! ## The commands -/

theorem exec_grayTo_range (hnib : 15 < nib.toNat) :
    exec (.grayTo nib) s = .next (failed .encodingRangeError s) :=
  (if_pos hnib).trans (raiseError_eq s _)

theorem exec_grayFrom_range (hnib : 15 < nib.toNat) :
    exec (.grayFrom nib) s = .next (failed .encodingRangeError s) :=
  (if_pos hnib).trans (raiseError_eq s _)

/-- Widening a nibble to the `nib` field of a command keeps its value (R261, R262). -/
theorem toNat_setWidth_nibble (g : BitVec 4) : (g.setWidth 8).toNat = g.toNat :=
  BitVec.toNat_setWidth_of_le (by decide)

theorem not_nibble_above (g : BitVec 4) : ¬15 < (g.setWidth 8).toNat := by
  rw [toNat_setWidth_nibble]; omega

/-- A `nib` field of at most 15 is a widened nibble. -/
theorem exists_nibble (hnib : nib.toNat ≤ 15) : ∃ g : BitVec 4, nib = g.setWidth 8 :=
  ⟨nib.setWidth 4, BitVec.eq_of_toNat_eq (by rw [toNat_setWidth_nibble, BitVec.toNat_setWidth]; omega)⟩

/-- A widened nibble, read back as a nibble. -/
theorem setWidth_nibble (g : BitVec 4) : (g.setWidth 8).setWidth 4 = g := by
  rw [BitVec.setWidth_setWidth_of_le _ (by decide), BitVec.setWidth_eq]

/-- `GRAY_TO` of a nibble (R261). -/
theorem exec_grayTo_nibble (g : BitVec 4) (s : State) :
    exec (.grayTo (g.setWidth 8)) s = .next (answered (grayForward s.params g).toNat [] s) :=
  calc exec (.grayTo (g.setWidth 8)) s
      = done (grayForward s.params ((g.setWidth 8).setWidth 4)).toNat [] s := if_neg (not_nibble_above g)
    _ = _ := by rw [done_eq, setWidth_nibble]

/-- `GRAY_FROM` of a nibble (R262). -/
theorem exec_grayFrom_nibble (g : BitVec 4) (s : State) :
    exec (.grayFrom (g.setWidth 8)) s = .next (answered (grayInverse s.params g).toNat [] s) :=
  calc exec (.grayFrom (g.setWidth 8)) s
      = done (grayInverse s.params ((g.setWidth 8).setWidth 4)).toNat [] s := if_neg (not_nibble_above g)
    _ = _ := by rw [done_eq, setWidth_nibble]

/-- Settles O49: a nibble above 15 fails the range check; on any other, `GRAY_FROM` finds the entry at its place. -/
theorem grayResults : Obligations.GrayResults := by
  intro s nib hs
  refine ⟨fun hnib => ⟨exec_grayTo_range hnib, exec_grayFrom_range hnib⟩, fun hnib => ?_⟩
  obtain ⟨g, rfl⟩ := exists_nibble hnib
  have hentry : s.params.grayTable.getD (g.setWidth 8).toNat 0 = grayForward s.params g := by
    rw [grayForward, toNat_setWidth_nibble]
  rw [hentry]
  refine ⟨exec_grayTo_nibble g s, ?_⟩
  rw [exec_grayFrom_nibble, grayInverse_leftInverse hs, toNat_setWidth_nibble]

/-- Settles O50: the second command meets the parameters of the first, whose table and inverse undo each other. -/
theorem grayRoundTrip : Obligations.GrayRoundTrip := by
  intro s n hs hn
  obtain ⟨g, rfl⟩ := exists_nibble hn
  refine ⟨⟨(grayForward s.params g).setWidth 8, ?_, ?_⟩, ⟨(grayInverse s.params g).setWidth 8, ?_, ?_⟩⟩
  · rw [exec_grayTo_nibble, toNat_setWidth_nibble]
  · rw [toNat_setWidth_nibble, exec_grayFrom_nibble, answered_params, grayInverse_leftInverse hs, toNat_setWidth_nibble]
  · rw [exec_grayFrom_nibble, toNat_setWidth_nibble]
  · rw [toNat_setWidth_nibble, exec_grayTo_nibble, answered_params, grayInverse_rightInverse hs, toNat_setWidth_nibble]

end Sys2Proof.Machine
end

section
/-! PROOFS. The modulator's command (R290 to R295) and its silence (R295). With no offset and only tones 0 the phase
stands still, so every approximation of a sample is exactly 0, and 0 rounds to a zero. -/

namespace Sys2Proof.Machine

variable {rd ru : Bool} {tones : List Byte} {s : State} {r : GfskRequest} {w : Word}

/-! ## The command -/

/-- The sample count of at least one tone (R292, R293). -/
theorem requestTotal_gfskRequest (hne : tones ≠ []) : requestTotal (gfskRequest rd ru tones s) =
    tones.length * (4 * s.sampleRate.toNat / 25) + (if ru then s.sampleRate.toNat / 50 else 0) +
      (if rd then s.sampleRate.toNat / 50 else 0) :=
  if_neg (mt List.length_eq_zero_iff.1 hne)

/-- With no tone there is nothing to check and nothing to play (R365, log 10). -/
theorem exec_gfskMod_nil (rd ru : Bool) (s : State) : exec (.gfskMod rd ru []) s = .next (answered 0 [] s) :=
  modulate_eq s rd ru []

/-- The first check: the sample rate (R291). -/
theorem exec_gfskMod_of_slow (hne : tones ≠ []) (hslow : s.sampleRate.toNat < 50) :
    exec (.gfskMod rd ru tones) s = .next (failed .configurationError s) :=
  calc exec (.gfskMod rd ru tones) s = modulate rd ru tones s := rfl
    _ = _ := by
      rw [modulate_eq, if_neg (mt List.isEmpty_iff.1 hne)]
      exact congrArg _ (if_pos hslow)

/-- The checks after that of the sample rate: the tones, then the capacity (R291). -/
theorem exec_gfskMod_of_rate (hne : tones ≠ []) (hrate : 50 ≤ s.sampleRate.toNat) :
    exec (.gfskMod rd ru tones) s = .next (
      if ∃ t ∈ tones, 15 < t.toNat then failed .encodingRangeError s
      else if s.outCapacity.toNat < requestTotal (gfskRequest rd ru tones s) then failed .capacityExceeded s
      else answered (requestTotal (gfskRequest rd ru tones s))
        ((waveform s.params.gfskTol (gfskRequest rd ru tones s)).flatMap be32) s) := by
  have hfast : ¬requestRate (gfskRequest rd ru tones s) < 50 := Nat.not_lt.2 hrate
  calc exec (.gfskMod rd ru tones) s = modulate rd ru tones s := rfl
    _ = _ := by
      rw [modulate_eq, if_neg (mt List.isEmpty_iff.1 hne), if_neg hfast]
      simp only [List.any_eq_true, decide_eq_true_eq]

theorem no_illegal_tone (hlegal : ∀ t ∈ tones, t.toNat ≤ 15) : ¬∃ t ∈ tones, 15 < t.toNat :=
  fun ⟨t, ht, hlt⟩ => absurd (hlegal t ht) (Nat.not_le.2 hlt)

/-- Settles O51: each check is reached when those before it pass. -/
theorem modulatorRaises : Obligations.ModulatorRaises := by
  intro s rd ru tones hne
  refine ⟨exec_gfskMod_of_slow hne, fun hrate hillegal => ?_, fun hrate hlegal hfull => ?_⟩
  · rw [exec_gfskMod_of_rate hne hrate, if_pos hillegal]
  · rw [← requestTotal_gfskRequest hne] at hfull
    rw [exec_gfskMod_of_rate hne hrate, if_neg (no_illegal_tone hlegal), if_pos hfull]

/-- Settles O52: when all checks pass the waveform is sent, which has as many samples as were counted. -/
theorem modulatorResult : Obligations.ModulatorResult := by
  intro s rd ru tones
  refine ⟨fun hnil => hnil ▸ exec_gfskMod_nil rd ru s, ?_⟩
  intro hne hrate hlegal total hroom
  have htotal : requestTotal (gfskRequest rd ru tones s) = total := requestTotal_gfskRequest hne
  refine ⟨_, ?_, rfl, ?_⟩
  · rw [length_waveform, htotal]
  · rw [exec_gfskMod_of_rate hne hrate, if_neg (no_illegal_tone hlegal), htotal, if_neg (Nat.not_lt.2 hroom)]

/-! ## Silence -/

/-- With only tones 0 the dummy symbols of the ramps are 0 too (R297). -/
theorem shapedSymbols_zero (hzero : ∀ t ∈ r.tones, t = 0) {x : ℤ × ℕ} (hx : x ∈ shapedSymbols r) : x.2 = 0 := by
  have htones : r.tones.map BitVec.toNat = List.replicate r.tones.length 0 := by
    rw [List.eq_replicate_iff]
    simpa using fun t ht => congrArg BitVec.toNat (hzero t ht)
  have hhead (n : ℕ) : (List.replicate n 0).headD 0 = 0 := by cases n <;> rfl
  have hlast (n : ℕ) : (List.replicate n 0).getLastD 0 = 0 := by
    rw [List.getLastD_eq_getLast?, List.getLast?_replicate]; split <;> rfl
  rw [shapedSymbols, htones] at hx
  simp only [List.mem_append, List.mem_map] at hx
  rcases hx with (hx | ⟨y, hy, rfl⟩) | hx
  · split at hx
    · rw [List.mem_singleton.1 hx]; exact hhead _
    · cases hx
  · exact List.eq_of_mem_replicate (List.fst_mem_of_mem_zipIdx hy)
  · split at hx
    · rw [List.mem_singleton.1 hx]; exact hlast _
    · cases hx

theorem toneSum_zero (hzero : ∀ t ∈ r.tones, t = 0) (b k : ℕ) : toneSum b r k = 0 :=
  List.sum_eq_zero fun y hy => by
    obtain ⟨x, hx, rfl⟩ := List.mem_map.1 hy
    rw [shapedSymbols_zero hzero hx, Nat.cast_zero, zero_mul]

theorem toneSumBefore_zero (hzero : ∀ t ∈ r.tones, t = 0) (b k : ℕ) : toneSumBefore b r k = 0 :=
  List.sum_eq_zero fun y hy => by
    obtain ⟨j, -, rfl⟩ := List.mem_map.1 hy
    exact toneSum_zero hzero b j

/-- Without an offset and without tones the phase stays where it begins (R298). -/
theorem phaseTurns_zero (hoffset : r.audioOffset = 0) (b k : ℕ) : phaseTurns b r k 0 = 0 := by
  simp [phaseTurns, offsetTurns, hoffset, binary32Units]

theorem sinTurn_zero (b : ℕ) : sinTurn b 0 = 0 := by
  simp [sinTurn, fixSin, trigSeries]

/-- An envelope keeps a silent sample silent (R299). -/
theorem approximateSample_zero (hoffset : r.audioOffset = 0) (b k : ℕ) : approximateSample b r k 0 = 0 := by
  simp [approximateSample, rampDownEnvelope, rampUpEnvelope, phaseTurns_zero hoffset, sinTurn_zero]

theorem roundEven_of_lt {m s : ℕ} (h : 2 * m < 2 ^ s) : roundEven m s = 0 := by
  unfold roundEven
  rw [Nat.div_eq_of_lt (by omega), Nat.mod_eq_of_lt (by omega), if_neg (by omega)]

/-- Two units are nothing beside the smallest binary32 (R108). -/
theorem roundMagnitude_two : roundMagnitude 2 = 0 := by
  have hplace : lastPlace 2 = 363 := by decide
  have hsmall : 2 ^ 2 < 2 ^ lastPlace 2 := Nat.pow_lt_pow_right (by decide) (by rw [hplace]; decide)
  rw [roundMagnitude_eq, roundEven_of_lt hsmall, hplace, Nat.sub_self, Nat.zero_mul]

theorem magnitudeCode_roundBinary32_two {y : ℤ} (hy : y.natAbs = 2) : magnitudeCode (roundBinary32 y) = 0 := by
  have hbound (n : ℕ) (hn : n ≠ 0) : y.natAbs ≤ 2 ^ n := hy.trans_le (Nat.le_self_pow hn 2)
  rw [magnitudeCode_roundBinary32 (hbound 513 (by decide)), hy, roundMagnitude_two]

theorem binary32Fix_of_code_zero (h : magnitudeCode w = 0) : binary32Fix w = 0 := by
  rw [binary32Fix_eq, h, codeUnits_zero]; simp

/-- The approximation 0 is decided without a comparison: the ends of its interval round to zeros (R13). -/
theorem magnitudeCode_roundSample_zero (r : GfskRequest) (k : ℕ) : magnitudeCode (roundSample r k 0) = 0 := by
  have hlow : magnitudeCode (roundBinary32 (0 - 2)) = 0 := magnitudeCode_roundBinary32_two rfl
  have hhigh : magnitudeCode (roundBinary32 (0 + 2)) = 0 := magnitudeCode_roundBinary32_two rfl
  unfold roundSample
  simp only [Int.zero_ediv]
  rw [if_pos ((binary32Fix_of_code_zero hlow).trans (binary32Fix_of_code_zero hhigh).symm)]
  exact hlow

/-- A bit-exact core keeps a zero a zero, of either sign (R300). -/
theorem magnitudeCode_outputSample_zero (r : GfskRequest) (k : ℕ) : magnitudeCode (outputSample 0 r k 0) = 0 := by
  rw [outputSample, conformingSample, if_neg fun h => absurd h.1 (lt_irrefl 0)]
  rcases withFreeZeroSign_cases (Config.gfskChoice r k) (roundSample r k 0) with ⟨hne, -⟩ | ⟨-, hzero, -⟩
  · exact absurd (magnitudeCode_roundSample_zero r k) hne
  · exact hzero

theorem eq_zero_of_magnitudeCode (h : magnitudeCode w = 0) : w = 0 ∨ w = 0x80000000#32 := by
  have hw := w.isLt
  unfold magnitudeCode at h
  rcases (by omega : w.toNat = 0 ∨ w.toNat = 2 ^ 31) with hcode | hcode
  · exact .inl (BitVec.eq_of_toNat_eq hcode)
  · exact .inr (BitVec.eq_of_toNat_eq hcode)

/-- Settles O55: no increment of the phase is other than 0, and the output keeps the zeros. -/
theorem silenceIsAllZeros : Obligations.SilenceIsAllZeros := by
  intro r w _ hoffset hzero hw
  obtain ⟨k, hk⟩ := List.mem_iff_getElem?.1 hw
  obtain ⟨hlt, -⟩ := List.getElem?_eq_some_iff.1 hk
  rw [length_waveform] at hlt
  rw [getElem?_waveform 0 r hlt, toneSumBefore_zero hzero, approximateSample_zero hoffset, Option.some_inj] at hk
  exact eq_zero_of_magnitudeCode (hk ▸ magnitudeCode_outputSample_zero r k)

end Sys2Proof.Machine
end

section
/-! PROOFS. The control and status registers (R30 to R41, R320 to R323). Each register that packs fields is the number
that its fields spell; what `CSR_READ` and `CSR_WRITE` do with a number is said through the register it names. -/

namespace Sys2Proof.Machine

variable {s : State} {n : BitVec 8} {v : Word} {c : Csr}

/-! ## The map of numbers -/

theorem csrOfNumber_csrNumber (c : Csr) : csrOfNumber (csrNumber c) = some c := by
  cases c <;> rfl

/-- A number names at most the register that has it (R30). -/
theorem csrNumber_of_csrOfNumber (h : csrOfNumber n = some c) : csrNumber c = n := by
  unfold csrOfNumber at h
  split at h
  all_goals cases h
  all_goals exact (BitVec.eq_of_toNat_eq ‹_›).symm

theorem csrNumber_le (c : Csr) : (csrNumber c).toNat ≤ 0x13 := by
  cases c <;> decide

/-- The numbers above those of the map are reserved (R30, R41). -/
theorem csrOfNumber_reserved (h : 0x13 < n.toNat) : csrOfNumber n = none :=
  Option.eq_none_iff_forall_ne_some.2 fun c hc =>
    absurd (csrNumber_le c) (Nat.not_le.2 (csrNumber_of_csrOfNumber hc ▸ h))

/-! ## The values of the registers -/

theorem speedValue_eq {wpm : Option Nat} (h : ∀ w, wpm = some w → w < 2 ^ 6) :
    speedValue wpm = BitVec.ofNat 32 (wpm.elim 0 fun w => 256 + w) := by
  cases wpm with
  | none => rfl
  | some w =>
    have hw := h w rfl
    apply BitVec.eq_of_toNat_eq
    simp only [speedValue, toNat_append, BitVec.toNat_ofNat, Option.elim_some]
    omega

theorem seFlagsValue_eq (s : State) : seFlagsValue s =
    BitVec.ofNat 32 (s.polarity.toNat + 2 * s.headerSent.toNat + 4 * s.endPending.toNat) := by
  unfold seFlagsValue
  cases s.endPending <;> cases s.headerSent <;> cases s.polarity <;> rfl

/-- A timing register is read as 0 without a WPM (R34 to R36). -/
theorem timingValue_eq_elim (f : Nat → Word) (wpm : Option Nat) : timingValue f wpm = wpm.elim 0#32 f := by
  cases wpm <;> rfl

theorem timingValue_eq_ofInt {f : Nat → Word} {g : Nat → Int} (wpm : Option Nat)
    (h : ∀ w, f w = BitVec.ofInt 32 (g w)) : timingValue f wpm = BitVec.ofInt 32 (wpm.elim 0 g) := by
  cases wpm with
  | none => rfl
  | some w => exact h w

theorem timingValue_rangeValue {neg pos neg' pos' : Nat → Int} (wpm : Option Nat) (hneg : ∀ w, neg w = neg' w)
    (hpos : ∀ w, pos w = pos' w) : timingValue (rangeValue neg pos) wpm =
      wpm.elim 0#32 fun w => BitVec.ofInt 16 (neg' w) ++ BitVec.ofInt 16 (pos' w) := by
  rw [funext hneg, funext hpos, timingValue_eq_elim]; rfl

/-- Every width fits its nibble, in all four bands (R36, R133). -/
theorem widthsValue_eq (w : Nat) : widthsValue w = BitVec.ofInt 32
    (ditWidth w + 16 * dahNegWidth w + 256 * dahPosWidth w + 4096 * wordgapWidth w) := by
  have hband := band_le_three w
  unfold widthsValue ditWidth dahNegWidth dahPosWidth wordgapWidth
  generalize band w = k at hband
  interval_cases k
  all_goals rfl

theorem statusValue_eq (s : State) :
    statusValue s = BitVec.ofNat 32 ((statusCode s.lastStatus).toNat + 256 * s.errorSeen.toNat) := by
  have hcode := (statusCode s.lastStatus).isLt
  have hseen := Bool.toNat_le s.errorSeen
  apply BitVec.eq_of_toNat_eq
  simp only [statusValue, toNat_append, BitVec.toNat_ofNat, BitVec.toNat_ofBool]
  omega

/-! ## Reading -/

theorem exec_csrRead (n : BitVec 8) (s : State) : exec (.csrRead n) s = execCsrRead n s := rfl

theorem exec_csrRead_csrNumber (c : Csr) (s : State) :
    exec (.csrRead (csrNumber c)) s = .next { s with output := s.output ++ (be32 0 ++ be32 (csrValue s c)) } := by
  rw [exec_csrRead, execCsrRead, csrOfNumber_csrNumber]; rfl

theorem exec_csrRead_reserved (h : 0x13 < n.toNat) : exec (.csrRead n) s = .next (failed .illegalCommand s) := by
  rw [exec_csrRead, execCsrRead, csrOfNumber_reserved h]; exact raiseError_eq s _

/-- A line of the map of R30: a number, and the value of the register that has it. -/
def CsrLine (s : State) (x : BitVec 8 × Word) : Prop := ∃ c, csrNumber c = x.1 ∧ csrValue s c = x.2

theorem exec_csrRead_of_lines {map : List (BitVec 8 × Word)} (hmap : ∀ x ∈ map, CsrLine s x) (n : BitVec 8) (v : Word)
    (hmem : (n, v) ∈ map) : exec (.csrRead n) s = .next { s with output := s.output ++ (be32 0 ++ be32 v) } := by
  obtain ⟨c, rfl, rfl⟩ := hmap _ hmem
  exact exec_csrRead_csrNumber c s

/-- Settles O56: line by line of the map, and the numbers after it. -/
theorem csrReadResult : Obligations.CsrReadResult := by
  intro s hs timing range
  refine ⟨exec_csrRead_of_lines ?_, fun _ => exec_csrRead_reserved⟩
  have hwpm (w : Nat) (hw : s.wpm = some w) : w < 2 ^ 6 := by
    obtain ⟨-, hle⟩ := hs.wpmLegal w hw
    omega
  have hnat (g : Nat → Nat) (w : Nat) : BitVec.ofNat 32 (g w) = BitVec.ofInt 32 (g w) := (BitVec.ofInt_natCast ..).symm
  simp only [List.forall_mem_cons]
  refine ⟨⟨.id, rfl, rfl⟩, ⟨.blockBits, rfl, rfl⟩, ⟨.ldpcK, rfl, rfl⟩, ⟨.ldpcN, rfl, rfl⟩,
    ⟨.speed, rfl, speedValue_eq hwpm⟩, ⟨.seFlags, rfl, seFlagsValue_eq s⟩, ⟨.bbFill, rfl, rfl⟩,
    ⟨.bbRemaining, rfl, rfl⟩, ⟨.exRemaining, rfl, rfl⟩,
    ⟨.ditMs, rfl, timingValue_eq_ofInt s.wpm (hnat dit)⟩,
    ⟨.dahMs, rfl, timingValue_eq_ofInt s.wpm fun w => (hnat dah w).trans (congrArg _ (cast_dah w))⟩,
    ⟨.wordgapMs, rfl, timingValue_eq_ofInt s.wpm fun w => (hnat wordgap w).trans (congrArg _ (cast_wordgap w))⟩,
    ⟨.ditRange, rfl, timingValue_rangeValue s.wpm (fun _ => rfl) posDit_eq⟩,
    ⟨.dahRange, rfl, timingValue_rangeValue s.wpm negDah_eq posDah_eq⟩,
    ⟨.wordgapRange, rfl, timingValue_rangeValue s.wpm negWordgap_eq posWordgap_eq⟩,
    ⟨.widths, rfl, timingValue_eq_ofInt s.wpm widthsValue_eq⟩,
    ⟨.sampleRate, rfl, rfl⟩, ⟨.audioOffset, rfl, rfl⟩, ⟨.outCapacity, rfl, rfl⟩, ⟨.status, rfl, statusValue_eq s⟩,
    List.forall_mem_nil _⟩

/-! ## Writing -/

theorem sampleRateLegal_iff (v : Word) : sampleRateLegal v = true ↔ 50 ≤ v.toNat := decide_eq_true_iff

/-- The patterns of the finite numbers of sign 0 are those below that of infinity (R38, R108). -/
theorem audioOffsetLegal_iff (v : Word) : audioOffsetLegal v = true ↔ v.toNat < 0x7F800000 := by
  have hv := v.isLt
  have hsign : v[31] = false ↔ v.toNat / 2 ^ 31 % 2 = 0 := bit_eq_iff (by decide)
  rw [audioOffsetLegal, Bool.and_eq_true, Bool.not_eq_true', hsign, bne_iff_ne, ne_eq, ← BitVec.toNat_inj, toNat_field]
  change _ ∧ ¬v.toNat / 2 ^ 23 % 2 ^ 8 = 255 ↔ _
  omega

theorem outCapacityLegal_iff (v : Word) : outCapacityLegal v = true ↔ v.toNat < 2 ^ 28 := by
  rw [outCapacityLegal, decide_eq_true_iff]; omega

/-- A setting is written if its value is legal (R322, R323). -/
theorem checkedWrite_eq {legal : Bool} {P : Prop} [Decidable P] (hlegal : legal = true ↔ P) (s t : State) :
    (if legal then done 0 [] t else raiseError .configurationError s) =
      .next (if P then answered 0 [] t else failed .configurationError s) := by
  rw [done_eq, raiseError_eq, ← apply_ite]
  simp only [hlegal]

theorem exec_csrWrite_sampleRate (v : Word) (s : State) : exec (.csrWrite 0x10 v) s =
    .next (if 50 ≤ v.toNat then answered 0 [] { s with sampleRate := v } else failed .configurationError s) :=
  checkedWrite_eq (sampleRateLegal_iff v) s { s with sampleRate := v }

theorem exec_csrWrite_audioOffset (v : Word) (s : State) : exec (.csrWrite 0x11 v) s =
    .next (if v.toNat < 0x7F800000 then answered 0 [] { s with audioOffset := v } else failed .configurationError s) :=
  checkedWrite_eq (audioOffsetLegal_iff v) s { s with audioOffset := v }

theorem exec_csrWrite_outCapacity (v : Word) (s : State) : exec (.csrWrite 0x12 v) s =
    .next (if v.toNat < 2 ^ 28 then answered 0 [] { s with outCapacity := v } else failed .configurationError s) :=
  checkedWrite_eq (outCapacityLegal_iff v) s { s with outCapacity := v }

/-- No other register can be written, and no reserved one (R41, R322). -/
theorem exec_csrWrite_readOnly (h : n ∉ ([0x10, 0x11, 0x12] : List (BitVec 8))) :
    exec (.csrWrite n v) s = .next (failed .illegalCommand s) := by
  have hwritable (c : Csr) (hc : csrOfNumber n = some c) : csrNumber c ∉ ([0x10, 0x11, 0x12] : List (BitVec 8)) := by
    rwa [csrNumber_of_csrOfNumber hc]
  rw [show exec (.csrWrite n v) s = execCsrWrite n v s from rfl, execCsrWrite]
  split
  next hc => exact absurd (by decide) (hwritable .sampleRate hc)
  next hc => exact absurd (by decide) (hwritable .audioOffset hc)
  next hc => exact absurd (by decide) (hwritable .outCapacity hc)
  next => exact raiseError_eq s _

/-- Settles O57: the three writable registers, each within its range and outside it, and all others. -/
theorem csrWriteResult : Obligations.CsrWriteResult := by
  intro s n v
  refine ⟨?_, ?_, ?_, ?_, ?_, ?_, exec_csrWrite_readOnly⟩
  · rintro rfl hlegal; rw [exec_csrWrite_sampleRate, if_pos hlegal]
  · rintro rfl hillegal; rw [exec_csrWrite_sampleRate, if_neg (Nat.not_le.2 hillegal)]
  · rintro rfl hlegal; rw [exec_csrWrite_audioOffset, if_pos hlegal]
  · rintro rfl hillegal; rw [exec_csrWrite_audioOffset, if_neg (Nat.not_lt.2 hillegal)]
  · rintro rfl hlegal; rw [exec_csrWrite_outCapacity, if_pos hlegal]
  · rintro rfl hillegal; rw [exec_csrWrite_outCapacity, if_neg (Nat.not_lt.2 hillegal)]

end Sys2Proof.Machine
end

section
/-! PROOFS. Errors (R334) and partial commands (R342): each in terms of the command at the front of the stream. -/

namespace Sys2Proof.Machine

/-- Settles O15: `CSR_READ` fails or only responds, and every other command completes. -/
theorem errorsArePrecise : Obligations.ErrorsArePrecise := by
  intro s t i rest hdecode hstep
  rw [stepRunsDecodedCommand s i rest hdecode] at hstep
  by_cases hread : ∃ c, i = .csrRead c
  · obtain ⟨c, rfl⟩ := hread
    rcases execCsrRead_next hstep with rfl | ⟨payload, rfl⟩
    · exact .inl ⟨_, rfl⟩
    · exact .inr ⟨rfl, 0, payload, rfl⟩
  · cases exec_completion hread hstep with
    | raise e => exact .inl ⟨e, rfl⟩
    | ok result payload hu =>
      exact .inr ⟨hu.errorSeen_eq, result, payload, by rw [answered_output, hu.output_eq]⟩

/-- Without its whole payload a command is not performed (R342). -/
theorem decodeCommand_partial {p : Params} {h : Word} {body : List Byte} (hlen : body.length < payloadLength p h) :
    decodeCommand p (be32 h ++ body) = .incomplete := by
  rw [decodeCommand_header, if_pos hlen]

theorem step_incomplete {s : State} (h : decodeCommand s.params s.input = .incomplete) : step s = .next s := by
  rw [step_eq, h]

/-- Settles O6: the header is missing in part, or its payload is; reset empties the stream. -/
theorem incompleteCommandWaits : Obligations.IncompleteCommandWaits := by
  rintro s (hheader | ⟨h, body, hinput, hpayload⟩)
  · exact ⟨step_incomplete (decodeCommand_short hheader), rfl⟩
  · exact ⟨step_incomplete (hinput ▸ decodeCommand_partial hpayload), rfl⟩

end Sys2Proof.Machine
end
